-- ==== Sys2Proof/Word.lean ====
section
/-! DEFINITION. The word types of the block: every host register is 32 bits wide, byte lanes and opcodes are 8 bits
(spec/00_scope.md R10, R12). All values are unsigned. -/

namespace Sys2Proof

/-- A 32-bit register value: a command word, an operand, a run length, a count, a node weight (R10). -/
abbrev Word := BitVec 32

/-- An 8-bit value: one byte lane of an operand (spec/20_memory.md R50), or an opcode (spec/30_encoding.md R60). -/
abbrev Byte := BitVec 8

/-- The largest run length, count and total run count: 2^32 - 1 (R10). -/
def maxWord : Word := BitVec.allOnes 32

end Sys2Proof
end

