-- ==== Sys2Proof/Config.lean ====
section
/-! DEFINITION. What an implementation fixes (spec/00_scope.md R9, spec/20_memory.md R49) and the one source of free
values (spec/20_memory.md R53). -/

namespace Sys2Proof

/-- The parameters of one block. They are configuration, not state (spec/10_state.md R17): no step changes them.
`IRQ_LINE` and `RESET_STYLE` say how the platform wires the block and have no effect inside it
(spec/60_exceptions.md R125, spec/70_reset_and_hazards.md R135; notes/assumptions/14.md). -/
structure Config where
  /-- `N_SYM`: how many distinct run-length values the frequency table holds, 1 to 2048 (R9). -/
  nSym : Nat
  /-- `L_MAX`: the longest code, in bits, that the code table stores, 1 to 64 (R9). -/
  lMax : Nat
  /-- `BASE`: the system address at which the window starts, a multiple of 0x40000 (R49). -/
  base : Nat
deriving DecidableEq, Repr

/-- The spec's example configuration: N_SYM = 256, L_MAX = 64 (R9), at base address 0.
DESIGN CHOICE (notes/assumptions/1.md): the example is not normative and BASE is open. -/
def Config.example256 : Config := { nSym := 256, lMax := 64, base := 0 }

/-- The unspecified 32-bit value that the k-th read of a result register or window word returns while a command is
running (spec/20_memory.md R53, spec/93_implementation_defined.md S1: "a fresh draw of 32 bits on every read").
It has no body: nothing can be proved of any of its values. -/
opaque Config.freeWord : Nat → Word

end Sys2Proof
end

