-- ==== Sys2Proof/Syntax.lean ====
section
/-! DEFINITION. The syntax: the seven commands (one constructor per row of spec/opcode_table.json), the host's
operations on the port (spec/20_memory.md), and the text syntax of host programs with its pseudo-commands
(spec/30_encoding.md R67, R68). -/

namespace Sys2Proof

/-- The commands of the block (spec/30_encoding.md R62). FEED_BYTES carries its NB field, the byte count minus 1
(R63); no other command has a field, and every operand comes from the latched operand register (R64). -/
inductive Instr
  /-- NOP (spec/44_control.md R106). -/
  | nop
  /-- CLEAR (spec/44_control.md R107). -/
  | clear
  /-- FEED_BYTES with NB = `nb`, that is `nb + 1` bytes (spec/41_analyzer.md R84). -/
  | feedBytes (nb : BitVec 2)
  /-- FEED_RUN (spec/41_analyzer.md R85). -/
  | feedRun
  /-- FLUSH (spec/41_analyzer.md R86). -/
  | flush
  /-- BUILD_TREE (spec/42_tree_builder.md R94). -/
  | buildTree
  /-- GEN_CODES (spec/43_code_generator.md R101). -/
  | genCodes
deriving DecidableEq, Repr

/-- The width of a host access. Only 32-bit accesses are taken; the others are there to be answered by a bus error
(spec/20_memory.md R47, R48). -/
inductive Size
  | b8
  | b16
  | b32
  | b64
deriving DecidableEq, Repr

/-- One operation of the host. Addresses are system addresses: the block's window starts at `Config.base` (R49). -/
inductive HostOp
  /-- A read of the given width; a 32-bit one is `HostRead32` (spec/20_memory.md R45). -/
  | read (size : Size) (addr : Nat)
  /-- A write of the given width; a 32-bit one is `HostWrite32` (R46). The data of an access of another width is of
  no account: it gets a bus error. -/
  | write (size : Size) (addr : Nat) (v : Word)
  /-- `wait`: repeats a read of STATUS until BUSY = 0 (spec/30_encoding.md R67). -/
  | wait
  /-- Waits until the interrupt line is high (spec/70_reset_and_hazards.md R139: "or wait for IRQ"). -/
  | waitIrq
  /-- `CHECK_NONEMPTY`: reads NSYM; the host stops its program if it is 0 (spec/30_encoding.md R68). -/
  | checkNonempty
deriving DecidableEq, Repr

/-- The named words of a SYM slot (spec/10_state.md R38). -/
inductive SymWord
  | value
  | count
  | codeLen
  | codeLo
  | codeHi
deriving DecidableEq, Repr

/-- The named words of a NODE entry (spec/10_state.md R40). -/
inductive NodeWord
  | kind
  | weight
  | a
  | b
deriving DecidableEq, Repr

/-- The register names of the text syntax (spec/10_state.md R21; spec/30_encoding.md R67). -/
inductive Reg
  | id
  | config
  | ctrl
  | status
  | cmd
  | arg
  | nsym
  | nruns
  | rleLen
  | rleBit
  | totalLo
  | totalHi
  | root
  | maxlen
  /-- `SYM[i].<word>`. -/
  | sym (i : Nat) (w : SymWord)
  /-- `NODE[j].<word>`. -/
  | node (j : Nat) (w : NodeWord)
deriving DecidableEq, Repr

/-- One line of a host program: a host operation, a command line (R67) or a pseudo-command (R68). The name that
`rd <REG> -> <name>` or `RESULT <name>` binds is the host's own; the values stand in `State.log`
(notes/assumptions/13.md). -/
inductive Item
  | wr (r : Reg) (v : Word)
  | rd (r : Reg)
  | wait
  | waitIrq
  | nop
  | clear
  | flush
  | buildTree
  | genCodes
  | feedRun (v : Word)
  /-- `FEED_BYTES <count>, <imm32>`, count 1 to 4 (R67). -/
  | feedBytes (count : Nat) (v : Word)
  /-- `FEED b0, b1, …`: at least one byte (R68). -/
  | feed (bytes : List Byte)
  | estimate
  | result
  | ack
  | checkNonempty
deriving DecidableEq, Repr

end Sys2Proof
end

