-- ==== Sys2Proof/WellFormed.lean ====
section
/-! DEFINITION. What makes a configuration and a line of a host program well formed. An `Instr` needs no check: the
only field a command has, NB, is a two-bit value, and each of its four values is legal (spec/30_encoding.md R63). -/

namespace Sys2Proof

/-- The legal ranges of the parameters (spec/00_scope.md R9; spec/20_memory.md R49). -/
def Config.wf (c : Config) : Bool :=
  decide (1 ≤ c.nSym) && decide (c.nSym ≤ 2048) && decide (1 ≤ c.lMax) && decide (c.lMax ≤ 64)
    && decide (c.base % 0x40000 = 0)

/-- The window has 2048 SYM slots and 4096 NODE entries (spec/10_state.md R21). -/
def Reg.wf : Reg → Bool
  | .sym i _ => decide (i < 2048)
  | .node j _ => decide (j < 4096)
  | .id | .config | .ctrl | .status | .cmd | .arg | .nsym | .nruns | .rleLen | .rleBit | .totalLo | .totalHi
  | .root | .maxlen => true

/-- A line of a host program: FEED_BYTES takes 1 to 4 bytes (spec/30_encoding.md R67), FEED at least one (R68), and
a register name lies in the window. -/
def Item.wf : Item → Bool
  | .wr r _ => r.wf
  | .rd r => r.wf
  | .feedBytes count _ => decide (1 ≤ count) && decide (count ≤ 4)
  | .feed bytes => !bytes.isEmpty
  | .wait | .waitIrq | .nop | .clear | .flush | .buildTree | .genCodes | .feedRun _ | .estimate | .result | .ack
  | .checkNonempty => true

end Sys2Proof
end

