-- ==== Sys2Proof/Decode.lean ====
section
/-! DEFINITION. The decoder and the encoder of command words (spec/30_encoding.md R60 to R66). One CMD write is one
whole command of 32 bits (R61), so the decoder takes one word; it is total over all 2^32 words. -/

namespace Sys2Proof

/-- Why a word is no command (R65), by name. -/
inductive Illegal
  /-- RSV = w[31:10] is not 0. -/
  | reserved
  /-- NB = w[9:8] is not 0 and OP is not 0x02. -/
  | byteCount
  /-- OP is 0x07 to 0xFF. -/
  | opcode
deriving DecidableEq, Repr

/-- OP = w[7:0] (R60). -/
def fieldOp (w : Word) : Byte := w.extractLsb' 0 8

/-- NB = w[9:8] (R60). -/
def fieldNb (w : Word) : BitVec 2 := w.extractLsb' 8 2

/-- RSV = w[31:10] (R60). -/
def fieldRsv (w : Word) : BitVec 22 := w.extractLsb' 10 22

/-- `Decode(w)` of R66, case by case in its order. -/
def decode (w : Word) : Except Illegal Instr :=
  if fieldRsv w ≠ 0 then .error .reserved
  else if fieldOp w = 0x02 then .ok (.feedBytes (fieldNb w))
  else if fieldNb w ≠ 0 then .error .byteCount
  else if fieldOp w = 0x00 then .ok .nop
  else if fieldOp w = 0x01 then .ok .clear
  else if fieldOp w = 0x03 then .ok .feedRun
  else if fieldOp w = 0x04 then .ok .flush
  else if fieldOp w = 0x05 then .ok .buildTree
  else if fieldOp w = 0x06 then .ok .genCodes
  else .error .opcode

/-- The opcode of a command (R62). -/
def opcode : Instr → Byte
  | .nop => 0x00
  | .clear => 0x01
  | .feedBytes _ => 0x02
  | .feedRun => 0x03
  | .flush => 0x04
  | .buildTree => 0x05
  | .genCodes => 0x06

/-- The NB field of a command: the byte count minus 1 of FEED_BYTES, 0 for every other one (R63). -/
def nbField : Instr → BitVec 2
  | .feedBytes nb => nb
  | .nop | .clear | .feedRun | .flush | .buildTree | .genCodes => 0

/-- The word of a command: RSV = 0, NB, OP, from bit 31 down (R60). -/
def encode (i : Instr) : Word := 0#22 ++ nbField i ++ opcode i

/-- One row of the opcode map of R62. -/
structure Row where
  pattern : Word
  mask : Word
deriving DecidableEq, Repr

/-- The row of each command, word (match) and mask as the table of R62 has them. -/
def tableRow : Instr → Row
  | .nop => ⟨0x00000000, 0xFFFFFFFF⟩
  | .clear => ⟨0x00000001, 0xFFFFFFFF⟩
  | .feedBytes _ => ⟨0x00000002, 0xFFFFFCFF⟩
  | .feedRun => ⟨0x00000003, 0xFFFFFFFF⟩
  | .flush => ⟨0x00000004, 0xFFFFFFFF⟩
  | .buildTree => ⟨0x00000005, 0xFFFFFFFF⟩
  | .genCodes => ⟨0x00000006, 0xFFFFFFFF⟩

/-- "A word w selects the row where (w & mask) = match" (R62). -/
def Row.selects (r : Row) (w : Word) : Bool := decide (w &&& r.mask = r.pattern)

/-- What the decoder reads from an instruction whose bits are `w`, numbered as spec/opcode_table.json numbers them
(one 32-bit word, bit 0 least significant); every bit above `nbits` is 0. -/
def decodeTableWord (nbits w : Nat) : Option Instr :=
  match decode (BitVec.ofNat 32 (w % 2 ^ nbits)) with
  | .ok i => some i
  | .error _ => none

end Sys2Proof
end

