-- ==== Sys2Proof/Machine/State.lean ====
section
/-! DEFINITION. The state of the machine: the block's own state S (spec/10_state.md R17) as `Block`, and around it the
configuration and what stands outside the block (the host's pending operations, the schedule, the responses). -/

namespace Sys2Proof.Machine

/-- The sequencing state `S.phase` (spec/10_state.md R18). -/
inductive Phase
  | accum
  | frozen
  | tree
  | coded
  | error
deriving DecidableEq, Repr

/-- The error codes of spec/60_exceptions.md R109. Codes 10 to 15 are never written, so they have no constructor. -/
inductive ErrCode
  | none
  | illegalCmd
  | sequence
  | invalidInput
  | badRun
  | runOverflow
  | countOverflow
  | tableFull
  | codeOverflow
  | cmdOverrun
deriving DecidableEq, Repr

/-- One occupied slot of the frequency table: a run-length value and its count (spec/10_state.md R36). -/
structure Slot where
  value : Word
  count : Word
deriving DecidableEq, Repr

/-- One entry of the node arena (spec/10_state.md R39): a leaf with its weight and run-length value, or an internal
node with its weight and the ids of its left and right children. -/
inductive Node
  | leaf (weight value : Word)
  | internal (weight left right : Word)
deriving DecidableEq, Repr

/-- One entry of the code table: its length and its bits, code bit k at `bits[k]` (spec/10_state.md R37). -/
structure Code where
  len  : BitVec 7
  bits : BitVec 64
deriving DecidableEq, Repr

/-- The block's state S: the components of spec/10_state.md R17, and nothing else. `S.n` is the length of `sym`
(`Block.n`; notes/assumptions/2.md). Entries that no read observes (slots from n on, the arena while `treeValid` is
off, the code table while `codesValid` is off) are not kept (notes/assumptions/3.md). -/
structure Block where
  phase      : Phase
  busy       : Bool
  done       : Bool
  ie         : Bool
  arg        : Word
  latCmd     : Word
  latArg     : Word
  overrun    : Bool
  overrunOp  : Byte
  errCode    : ErrCode
  errOp      : Byte
  errPos     : BitVec 5
  rleBit     : Bool
  rleLen     : Word
  sym        : List Slot
  nruns      : Word
  treeValid  : Bool
  node       : List Node
  root       : BitVec 12
  codesValid : Bool
  code       : List Code
  total      : BitVec 64
  maxlen     : BitVec 7
deriving DecidableEq, Repr

/-- `S.n`, the number of occupied slots (spec/10_state.md R17, R28). -/
abbrev Block.n (b : Block) : Nat := b.sym.length

/-- The three agents (spec/00_scope.md R11). -/
inductive Agent
  | host
  | engine
  | platform
deriving DecidableEq, Repr

/-- What the host receives from one operation. -/
inductive Response
  /-- The value of a 32-bit read (spec/20_memory.md R45). -/
  | readData (v : Word)
  /-- A 32-bit write was taken (R46). -/
  | writeDone
  /-- A bus error response (R48). -/
  | busError
  /-- The host's own InvalidInput diagnostic of CHECK_NONEMPTY (spec/30_encoding.md R68); no response of the block. -/
  | invalidInput
deriving DecidableEq, Repr

/-- The whole machine. `blk` is the spec's S. `cfg` is configuration that no step changes (R17; notes/assumptions/1.md).
`prog`, `sched`, `log` and `draws` are the model's own: the host operations still to come, which agent moves next
(notes/assumptions/4.md), the host's responses newest first (notes/assumptions/6.md), and how many unspecified read
values have been drawn (notes/assumptions/7.md). -/
structure State where
  cfg   : Config
  blk   : Block
  prog  : List HostOp
  sched : List Agent
  log   : List Response
  draws : Nat
deriving DecidableEq, Repr

/-- How a step can stop. The spec has no stuck behaviour (spec/93_implementation_defined.md: "No behaviour in this spec
is `stuck`"). -/
inductive Fault
  /-- Raised by GEN_CODES alone, when the arena that `treeValid` announces is no tree: the walk of
  spec/43_code_generator.md R97 meets an id outside the arena, a leaf with no slot, or goes on longer than the arena is
  large. SAFE: no reachable state has such an arena (spec/10_state.md R43 item 5; notes/assumptions/9.md). -/
  | arenaNotATree
deriving DecidableEq, Repr

/-- What the model does not give a meaning to. -/
inductive Refusal
  /-- Raised by an arm of `exec` that has no meaning yet. SAFE. -/
  | notModelled (mnemonic : String)
  /-- Raised by a host access at a system address below BASE: it is no access of this block
  (spec/20_memory.md R49; notes/assumptions/8.md). SAFE. -/
  | outsideWindow (addr : Nat)
deriving DecidableEq, Repr

/-- S right after reset (spec/10_state.md R44). -/
def Block.reset : Block where
  phase := .accum
  busy := false
  done := false
  ie := false
  arg := 0
  latCmd := 0
  latArg := 0
  overrun := false
  overrunOp := 0
  errCode := .none
  errOp := 0
  errPos := 0
  rleBit := false
  rleLen := 0
  sym := []
  nruns := 0
  treeValid := false
  node := []
  root := 0
  codesValid := false
  code := []
  total := 0
  maxlen := 0

/-- The machine right after reset: S as R44 gives it, the example configuration, and nothing pending outside
(notes/assumptions/1.md, 4.md, 5.md). -/
def State.reset : State where
  cfg := Config.example256
  blk := Block.reset
  prog := []
  sched := []
  log := []
  draws := 0

end Sys2Proof.Machine
end

