-- ==== Sys2Proof/Machine/Flags.lean ====
section
/-! DEFINITION. The status flags, the STATUS word and the interrupt line (spec/10_state.md R18, R19, R25;
spec/60_exceptions.md R109, R125). -/

namespace Sys2Proof.Machine

/-- STATUS.PHASE (R18). -/
def Phase.code : Phase → BitVec 3
  | .accum => 0
  | .frozen => 1
  | .tree => 2
  | .coded => 3
  | .error => 7

/-- STATUS.ERRCODE (R109). -/
def ErrCode.code : ErrCode → BitVec 4
  | .none => 0
  | .illegalCmd => 1
  | .sequence => 2
  | .invalidInput => 3
  | .badRun => 4
  | .runOverflow => 5
  | .countOverflow => 6
  | .tableFull => 7
  | .codeOverflow => 8
  | .cmdOverrun => 9

/-- STATUS.ERR: 1 exactly when the phase is ERROR (R19). -/
def Block.err (b : Block) : Bool := decide (b.phase = .error)

/-- The STATUS word, its fields from bit 31 down as the table of R25 lays them out. -/
def statusWord (b : Block) : Word :=
  0#3 ++ b.errPos ++ b.errOp ++ 0#4 ++ b.errCode.code ++ BitVec.ofBool b.codesValid ++ b.phase.code
    ++ BitVec.ofBool b.treeValid ++ BitVec.ofBool b.err ++ BitVec.ofBool b.done ++ BitVec.ofBool b.busy

/-- The interrupt line: `S.ie AND S.done` (spec/60_exceptions.md R125). -/
def irq (b : Block) : Bool := b.ie && b.done

end Sys2Proof.Machine
end

