-- ==== Sys2Proof/Machine/Operands.lean ====
section
/-! DEFINITION. The operand forms of the commands (spec/30_encoding.md R64): the byte lanes and bits of a FEED_BYTES
operand, and the bit sequence of a code. -/

namespace Sys2Proof.Machine

/-- Byte lane k of a 32-bit value: bits [8k+7:8k] (spec/20_memory.md R50). -/
def lane (a : Word) (k : Nat) : Byte := a.extractLsb' (8 * k) 8

/-- `Bits(x)`: the bits of a byte from bit 0 to bit 7 (spec/41_analyzer.md R79; spec/20_memory.md R51). -/
def byteBits (x : Byte) : List Bool :=
  [x.getLsbD 0, x.getLsbD 1, x.getLsbD 2, x.getLsbD 3, x.getLsbD 4, x.getLsbD 5, x.getLsbD 6, x.getLsbD 7]

/-- A byte sequence expands to the concatenation of its bytes' expansions, in byte order (R79). -/
def bytesBits (xs : List Byte) : List Bool := xs.flatMap byteBits

/-- The bytes of a FEED_BYTES operand: lanes 0 to NB in that order; lanes above NB are ignored (R64, R84). -/
def operandBytes (nb : BitVec 2) (a : Word) : List Byte := (List.range (nb.toNat + 1)).map (lane a)

/-- The bits of a FEED_BYTES operand in consumption order; the bit at index 8k+i is bit i of lane k (R84). -/
def operandBits (nb : BitVec 2) (a : Word) : List Bool := bytesBits (operandBytes nb a)

/-- `Σ_{k < len(path)} path[k] · 2^k`: the stored bits of a code, first branch at bit 0
(spec/43_code_generator.md R97, R99). -/
def pathBits : List Bool → Nat
  | [] => 0
  | b :: path => b.toNat + 2 * pathBits path

/-- The stored code of a path from the root (R97, R99). -/
def codeOf (path : List Bool) : Code := ⟨BitVec.ofNat 7 path.length, BitVec.ofNat 64 (pathBits path)⟩

end Sys2Proof.Machine
end

