-- ==== Sys2Proof/Machine/Ops.lean ====
section
/-! DEFINITION. The shared operations: entering an error (`errorEntry`) and the way out of it (`clearPipeline`), the
command cycle (acceptance, overrun, end of a completion), and running one command under the phase machine. -/

namespace Sys2Proof.Machine

/-- What `raise E(op, pos)` carries (spec/00_scope.md R13, spec/60_exceptions.md R120). -/
structure Raise where
  code : ErrCode
  op   : Byte
  pos  : BitVec 5
deriving DecidableEq, Repr

/-- How the working copy of a command ends: `commit T`, `raise`, or (in states no run reaches) a stop of the model. -/
inductive Effect
  | commit (t : Block)
  | raise (r : Raise)
  | stop (f : Fault)
deriving DecidableEq, Repr

/-- A working copy that committed or raised, as the end of a command. -/
def Effect.ofExcept : Except Raise Block → Effect
  | .ok t => .commit t
  | .error r => .raise r

/-- `ErrorEntry(E, op, pos)` (spec/60_exceptions.md R120): taking an error. The phase becomes ERROR and the code, the
failing opcode and the bit position are recorded; nothing else of S changes (R121). -/
def errorEntry (r : Raise) (b : Block) : Block :=
  { b with phase := .error, errCode := r.code, errOp := r.op, errPos := r.pos }

/-- `Clear()` (spec/44_control.md R107): the pipeline's start state, and the only way out of ERROR beside reset
(spec/60_exceptions.md R124). `ie`, `arg`, the latches, the overrun record, `busy` and `done` are not changed. -/
def clearPipeline (b : Block) : Block :=
  { b with
    phase := .accum
    rleBit := false, rleLen := 0
    sym := [], nruns := 0
    treeValid := false, codesValid := false
    node := [], code := []
    root := 0, total := 0, maxlen := 0
    errCode := .none, errOp := 0, errPos := 0 }

/-- `Accept(w)` (spec/40_command_cycle.md R70): a CMD write while idle. -/
def accept (w : Word) (b : Block) : Block :=
  { b with latCmd := w, latArg := b.arg, overrun := false, overrunOp := 0, done := false, busy := true }

/-- A CMD write while busy (R71): the word is dropped; only the first dropped word is recorded. -/
def overrunWrite (w : Word) (b : Block) : Block :=
  if b.overrun then b else { b with overrun := true, overrunOp := fieldOp w }

/-- The end of `Complete()` (R72) after `Execute`: a recorded overrun becomes CMD_OVERRUN unless the block is already in
ERROR, and the handshake closes. -/
def finish (b : Block) : Block :=
  let b' := if b.overrun && !b.err then errorEntry ⟨.cmdOverrun, b.overrunOp, 0⟩ b else b
  { b' with overrun := false, overrunOp := 0, busy := false, done := true }

/-- The word of the accepted command (R69): where the engine takes its next command from. -/
def fetchWord (s : State) : Word := s.blk.latCmd

/-- `Legal(c)` (spec/40_command_cycle.md R76). -/
def legal : Instr → Phase → Bool
  | .nop, p => decide (p ≠ .error)
  | .clear, _ => true
  | .feedBytes _, p => decide (p = .accum)
  | .feedRun, p => decide (p = .accum)
  | .flush, p => decide (p = .accum)
  | .buildTree, p => decide (p = .frozen)
  | .genCodes, p => decide (p = .tree)

/-- The state with another S. -/
def State.withBlk (s : State) (b : Block) : State := { s with blk := b }

/-- `raise E(op, pos)` as the end of a command: the working copy is dropped and the error is entered (R120). -/
def raiseError (r : Raise) (s : State) : State := s.withBlk (errorEntry r s.blk)

/-- How a command that ran leaves the machine. -/
def conclude (s : State) : Effect → Host.Outcome State Fault Refusal
  | .commit t => .next (s.withBlk t)
  | .raise r => .next (raiseError r s)
  | .stop f => .fault f

/-- The dispatch of R75 around one command other than CLEAR: no effect in ERROR (R77), SEQUENCE outside the command's
legal phases (spec/60_exceptions.md R111), else the command's own effect. -/
def runCommand (i : Instr) (body : Block → Effect) (s : State) : Host.Outcome State Fault Refusal :=
  if s.blk.phase = .error then .next s
  else if legal i s.blk.phase then conclude s (body s.blk)
  else .next (raiseError ⟨.sequence, opcode i, 0⟩ s)

/-- The same dispatch for a word that decodes to no command: no effect in ERROR, else ILLEGAL_CMD with
`err_op = w[7:0]` (spec/60_exceptions.md R110). -/
def illegalCommand (w : Word) (s : State) : State :=
  if s.blk.phase = .error then s else raiseError ⟨.illegalCmd, fieldOp w, 0⟩ s

end Sys2Proof.Machine
end

