-- ==== Sys2Proof/Machine/Analyzer.lean ====
section
/-! DEFINITION. The run-length frequency analyzer: FEED_BYTES, FEED_RUN, FLUSH (spec/41_analyzer.md). The helpers work on
a working copy of S and end by `.error` where the spec raises. -/

namespace Sys2Proof.Machine

/-- `sym[i].count <- sym[i].count + 1` for the slot i that holds the value v (spec/41_analyzer.md R83). -/
def bumpCount (v : Word) : List Slot → List Slot
  | [] => []
  | t :: ts => if t.value = v then { t with count := t.count + 1 } :: ts else t :: bumpCount v ts

/-- The place of a new value: the number of occupied slots with a smaller value (R83). -/
def placeOf (v : Word) (sym : List Slot) : Nat := sym.countP (fun t => decide (t.value < v))

/-- A new slot (v, 1) at its place; the slots from there on move up by one (R83). -/
def insertSlot (v : Word) (sym : List Slot) : List Slot :=
  sym.take (placeOf v sym) ++ ⟨v, 1⟩ :: sym.drop (placeOf v sym)

/-- Whether a slot holds the value v (R83). -/
def holdsValue (v : Word) (sym : List Slot) : Bool := sym.any (fun t => decide (t.value = v))

/-- `Emit(T, v, op, pos)` (R83): count one run of length v. COUNT_OVERFLOW is checked before TABLE_FULL
(spec/60_exceptions.md R115, R116). -/
def emit (c : Config) (v : Word) (op : Byte) (pos : Nat) (b : Block) : Except Raise Block :=
  if b.nruns = maxWord then .error ⟨.countOverflow, op, BitVec.ofNat 5 pos⟩
  else if holdsValue v b.sym then .ok { b with sym := bumpCount v b.sym, nruns := b.nruns + 1 }
  else if c.nSym ≤ b.n then .error ⟨.tableFull, op, BitVec.ofNat 5 pos⟩
  else .ok { b with sym := insertSlot v b.sym, nruns := b.nruns + 1 }

/-- `RleStep(T, b, op, pos)` (R80): one bit extends the open run or closes it. A run of length 0 is closed without
being emitted (R81, R82). -/
def rleStep (c : Config) (bit : Bool) (op : Byte) (pos : Nat) (b : Block) : Except Raise Block :=
  if bit = b.rleBit then
    if b.rleLen = maxWord then .error ⟨.runOverflow, op, BitVec.ofNat 5 pos⟩
    else .ok { b with rleLen := b.rleLen + 1 }
  else if b.rleLen = 0 then .ok { b with rleBit := bit, rleLen := 1 }
  else
    match emit c b.rleLen op pos b with
    | .ok t => .ok { t with rleBit := bit, rleLen := 1 }
    | .error r => .error r

/-- The loop of R84 over the operand's bits in consumption order; `pos` is the position of the first of them. -/
def feedBits (c : Config) (op : Byte) : List Bool → Nat → Block → Except Raise Block
  | [], _, b => .ok b
  | bit :: bits, pos, b =>
    match rleStep c bit op pos b with
    | .ok t => feedBits c op bits (pos + 1) t
    | .error r => .error r

/-- `Flush()` (R86): emit the open run if it has a length, and close the input. `rleBit` keeps its value. -/
def flushInput (c : Config) (b : Block) : Except Raise Block :=
  if b.rleLen = 0 then .ok { b with phase := .frozen }
  else
    match emit c b.rleLen 0x04 0 b with
    | .ok t => .ok { t with rleLen := 0, phase := .frozen }
    | .error r => .error r

/-- FEED_BYTES (R84): NB + 1 bytes of the latched operand through extraction, the run-length step and counting. -/
def execFeedBytes (nb : BitVec 2) (s : State) : Host.Outcome State Fault Refusal :=
  runCommand (.feedBytes nb) (fun b => .ofExcept (feedBits s.cfg 0x02 (operandBits nb b.latArg) 0 b)) s

/-- FEED_RUN (R85): count one run length, the latched operand; 0 is BAD_RUN. The open run is not touched. -/
def execFeedRun (s : State) : Host.Outcome State Fault Refusal :=
  runCommand .feedRun
    (fun b => if b.latArg = 0 then .raise ⟨.badRun, 0x03, 0⟩ else .ofExcept (emit s.cfg b.latArg 0x03 0 b)) s

/-- FLUSH (R86). -/
def execFlush (s : State) : Host.Outcome State Fault Refusal :=
  runCommand .flush (fun b => .ofExcept (flushInput s.cfg b)) s

end Sys2Proof.Machine
end

