-- ==== Sys2Proof/Machine/CodeGenerator.lean ====
section
/-! DEFINITION. The code generator and size estimator: GEN_CODES (spec/43_code_generator.md). -/

namespace Sys2Proof.Machine

/-- How a walk of the tree ends: with the code table, at a leaf deeper than L_MAX, or on an arena that is no tree (in
states no run reaches; notes/assumptions/9.md). -/
inductive Walk
  | done (codes : List Code)
  | overflow
  | broken
deriving DecidableEq, Repr

/-- `Visit(T, j, prefix)` (spec/43_code_generator.md R97): depth first, left child with path ++ [0], then right child
with path ++ [1]; a leaf j records its path as the code of slot j. `fuel` bounds the depth: a child of a well-formed
arena has a smaller id than its parent (spec/42_tree_builder.md R96). -/
def visit (arena : List Node) (lMax : Nat) : Nat → Nat → List Bool → List Code → Walk
  | 0, _, _, _ => .broken
  | fuel + 1, j, path, codes =>
    match arena[j]? with
    | none => .broken
    | some (.leaf _ _) =>
      if lMax < path.length then .overflow
      else if j < codes.length then .done (codes.set j (codeOf path))
      else .broken
    | some (.internal _ left right) =>
      match visit arena lMax fuel left.toNat (path ++ [false]) codes with
      | .done codes' => visit arena lMax fuel right.toNat (path ++ [true]) codes'
      | .overflow => .overflow
      | .broken => .broken

/-- The codes of the tree at `root` over n slots: the single leaf gets one bit 0 (R98), any other tree is walked
(R97). -/
def assignCodes (arena : List Node) (lMax root n : Nat) : Walk :=
  match arena[root]? with
  | none => .broken
  | some (.leaf _ _) => .done ((List.replicate n ⟨0, 0⟩).set 0 ⟨1, 0⟩)
  | some (.internal _ _ _) => visit arena lMax arena.length root [] (List.replicate n ⟨0, 0⟩)

/-- `Σ_{i < n} code[i].len × sym[i].count` (R100), exactly. -/
def totalOf : List Code → List Slot → Nat
  | c :: cs, t :: ts => c.len.toNat * t.count.toNat + totalOf cs ts
  | _, _ => 0

/-- `max_{i < n} code[i].len` (R100). -/
def maxLenOf (codes : List Code) : Nat := codes.foldr (fun c m => max c.len.toNat m) 0

/-- `GenCodes()` (R101). -/
def genCodes (c : Config) (b : Block) : Effect :=
  match assignCodes b.node c.lMax b.root.toNat b.n with
  | .broken => .stop .arenaNotATree
  | .overflow => .raise ⟨.codeOverflow, 0x06, 0⟩
  | .done codes =>
    .commit
      { b with
        code := codes
        total := BitVec.ofNat 64 (totalOf codes b.sym)
        maxlen := BitVec.ofNat 7 (maxLenOf codes)
        codesValid := true
        phase := .coded }

/-- GEN_CODES (R101). -/
def execGenCodes (s : State) : Host.Outcome State Fault Refusal :=
  runCommand .genCodes (genCodes s.cfg) s

end Sys2Proof.Machine
end

