-- ==== Sys2Proof/Machine/Control.lean ====
section
/-! DEFINITION. The control commands NOP and CLEAR (spec/44_control.md). -/

namespace Sys2Proof.Machine

/-- NOP (spec/44_control.md R106): no change to S. -/
def execNop (s : State) : Host.Outcome State Fault Refusal :=
  runCommand .nop .commit s

/-- CLEAR (R107): in every phase, ERROR included, the pipeline's start state. -/
def execClear (s : State) : Host.Outcome State Fault Refusal :=
  .next (s.withBlk (clearPipeline s.blk))

end Sys2Proof.Machine
end

