-- ==== Sys2Proof/Machine/TreeBuilder.lean ====
section
/-! DEFINITION. The Huffman tree builder: BUILD_TREE (spec/42_tree_builder.md). Node ids are indexes of the arena. -/

namespace Sys2Proof.Machine

/-- The weight a node carries (spec/10_state.md R39). -/
def weightOf : Node → Word
  | .leaf weight _ => weight
  | .internal weight _ _ => weight

/-- `node[j].weight`; an id outside the arena, which the builder never uses, has weight 0. -/
def weightAt (arena : List Node) (j : Nat) : Word := ((arena[j]?).map weightOf).getD 0

/-- The initial leaves: leaf j stands for slot j (spec/42_tree_builder.md R90). -/
def leavesOf (sym : List Slot) : List Node := sym.map (fun t => .leaf t.count t.value)

/-- `(node[j].weight, j) < (node[k].weight, k)` in lexicographic order (R91). -/
def before (arena : List Node) (j k : Nat) : Bool :=
  decide (weightAt arena j < weightAt arena k) || (decide (weightAt arena j = weightAt arena k) && decide (j < k))

/-- The id of the pool with the smallest pair (weight, id) (R91). -/
def argmin (arena : List Node) : List Nat → Option Nat
  | [] => none
  | j :: js =>
    match argmin arena js with
    | none => some j
    | some k => if before arena j k then some j else some k

/-- One selection: the smallest id, and the pool without it (R91). -/
def select (arena : List Node) (pool : List Nat) : Option (Nat × List Nat) :=
  (argmin arena pool).map (fun x => (x, pool.erase x))

/-- The merges of R92 while the pool holds more than one id, at most `fuel` of them: the first selection is the left
child, the second the right child, and the new node takes the next id (R93). -/
def mergeLoop : Nat → List Node → List Nat → List Node × List Nat
  | 0, arena, pool => (arena, pool)
  | fuel + 1, arena, pool =>
    match select arena pool with
    | none => (arena, pool)
    | some (x, pool₁) =>
      match select arena pool₁ with
      | none => (arena, pool)
      | some (y, pool₂) =>
        mergeLoop fuel
          (arena ++ [.internal (weightAt arena x + weightAt arena y) (BitVec.ofNat 32 x) (BitVec.ofNat 32 y)])
          (pool₂ ++ [arena.length])

/-- The finished arena and pool over a frequency table: n slots give n - 1 merges (R92, R93). -/
def huffman (sym : List Slot) : List Node × List Nat :=
  mergeLoop (sym.length - 1) (leavesOf sym) (List.range sym.length)

/-- `BuildTree()` (R94). -/
def buildTree (b : Block) : Effect :=
  if b.n = 0 then .raise ⟨.invalidInput, 0x05, 0⟩
  else
    .commit
      { b with
        node := (huffman b.sym).1
        root := BitVec.ofNat 12 ((huffman b.sym).2.headD 0)
        treeValid := true
        phase := .tree }

/-- BUILD_TREE (R94). -/
def execBuildTree (s : State) : Host.Outcome State Fault Refusal :=
  runCommand .buildTree buildTree s

end Sys2Proof.Machine
end

