-- ==== Sys2Proof/Machine/Dispatch.lean ====
section
/-! DEFINITION. `Execute` of one command (spec/40_command_cycle.md R75): one arm per constructor of `Instr`. -/

namespace Sys2Proof.Machine

def exec (i : Instr) (s : State) : Host.Outcome State Fault Refusal :=
  match i with
  | .nop => Sys2Proof.Machine.execNop s
  | .clear => Sys2Proof.Machine.execClear s
  | .feedBytes nb => Sys2Proof.Machine.execFeedBytes nb s
  | .feedRun => Sys2Proof.Machine.execFeedRun s
  | .flush => Sys2Proof.Machine.execFlush s
  | .buildTree => Sys2Proof.Machine.execBuildTree s
  | .genCodes => Sys2Proof.Machine.execGenCodes s

end Sys2Proof.Machine
end

