-- ==== Sys2Proof/Machine/Window.lean ====
section
/-! DEFINITION. The host's window: what every offset reads as and what every write does (spec/10_state.md R21 to R40,
spec/20_memory.md R45 to R53), and the host's operations on it. -/

namespace Sys2Proof.Machine

/-- An access that gets a bus error (spec/20_memory.md R48): not 32 bits wide, not at a multiple of 4, or at 0x30000 or
above. -/
def isBusError (size : Size) (off : Nat) : Bool :=
  !decide (size = .b32) || !decide (off % 4 = 0) || decide (0x30000 ≤ off)

/-- CONFIG (spec/10_state.md R23): L_MAX in bits [22:16], N_SYM in bits [11:0], the others 0. -/
def configWord (c : Config) : Word := 0#9 ++ BitVec.ofNat 7 c.lMax ++ 0#4 ++ BitVec.ofNat 12 c.nSym

/-- Word k (k = 0 to 7) of SYM slot i (R38): gated on i < n, and the code words on `codesValid` as well. -/
def symWord (b : Block) (i k : Nat) : Word :=
  match b.sym[i]? with
  | none => 0
  | some slot =>
    if k = 0 then slot.value
    else if k = 1 then slot.count
    else
      match b.codesValid, b.code[i]? with
      | true, some c =>
        if k = 2 then c.len.setWidth 32
        else if k = 4 then c.bits.extractLsb' 0 32
        else if k = 5 then c.bits.extractLsb' 32 32
        else 0
      | _, _ => 0

/-- The four words of a node (R39, R40): kind 1 is a leaf, kind 2 an internal node. -/
def Node.word : Node → Nat → Word
  | .leaf weight value, k => if k = 0 then 1 else if k = 1 then weight else if k = 2 then value else 0
  | .internal weight left right, k => if k = 0 then 2 else if k = 1 then weight else if k = 2 then left else right

/-- Word k (k = 0 to 3) of NODE entry j (R40): gated on `treeValid` and j ≤ 2n - 2. -/
def nodeWord (b : Block) (j k : Nat) : Word :=
  if b.treeValid && decide (j + 2 ≤ 2 * b.n) then
    match b.node[j]? with
    | some node => node.word k
    | none => 0
  else 0

/-- What a register reads as while no command runs (R22 to R34). An offset that the register map does not name reads 0
(R35). -/
def registerWord (c : Config) (b : Block) (off : Nat) : Word :=
  if off = 0x0000 then 0x48554631
  else if off = 0x0004 then configWord c
  else if off = 0x0008 then (BitVec.ofBool b.ie).setWidth 32
  else if off = 0x000C then statusWord b
  else if off = 0x0014 then b.arg
  else if off = 0x0018 then BitVec.ofNat 32 b.n
  else if off = 0x001C then b.nruns
  else if off = 0x0020 then b.rleLen
  else if off = 0x0024 then (BitVec.ofBool b.rleBit).setWidth 32
  else if off = 0x0028 then (if b.codesValid then b.total.extractLsb' 0 32 else 0)
  else if off = 0x002C then (if b.codesValid then b.total.extractLsb' 32 32 else 0)
  else if off = 0x0030 then (if b.treeValid then b.root.setWidth 32 else 0)
  else if off = 0x0034 then (if b.codesValid then b.maxlen.setWidth 32 else 0)
  else 0

/-- What the word at a 4-byte-aligned offset reads as while no command runs, in the three parts of the window
(spec/20_memory.md R49): registers and reserved space, the SYM window, the NODE window. -/
def readWord (c : Config) (b : Block) (off : Nat) : Word :=
  if off < 0x10000 then registerWord c b off
  else if off < 0x20000 then symWord b ((off - 0x10000) / 32) (off % 32 / 4)
  else if off < 0x30000 then nodeWord b ((off - 0x20000) / 16) (off % 16 / 4)
  else 0

/-- The offsets whose reads are unspecified while a command runs (spec/20_memory.md R53): the result registers NSYM to
MAXLEN, and the SYM and NODE windows (notes/assumptions/7.md). -/
def unspecifiedWhileBusy (off : Nat) : Bool :=
  (decide (0x18 ≤ off) && decide (off ≤ 0x34)) || decide (0x10000 ≤ off)

/-- Whether a read at this offset draws a free value now (R53). -/
def drawsFree (b : Block) (off : Nat) : Bool := b.busy && unspecifiedWhileBusy off

/-- The value a 32-bit read at an offset in the window returns (spec/20_memory.md R45, R53). -/
def portValue (s : State) (off : Nat) : Word :=
  if drawsFree s.blk off then Config.freeWord s.draws else readWord s.cfg s.blk off

/-- The effect of a 32-bit write at an offset in the window (R46): one of CTRL, STATUS, CMD, ARG, or none. -/
def writeWord (off : Nat) (v : Word) (b : Block) : Block :=
  if off = 0x0008 then { b with ie := v.getLsbD 0 }
  else if off = 0x000C then (if v.getLsbD 1 then { b with done := false } else b)
  else if off = 0x0010 then (if b.busy then overrunWrite v b else accept v b)
  else if off = 0x0014 then { b with arg := v }
  else b

/-- The host receives a response. -/
def State.respond (s : State) (r : Response) : State := { s with log := r :: s.log }

/-- A host read at a byte offset in the window: `HostRead32(off)` when 32 bits wide (R45). S never changes; a free value
that was drawn is used up. -/
def hostRead (size : Size) (off : Nat) (s : State) : State :=
  if isBusError size off then s.respond .busError
  else
    { s.respond (.readData (portValue s off)) with
      draws := if drawsFree s.blk off then s.draws + 1 else s.draws }

/-- A host write at a byte offset in the window: `HostWrite32(off, v)` when 32 bits wide (R46). -/
def hostWrite (size : Size) (off : Nat) (v : Word) (s : State) : State :=
  if isBusError size off then s.respond .busError
  else (s.withBlk (writeWord off v s.blk)).respond .writeDone

/-- Offsets of the registers and window words by name (spec/10_state.md R21, R38, R40). -/
def offsetOf : Reg → Nat
  | .id => 0x0000
  | .config => 0x0004
  | .ctrl => 0x0008
  | .status => 0x000C
  | .cmd => 0x0010
  | .arg => 0x0014
  | .nsym => 0x0018
  | .nruns => 0x001C
  | .rleLen => 0x0020
  | .rleBit => 0x0024
  | .totalLo => 0x0028
  | .totalHi => 0x002C
  | .root => 0x0030
  | .maxlen => 0x0034
  | .sym i w => 0x10000 + 32 * i +
      match w with
      | .value => 0x00
      | .count => 0x04
      | .codeLen => 0x08
      | .codeLo => 0x10
      | .codeHi => 0x14
  | .node j w => 0x20000 + 16 * j +
      match w with
      | .kind => 0x0
      | .weight => 0x4
      | .a => 0x8
      | .b => 0xC

/-- One operation of the host, its line already taken off the program. A system address below BASE is no access of this
block and is refused (R49; notes/assumptions/8.md). -/
def hostOp (s : State) : HostOp → Host.Outcome State Fault Refusal
  | .read size addr =>
    if addr < s.cfg.base then .refused (.outsideWindow addr) else .next (hostRead size (addr - s.cfg.base) s)
  | .write size addr v =>
    if addr < s.cfg.base then .refused (.outsideWindow addr) else .next (hostWrite size (addr - s.cfg.base) v s)
  | .wait =>
    let t := hostRead .b32 (offsetOf .status) s
    .next (if (portValue s (offsetOf .status)).getLsbD 0 then { t with prog := .wait :: t.prog } else t)
  | .waitIrq => .next (if irq s.blk then s else { s with prog := .waitIrq :: s.prog })
  | .checkNonempty =>
    let t := hostRead .b32 (offsetOf .nsym) s
    .next (if portValue s (offsetOf .nsym) = 0 then ({ t with prog := [] }).respond .invalidInput else t)

/-- The host's move: its next operation, if there is one (R54). -/
def hostStep (s : State) : Host.Outcome State Fault Refusal :=
  match s.prog with
  | [] => .next s
  | op :: rest => hostOp { s with prog := rest } op

/-- The platform's move: reset, as one atomic step (spec/70_reset_and_hazards.md R134, R135). Every component of S takes
its reset value; the configuration stays (spec/10_state.md R23). -/
def resetBlock (s : State) : State := s.withBlk Block.reset

end Sys2Proof.Machine
end

