-- ==== Sys2Proof/Machine/Cycle.lean ====
section
/-! DEFINITION. The moves of the agents: the engine's completion of the accepted command (spec/40_command_cycle.md R72,
R75), and one move of a given agent (spec/00_scope.md R11). -/

namespace Sys2Proof.Machine

/-- What follows `Execute` in `Complete()` (R72): the overrun check and the end of the handshake. -/
def concludeCycle (o : Host.Outcome State Fault Refusal) : Host.Outcome State Fault Refusal :=
  match o with
  | .next t => .next (t.withBlk (finish t.blk))
  | .fault f => .fault f
  | .refused r => .refused r

/-- `Execute(w, a)` (R75) of the latched word: the decoded command, or the illegal word's error. -/
def execute (s : State) : Host.Outcome State Fault Refusal :=
  match decode (fetchWord s) with
  | .ok i => exec i s
  | .error _ => .next (illegalCommand (fetchWord s) s)

/-- `Complete()` (R72). -/
def complete (s : State) : Host.Outcome State Fault Refusal := concludeCycle (execute s)

/-- The engine's move: completion, enabled exactly when BUSY = 1 (R69). -/
def engineStep (s : State) : Host.Outcome State Fault Refusal :=
  if s.blk.busy then complete s else .next s

/-- The move of one agent (spec/00_scope.md R11). -/
def agentStep (s : State) : Agent → Host.Outcome State Fault Refusal
  | .host => hostStep s
  | .engine => engineStep s
  | .platform => .next (resetBlock s)

/-- Which agent moves next: the one the schedule names; when the schedule is used up, the engine while a command is
accepted, else the host (weak fairness of completion, spec/40_command_cycle.md R73; notes/assumptions/4.md). -/
def nextAgent (s : State) : Agent :=
  match s.sched with
  | agent :: _ => agent
  | [] => if s.blk.busy then .engine else .host

/-- The machine with the next agent's turn taken off the schedule. -/
def turn (s : State) : State := { s with sched := s.sched.tail }

end Sys2Proof.Machine
end

