-- ==== Sys2Proof/Machine/Step.lean ====
section
/-! DEFINITION. One step of the machine: one move of one agent (spec/20_memory.md R52, R54), and where a command is placed
so that the next step runs it. -/

namespace Sys2Proof.Machine

/-- One step: the agent whose turn it is moves. A host with nothing left to do leaves the machine as it is. -/
def step (s : State) : Host.Outcome State Fault Refusal := agentStep (turn s) (nextAgent s)

/-- The state in which the word `w` (its bits above `nbits` zero) has just been accepted, as a CMD write while idle accepts
it (spec/40_command_cycle.md R70), and the engine moves next. -/
def State.withFetchWord (s : State) (nbits w : Nat) : State :=
  { s with blk := accept (BitVec.ofNat 32 (w % 2 ^ nbits)) s.blk, sched := .engine :: s.sched }

end Sys2Proof.Machine
end

