-- ==== Sys2Proof/Machine/Program.lean ====
section
/-! DEFINITION. What each line of a host program stands for (spec/30_encoding.md R67, R68): the host operations of
`State.prog`. -/

namespace Sys2Proof.Machine

/-- `wr <REG>, <imm32>` is `HostWrite32(offset(REG), imm32)` (R67). -/
def wrReg (c : Config) (r : Reg) (v : Word) : HostOp := .write .b32 (c.base + offsetOf r) v

/-- `rd <REG>` is `HostRead32(offset(REG))` (R67). -/
def rdReg (c : Config) (r : Reg) : HostOp := .read .b32 (c.base + offsetOf r)

/-- A command without an operand: the CMD write, then `wait` (R67). -/
def commandLine (c : Config) (i : Instr) : List HostOp := [wrReg c .cmd (encode i), .wait]

/-- A command with an operand: the ARG write first (R67). -/
def operandLine (c : Config) (v : Word) (i : Instr) : List HostOp := wrReg c .arg v :: commandLine c i

/-- `b0 | b1<<8 | b2<<16 | b3<<24` of at most four bytes (R68). -/
def packBytes : List Byte → Nat
  | [] => 0
  | x :: xs => x.toNat + 256 * packBytes xs

/-- One group of a FEED line: g bytes, 1 to 4, as one FEED_BYTES line (R68). -/
def feedGroup (c : Config) (group : List Byte) : List HostOp :=
  operandLine c (BitVec.ofNat 32 (packBytes group)) (.feedBytes (BitVec.ofNat 2 (group.length - 1)))

/-- FEED takes the bytes in groups of 4, in order; only the last group may be shorter (R68). -/
def feedLine (c : Config) : List Byte → List HostOp
  | [] => []
  | b0 :: b1 :: b2 :: b3 :: rest => feedGroup c [b0, b1, b2, b3] ++ feedLine c rest
  | [b0, b1, b2] => feedGroup c [b0, b1, b2]
  | [b0, b1] => feedGroup c [b0, b1]
  | [b0] => feedGroup c [b0]

/-- The host operations a line of a program stands for (R67, R68). -/
def expand (c : Config) : Item → List HostOp
  | .wr r v => [wrReg c r v]
  | .rd r => [rdReg c r]
  | .wait => [.wait]
  | .waitIrq => [.waitIrq]
  | .nop => commandLine c .nop
  | .clear => commandLine c .clear
  | .flush => commandLine c .flush
  | .buildTree => commandLine c .buildTree
  | .genCodes => commandLine c .genCodes
  | .feedRun v => operandLine c v .feedRun
  | .feedBytes count v => operandLine c v (.feedBytes (BitVec.ofNat 2 (count - 1)))
  | .feed bytes => feedLine c bytes
  | .estimate => commandLine c .flush ++ commandLine c .buildTree ++ commandLine c .genCodes
  | .result => [rdReg c .totalLo, rdReg c .totalHi]
  | .ack => [wrReg c .status 0x00000002]
  | .checkNonempty => [.checkNonempty]

/-- A whole program (R67): one line after the other. -/
def expandAll (c : Config) (lines : List Item) : List HostOp := lines.flatMap (expand c)

/-- `RESULT <name>`: `hi · 2^32 + lo` of the two values read last, TOTAL_LO first (R68). -/
def resultOf : List Response → Option Nat
  | .readData hi :: .readData lo :: _ => some (hi.toNat * 2 ^ 32 + lo.toNat)
  | _ => none

end Sys2Proof.Machine
end

