-- ==== Sys2Proof/Safety.lean ====
section
/-! DEFINITION. The notions that claims about the machine are stated in: the invariant of the states a run can reach
(spec/10_state.md R43 and the rules it rests on), the runs of a bit sequence (spec/00_scope.md R14), and the paths of a
tree (spec/43_code_generator.md R97). None of them is used by the machine. -/

namespace Sys2Proof.Machine

/-! ### Ends of a command -/

/-- The state after an error: phase ERROR and the error record, and nothing else of the machine changed
(spec/60_exceptions.md R120, R121). -/
def failed (code : ErrCode) (op : Byte) (pos : BitVec 5) (s : State) : State :=
  { s with blk := { s.blk with phase := .error, errCode := code, errOp := op, errPos := pos } }

/-- The state after the handshake of a completion has closed (spec/40_command_cycle.md R72). -/
def closed (s : State) : State :=
  { s with blk := { s.blk with overrun := false, overrunOp := 0, busy := false, done := true } }

/-! ### The frequency table -/

/-- `Σ_{i < n} sym[i].count` (spec/10_state.md R43 item 1). -/
def countSum (sym : List Slot) : Nat := (sym.map (fun t => t.count.toNat)).sum

/-- `Σ_i value_i · count_i` (spec/41_analyzer.md R89). -/
def weightedSum (sym : List Slot) : Nat := (sym.map (fun t => t.value.toNat * t.count.toNat)).sum

/-- How often the table has counted the value v. -/
def countIn (sym : List Slot) (v : Nat) : Nat :=
  (sym.map (fun t => if t.value.toNat = v then t.count.toNat else 0)).sum

/-- Slot values are strictly ascending (spec/10_state.md R36). -/
def Ascending (sym : List Slot) : Prop := sym.Pairwise (fun t u => t.value < u.value)

/-- The frequency table of a reachable state (spec/10_state.md R17, R36, R43 items 1 to 3). -/
structure TableOk (c : Config) (b : Block) : Prop where
  fits      : b.n ≤ c.nSym
  ascending : Ascending b.sym
  positive  : ∀ t ∈ b.sym, t.value ≠ 0 ∧ t.count ≠ 0
  sum       : b.nruns.toNat = countSum b.sym

/-! ### Runs of bits -/

/-- The lengths of the runs that the bits close, from an open run of `len` bits of value `bit`. A run of length 0 is
closed without a trace (spec/41_analyzer.md R80, R82). Lengths are exact. -/
def closedRuns : Bool → Nat → List Bool → List Nat
  | _, _, [] => []
  | bit, len, x :: xs =>
    if x = bit then closedRuns bit (len + 1) xs
    else if len = 0 then closedRuns x 1 xs
    else len :: closedRuns x 1 xs

/-- The run left open after the bits (R80): its bit value and its exact length. -/
def openRun : Bool → Nat → List Bool → Bool × Nat
  | bit, len, [] => (bit, len)
  | bit, len, x :: xs => if x = bit then openRun bit (len + 1) xs else openRun x 1 xs

/-- The lengths of the maximal contiguous subsequences of identical bits (spec/00_scope.md R14, "Run"). -/
def maximalRuns (bits : List Bool) : List Nat := (bits.splitBy (· == ·)).map List.length

/-- The number of positions t ≥ 1 with `B[t] ≠ B[t-1]` (spec/41_analyzer.md R89). -/
def changes : List Bool → Nat
  | x :: y :: rest => (if x = y then 0 else 1) + changes (y :: rest)
  | _ => 0

/-- One input command with its operand: FEED_BYTES or FEED_RUN. -/
inductive Input
  | bytes (nb : BitVec 2) (a : Word)
  | run (v : Word)
deriving DecidableEq, Repr

/-- One input command executed with that operand latched. -/
def feedOne (s : State) : Input → Host.Outcome State Fault Refusal
  | .bytes nb a => exec (.feedBytes nb) (s.withBlk { s.blk with latArg := a })
  | .run v => exec .feedRun (s.withBlk { s.blk with latArg := v })

/-- Input commands executed one after the other. An error among them leaves the block in ERROR to the end
(spec/40_command_cycle.md R77). -/
def feedAll : State → List Input → State
  | s, [] => s
  | s, i :: rest =>
    match feedOne s i with
    | .next t => feedAll t rest
    | .fault _ => s
    | .refused _ => s

/-- The bit sequence that the FEED_BYTES commands of an input extract to (spec/41_analyzer.md R87). -/
def inputBits : List Input → List Bool
  | [] => []
  | .bytes nb a :: rest => operandBits nb a ++ inputBits rest
  | .run _ :: rest => inputBits rest

/-- The operands of the FEED_RUN commands of an input (R88). -/
def inputRuns : List Input → List Nat
  | [] => []
  | .bytes _ _ :: rest => inputRuns rest
  | .run v :: rest => v.toNat :: inputRuns rest

/-- What CLEAR and reset leave for the analyzer: an empty table and the virtual leading 0 (spec/41_analyzer.md R81). -/
def Fresh (s : State) : Prop :=
  s.blk.phase = .accum ∧ s.blk.rleBit = false ∧ s.blk.rleLen = 0 ∧ s.blk.sym = [] ∧ s.blk.nruns = 0

/-! ### The tree -/

/-- The ids of all children in an arena, parents in id order (spec/10_state.md R39). -/
def childIds (arena : List Node) : List Nat :=
  arena.flatMap fun
    | .leaf _ _ => []
    | .internal _ left right => [left.toNat, right.toNat]

/-- The pool when node `j` is made: the smaller ids that no node made before owns (spec/42_tree_builder.md R92). -/
def poolAt (arena : List Node) (j : Nat) : List Nat :=
  (List.range j).filter (fun z => decide (z ∉ childIds (arena.take j)))

/-- x and y are the first and the second selection from the pool (spec/42_tree_builder.md R91): each comes before every
id that is left, in the order of (weight, id). -/
structure Selected (arena : List Node) (pool : List Nat) (x y : Nat) : Prop where
  memX   : x ∈ pool
  memY   : y ∈ pool
  ne     : x ≠ y
  first  : ∀ z ∈ pool, z ≠ x → before arena x z = true
  second : ∀ z ∈ pool, z ≠ x → z ≠ y → before arena y z = true

/-- Node `j` is the merge of the two lowest-weight nodes of its pool, with the sum of their exact weights
(spec/42_tree_builder.md R91, R92). -/
def MergeOk (arena : List Node) (j : Nat) : Prop :=
  ∃ weight left right, arena[j]? = some (.internal weight left right)
    ∧ Selected arena (poolAt arena j) left.toNat right.toNat
    ∧ weight.toNat = (weightAt arena left.toNat).toNat + (weightAt arena right.toNat).toNat

/-- The arena is the Huffman tree over the table (spec/42_tree_builder.md R90 to R93; spec/10_state.md R43 item 5). -/
structure TreeOk (sym : List Slot) (arena : List Node) (root : Nat) (nruns : Nat) : Prop where
  nonempty   : 1 ≤ sym.length
  size       : arena.length = 2 * sym.length - 1
  leaves     : arena.take sym.length = leavesOf sym
  merges     : ∀ j, sym.length ≤ j → j < arena.length → MergeOk arena j
  owned      : (childIds arena).Perm (List.range (2 * sym.length - 2))
  rootId     : root = 2 * sym.length - 2
  rootWeight : (weightAt arena root).toNat = nruns

/-- The node reached from node `j` along a path: 0 to the left child, 1 to the right child
(spec/43_code_generator.md R97, R99). -/
def follow (arena : List Node) : Nat → List Bool → Option Nat
  | j, [] => some j
  | j, bit :: path =>
    match arena[j]? with
    | some (.internal _ left right) => follow arena (if bit then right else left).toNat path
    | _ => none

/-- The path leads from the root to the leaf of slot `j` (spec/42_tree_builder.md R93). -/
def LeafPath (b : Block) (j : Nat) (path : List Bool) : Prop :=
  j < b.n ∧ follow b.node b.root.toNat path = some j

/-- The bit sequence of a stored code: code bit k is `bits[k]` (spec/10_state.md R37). -/
def codePath (c : Code) : List Bool := (List.range c.len.toNat).map c.bits.getLsbD

/-- No word of the list is a prefix of another (spec/00_scope.md R14, "Prefix-free"). -/
def PrefixFree (words : List (List Bool)) : Prop := words.Pairwise (fun u v => ¬ u <+: v ∧ ¬ v <+: u)

/-- The code table of a reachable state (spec/10_state.md R37, R43 item 6; spec/43_code_generator.md R97 to R100). -/
structure CodesOk (c : Config) (b : Block) : Prop where
  size   : b.code.length = b.n
  lens   : ∀ e ∈ b.code, 1 ≤ e.len.toNat ∧ e.len.toNat ≤ c.lMax
  single : b.n = 1 → b.code = [⟨1, 0⟩]
  paths  : 2 ≤ b.n → ∀ j path, LeafPath b j path → b.code[j]? = some (codeOf path) ∧ path.length ≤ c.lMax
  total  : b.total.toNat = totalOf b.code b.sym
  maxlen : b.maxlen.toNat = maxLenOf b.code

/-! ### The invariant -/

/-- What holds of S in every state a run reaches, whether or not a command is accepted: a command commits all at once
(spec/20_memory.md R52), so the laws of spec/10_state.md R43 hold while it is pending too. -/
structure BlockInv (c : Config) (b : Block) : Prop where
  table      : TableOk c b
  /-- The arena holds the tree while TREE_VALID is set, else nothing (R43 item 5). -/
  tree       : b.treeValid = true → TreeOk b.sym b.node b.root.toNat b.nruns.toNat
  noTree     : b.treeValid = false → b.node = [] ∧ b.root = 0
  /-- The code table holds the codes while CODES_VALID is set, else nothing (R43 item 6). -/
  codes      : b.codesValid = true → CodesOk c b
  noCodes    : b.codesValid = false → b.code = [] ∧ b.total = 0 ∧ b.maxlen = 0
  codesTree  : b.codesValid = true → b.treeValid = true
  /-- Outside ERROR the two flags tell the phase (R20). -/
  treePhase  : b.phase ≠ .error → (b.treeValid = true ↔ b.phase = .tree ∨ b.phase = .coded)
  codesPhase : b.phase ≠ .error → (b.codesValid = true ↔ b.phase = .coded)
  /-- The error record is empty exactly outside ERROR (R41, spec/60_exceptions.md R120). -/
  errCode    : b.errCode = .none ↔ b.phase ≠ .error
  errClear   : b.phase ≠ .error → b.errOp = 0 ∧ b.errPos = 0
  /-- FLUSH has closed the run (spec/41_analyzer.md R86); an open run of ones has a length (R81). -/
  flushed    : b.phase = .frozen ∨ b.phase = .tree ∨ b.phase = .coded → b.rleLen = 0
  openOnes   : b.phase = .accum → b.rleBit = true → b.rleLen ≠ 0
  /-- The handshake (spec/40_command_cycle.md R70, R71, R72). -/
  busyDone   : b.busy = true → b.done = false
  idle       : b.busy = false → b.overrun = false
  noOverrun  : b.overrun = false → b.overrunOp = 0

/-- The invariant of the machine: a legal configuration, and S as above. -/
structure Inv (s : State) : Prop where
  config : s.cfg.wf = true
  block  : BlockInv s.cfg s.blk

/-- Every host operation still to come addresses the block's window or above (notes/assumptions/8.md). -/
def Routed (s : State) : Prop :=
  ∀ op ∈ s.prog, match op with
    | .read _ addr => s.cfg.base ≤ addr
    | .write _ addr _ => s.cfg.base ≤ addr
    | .wait => True
    | .waitIrq => True
    | .checkNonempty => True

/-- The next state of a step, if it has one. -/
def nextState : Host.Outcome State Fault Refusal → Option State
  | .next t => some t
  | .fault _ => none
  | .refused _ => none

end Sys2Proof.Machine
end

