-- ==== Sys2Proof/Certificates/Slice0/Obligations.lean ====
section
/-! DEFINITION. The statements about the machine, one definition each. Rules are cited as R<n> of the files of spec/. -/

open Sys2Proof Sys2Proof.Machine

/-! ### Encoding (30_encoding.md) -/

/-- The words written out in R62 and the vectors of 95_test_vectors.md section 2.2 decode as the spec says. -/
def Obligations.WrittenWordsDecode : Prop :=
  decode 0x00000000 = .ok .nop ∧ decode 0x00000001 = .ok .clear
    ∧ decode 0x00000002 = .ok (.feedBytes 0) ∧ decode 0x00000102 = .ok (.feedBytes 1)
    ∧ decode 0x00000202 = .ok (.feedBytes 2) ∧ decode 0x00000302 = .ok (.feedBytes 3)
    ∧ decode 0x00000003 = .ok .feedRun ∧ decode 0x00000004 = .ok .flush
    ∧ decode 0x00000005 = .ok .buildTree ∧ decode 0x00000006 = .ok .genCodes
    ∧ decode 0x00000007 = .error .opcode ∧ decode 0x000000FF = .error .opcode
    ∧ decode 0x00000101 = .error .byteCount ∧ decode 0x00000300 = .error .byteCount
    ∧ decode 0x00000402 = .error .reserved ∧ decode 0x80000000 = .error .reserved
    ∧ decode 0xFFFFFFFF = .error .reserved

/-- Decoding an encoded instruction gives it back, and a word that decodes is the encoding of what it decodes to: no two
legal words share a meaning. -/
def Obligations.DecodeInvertsEncode : Prop :=
  (∀ i : Instr, decode (encode i) = .ok i) ∧ ∀ (w : Word) (i : Instr), decode w = .ok i → encode i = w

/-- R62: a word selects the row where (w & mask) = match, and at most one row matches any word. -/
def Obligations.OpcodeMapSelectsOneRow : Prop :=
  (∀ w : Word,
    (decode w = .ok .nop ↔ w &&& 0xFFFFFFFF = 0x00000000)
    ∧ (decode w = .ok .clear ↔ w &&& 0xFFFFFFFF = 0x00000001)
    ∧ ((∃ nb, decode w = .ok (.feedBytes nb)) ↔ w &&& 0xFFFFFCFF = 0x00000002)
    ∧ (decode w = .ok .feedRun ↔ w &&& 0xFFFFFFFF = 0x00000003)
    ∧ (decode w = .ok .flush ↔ w &&& 0xFFFFFFFF = 0x00000004)
    ∧ (decode w = .ok .buildTree ↔ w &&& 0xFFFFFFFF = 0x00000005)
    ∧ (decode w = .ok .genCodes ↔ w &&& 0xFFFFFFFF = 0x00000006))
  ∧ ∀ (w : Word) (i j : Instr), (tableRow i).selects w = true → (tableRow j).selects w = true →
      tableRow i = tableRow j

/-- R65, R110: which words are illegal, and how an accepted illegal word completes, whether or not a word was dropped
while it ran. -/
def Obligations.IllegalWordsEndInIllegalCmd : Prop :=
  (∀ w : Word, (∃ e, decode w = .error e) ↔
    (0x07 ≤ (w.extractLsb' 0 8).toNat ∨ w.extractLsb' 10 22 ≠ 0 ∨ (w.extractLsb' 8 2 ≠ 0 ∧ w.extractLsb' 0 8 ≠ 0x02)))
  ∧ ∀ (s : State) (e : Illegal), decode s.blk.latCmd = .error e →
      (s.blk.phase ≠ .error → execute s = .next (failed .illegalCmd (s.blk.latCmd.extractLsb' 0 8) 0 s))
      ∧ (s.blk.phase ≠ .error →
          complete s = .next (closed (failed .illegalCmd (s.blk.latCmd.extractLsb' 0 8) 0 s)))
      ∧ (s.blk.phase = .error → execute s = .next s)

/-- R50, R51, R79: the bits of a FEED_BYTES operand are the bits of the operand word from bit 0 up, eight for each of the
NB + 1 bytes. -/
def Obligations.FeedBytesOperandBitsInOrder : Prop :=
  ∀ (nb : BitVec 2) (a : Word), operandBits nb a = (List.range (8 * (nb.toNat + 1))).map a.getLsbD

/-! ### The host port (20_memory.md) and the registers (10_state.md) -/

/-- The host's next operation is performed at its offset from BASE; a read never changes S; a host with nothing to do
leaves the machine alone. An address below BASE is refused (the model's choice, notes/assumptions/8.md). -/
def Obligations.HostOperationsReachTheWindow : Prop :=
  ∀ (s : State) (rest : List HostOp) (size : Size) (off addr : Nat) (v : Word), nextAgent s = .host →
    (s.prog = .read size (s.cfg.base + off) :: rest → step s = .next (hostRead size off { turn s with prog := rest }))
    ∧ (s.prog = .write size (s.cfg.base + off) v :: rest →
        step s = .next (hostWrite size off v { turn s with prog := rest }))
    ∧ (s.prog = [] → step s = .next (turn s))
    ∧ (hostRead size off s).blk = s.blk
    ∧ (size = .b32 → off % 4 = 0 → off < 0x30000 → s.blk.busy = false →
        hostRead size off s = { s with log := .readData (readWord s.cfg s.blk off) :: s.log })
    ∧ (s.prog = .read size addr :: rest ∨ s.prog = .write size addr v :: rest → addr < s.cfg.base →
        step s = .refused (.outsideWindow addr))

/-- R48: a narrower or wider access, a misaligned one, or one at 0x30000 or above gets a bus error response and changes
nothing of S; so it sets no ERR, moves no phase and raises no interrupt. -/
def Obligations.BusErrorsChangeNothing : Prop :=
  ∀ (s : State) (size : Size) (off : Nat) (v : Word), size ≠ .b32 ∨ off % 4 ≠ 0 ∨ 0x30000 ≤ off →
    hostRead size off s = { s with log := .busError :: s.log }
    ∧ hostWrite size off v s = { s with log := .busError :: s.log }

/-- R46: a 32-bit write in the window has exactly one effect. -/
def Obligations.WritesHaveOneEffect : Prop :=
  ∀ (s : State) (off : Nat) (v : Word),
    ((off % 4 ≠ 0 ∨ 0x30000 ≤ off) → hostWrite .b32 off v s = { s with log := .busError :: s.log })
    ∧ (off = 0x0008 →
        hostWrite .b32 off v s = { s with blk := { s.blk with ie := v.getLsbD 0 }, log := .writeDone :: s.log })
    ∧ (off = 0x000C → hostWrite .b32 off v s =
        { s with
          blk := { s.blk with done := if v.getLsbD 1 then false else s.blk.done }, log := .writeDone :: s.log })
    ∧ (off = 0x0010 → hostWrite .b32 off v s =
        { s with blk := if s.blk.busy then overrunWrite v s.blk else accept v s.blk, log := .writeDone :: s.log })
    ∧ (off = 0x0014 → hostWrite .b32 off v s = { s with blk := { s.blk with arg := v }, log := .writeDone :: s.log })
    ∧ (off % 4 = 0 → off < 0x30000 → off ≠ 0x0008 → off ≠ 0x000C → off ≠ 0x0010 → off ≠ 0x0014 →
        hostWrite .b32 off v s = { s with log := .writeDone :: s.log })

/-- R70: a CMD write while idle latches the word and the operand, clears DONE and the overrun record, and sets BUSY; it
executes nothing. -/
def Obligations.AcceptanceLatchesCommandAndOperand : Prop :=
  ∀ (s : State) (w : Word), s.blk.busy = false →
    hostWrite .b32 0x0010 w s =
      { s with
        blk := { s.blk with
          latCmd := w, latArg := s.blk.arg, overrun := false, overrunOp := 0, done := false, busy := true }
        log := .writeDone :: s.log }

/-- R71: a CMD write while busy is dropped; the first one's OP field is recorded, a later one changes nothing. -/
def Obligations.OverrunRecordsFirstDroppedWord : Prop :=
  ∀ (s : State) (w : Word), s.blk.busy = true →
    (s.blk.overrun = false → hostWrite .b32 0x0010 w s =
      { s with
        blk := { s.blk with overrun := true, overrunOp := w.extractLsb' 0 8 }, log := .writeDone :: s.log })
    ∧ (s.blk.overrun = true → hostWrite .b32 0x0010 w s = { s with log := .writeDone :: s.log })

/-- R53: while a command runs, ID, CONFIG, CTRL, STATUS, CMD and ARG read exactly; STATUS shows BUSY = 1 and DONE = 0,
its other fields as before acceptance (no write, acceptance included, changes them); NSYM to MAXLEN and every SYM and
NODE word return a fresh free value. Two things in this are the model's (notes/assumptions/7.md): the counter the free
values are drawn by (DESIGN CHOICE), and that every offset from 0x10000 on is free while busy, the reserved words and
the entries past the capacity included, where R53 is taken before the 0 of R35, R38 and R40 (DEDUCED). -/
def Obligations.BusyReadsAreExactOrFree : Prop :=
  (∀ (s : State) (off : Nat), s.blk.busy = true → off % 4 = 0 → off < 0x30000 →
    (off ≤ 0x0014 → hostRead .b32 off s = { s with log := .readData (readWord s.cfg s.blk off) :: s.log })
    ∧ (0x0018 ≤ off ∧ off ≤ 0x0034 ∨ 0x10000 ≤ off → hostRead .b32 off s =
        { s with log := .readData (Config.freeWord s.draws) :: s.log, draws := s.draws + 1 }))
  ∧ (∀ s : State, Inv s → s.blk.busy = true →
      (readWord s.cfg s.blk 0x000C).getLsbD 0 = true ∧ (readWord s.cfg s.blk 0x000C).getLsbD 1 = false)
  ∧ ∀ (c : Config) (b : Block) (off : Nat) (v : Word),
      (readWord c (writeWord off v b) 0x000C).extractLsb' 2 30 = (readWord c b 0x000C).extractLsb' 2 30

/-- R22, R23: ID is a constant and CONFIG reports the parameters, running or not; both ignore writes; no step and no reset
changes the configuration. -/
def Obligations.IdentificationRegistersReportConfiguration : Prop :=
  (∀ s : State, portValue s 0x0000 = 0x48554631)
  ∧ (∀ s : State, s.cfg.wf = true →
      ((portValue s 0x0004).extractLsb' 0 12).toNat = s.cfg.nSym ∧ (portValue s 0x0004).extractLsb' 12 4 = 0
      ∧ ((portValue s 0x0004).extractLsb' 16 7).toNat = s.cfg.lMax ∧ (portValue s 0x0004).extractLsb' 23 9 = 0)
  ∧ (∀ (s : State) (v : Word), (hostWrite .b32 0x0000 v s).blk = s.blk ∧ (hostWrite .b32 0x0004 v s).blk = s.blk)
  ∧ ∀ s t : State, step s = .next t → t.cfg = s.cfg

/-- R25: the fields of STATUS, its reset value, and the one effect of a write to it. -/
def Obligations.StatusFieldsReadAsLaidOut : Prop :=
  (∀ s : State, ∀ w : Word, w = portValue s 0x000C →
    w.getLsbD 0 = s.blk.busy ∧ w.getLsbD 1 = s.blk.done ∧ (w.getLsbD 2 = true ↔ s.blk.phase = .error)
    ∧ w.getLsbD 3 = s.blk.treeValid ∧ w.extractLsb' 4 3 = s.blk.phase.code ∧ w.getLsbD 7 = s.blk.codesValid
    ∧ w.extractLsb' 8 4 = s.blk.errCode.code ∧ w.extractLsb' 12 4 = 0 ∧ w.extractLsb' 16 8 = s.blk.errOp
    ∧ w.extractLsb' 24 5 = s.blk.errPos ∧ w.extractLsb' 29 3 = 0)
  ∧ portValue State.reset 0x000C = 0x00000000
  ∧ ∀ (s : State) (v : Word), (hostWrite .b32 0x000C v s).blk =
      { s.blk with done := if v.getLsbD 1 then false else s.blk.done }

/-- R24, the read and write of ARG (R27) and the read of CMD (R26): CTRL holds IE alone, ARG all 32 bits; both read
exactly and take effect at once, also while a command runs; both are 0 at reset; CMD reads 0. -/
def Obligations.ControlAndOperandRegisters : Prop :=
  ∀ (s : State) (v : Word),
    (portValue s 0x0008).getLsbD 0 = s.blk.ie ∧ (portValue s 0x0008).extractLsb' 1 31 = 0
    ∧ (hostWrite .b32 0x0008 v s).blk = { s.blk with ie := v.getLsbD 0 }
    ∧ portValue s 0x0014 = s.blk.arg ∧ (hostWrite .b32 0x0014 v s).blk = { s.blk with arg := v }
    ∧ portValue State.reset 0x0008 = 0 ∧ portValue State.reset 0x0014 = 0 ∧ portValue s 0x0010 = 0

/-- R28 to R34: the result registers while no command runs, their gating by TREE_VALID and CODES_VALID, their reset
values, and that a write to them changes nothing. -/
def Obligations.ResultRegistersRead : Prop :=
  (∀ s : State, s.blk.busy = false →
    portValue s 0x0018 = BitVec.ofNat 32 s.blk.sym.length
    ∧ portValue s 0x001C = s.blk.nruns ∧ (Inv s → (portValue s 0x001C).toNat = countSum s.blk.sym)
    ∧ portValue s 0x0020 = s.blk.rleLen
    ∧ (portValue s 0x0024).getLsbD 0 = s.blk.rleBit ∧ (portValue s 0x0024).extractLsb' 1 31 = 0
    ∧ (s.blk.codesValid = true → portValue s 0x002C ++ portValue s 0x0028 = s.blk.total)
    ∧ (s.blk.codesValid = false → portValue s 0x002C = 0 ∧ portValue s 0x0028 = 0)
    ∧ (s.blk.treeValid = true → portValue s 0x0030 = s.blk.root.setWidth 32)
    ∧ (s.blk.treeValid = false → portValue s 0x0030 = 0)
    ∧ (s.blk.codesValid = true → portValue s 0x0034 = s.blk.maxlen.setWidth 32)
    ∧ (s.blk.codesValid = false → portValue s 0x0034 = 0))
  ∧ ∀ (s : State) (off : Nat) (v : Word), 0x0018 ≤ off → off ≤ 0x0034 → off % 4 = 0 →
      (hostWrite .b32 off v s).blk = s.blk ∧ portValue State.reset off = 0

/-- R38: the eight words of SYM slot i while no command runs; they are read-only; slots i ≥ N_SYM read 0. -/
def Obligations.SymWindowWords : Prop :=
  ∀ (s : State) (i k : Nat), i < 2048 → k < 8 →
    (∀ v : Word, (hostWrite .b32 (0x10000 + 32 * i + 4 * k) v s).blk = s.blk)
    ∧ (s.blk.busy = false →
      (s.blk.n ≤ i → portValue s (0x10000 + 32 * i + 4 * k) = 0)
      ∧ (∀ slot : Slot, s.blk.sym[i]? = some slot →
          portValue s (0x10000 + 32 * i) = slot.value ∧ portValue s (0x10000 + 32 * i + 0x04) = slot.count)
      ∧ (∀ c : Code, i < s.blk.n → s.blk.codesValid = true → s.blk.code[i]? = some c →
          portValue s (0x10000 + 32 * i + 0x08) = c.len.setWidth 32
          ∧ portValue s (0x10000 + 32 * i + 0x14) ++ portValue s (0x10000 + 32 * i + 0x10) = c.bits)
      ∧ (s.blk.codesValid = false → 2 ≤ k → portValue s (0x10000 + 32 * i + 4 * k) = 0)
      ∧ (k = 3 ∨ k = 6 ∨ k = 7 → portValue s (0x10000 + 32 * i + 4 * k) = 0)
      ∧ (Inv s → s.cfg.nSym ≤ i → portValue s (0x10000 + 32 * i + 4 * k) = 0))

/-- R40: the four words of NODE entry j while no command runs; they are read-only; entries j ≥ 2 N_SYM - 1 read 0. -/
def Obligations.NodeWindowWords : Prop :=
  ∀ (s : State) (j k : Nat), j < 4096 → k < 4 →
    (∀ v : Word, (hostWrite .b32 (0x20000 + 16 * j + 4 * k) v s).blk = s.blk)
    ∧ (s.blk.busy = false →
      (s.blk.treeValid = false ∨ 2 * s.blk.n < j + 2 → portValue s (0x20000 + 16 * j + 4 * k) = 0)
      ∧ (s.blk.treeValid = true → j + 2 ≤ 2 * s.blk.n →
          (∀ weight value : Word, s.blk.node[j]? = some (.leaf weight value) →
            portValue s (0x20000 + 16 * j) = 1 ∧ portValue s (0x20000 + 16 * j + 0x4) = weight
            ∧ portValue s (0x20000 + 16 * j + 0x8) = value ∧ portValue s (0x20000 + 16 * j + 0xC) = 0)
          ∧ (∀ weight left right : Word, s.blk.node[j]? = some (.internal weight left right) →
            portValue s (0x20000 + 16 * j) = 2 ∧ portValue s (0x20000 + 16 * j + 0x4) = weight
            ∧ portValue s (0x20000 + 16 * j + 0x8) = left ∧ portValue s (0x20000 + 16 * j + 0xC) = right))
      ∧ (Inv s → 2 * s.cfg.nSym ≤ j + 1 → portValue s (0x20000 + 16 * j + 4 * k) = 0))

/-- The reserved registers of R35 (0x0038 to 0xFFFC) read 0, running or not, ignore writes, and give no bus error. -/
def Obligations.ReservedOffsetsReadZero : Prop :=
  ∀ (s : State) (off : Nat) (v : Word), 0x0038 ≤ off → off ≤ 0xFFFC → off % 4 = 0 →
    hostRead .b32 off s = { s with log := .readData 0 :: s.log }
    ∧ hostWrite .b32 off v s = { s with log := .writeDone :: s.log }

/-- R126, and the rise of IRQ in R125: the line is high exactly when IE and DONE are; clearing DONE, clearing IE and
accepting a command lower it, no other access does; a completion with IE = 1 raises it, and so does setting IE while
DONE = 1. -/
def Obligations.InterruptLineFollowsDoneAndEnable : Prop :=
  (∀ b : Block, irq b = true ↔ b.ie = true ∧ b.done = true)
  ∧ (∀ (s : State) (v : Word),
      (v.getLsbD 1 = true → irq (hostWrite .b32 0x000C v s).blk = false)
      ∧ (v.getLsbD 0 = false → irq (hostWrite .b32 0x0008 v s).blk = false)
      ∧ (s.blk.busy = false → irq (hostWrite .b32 0x0010 v s).blk = false)
      ∧ (v.getLsbD 0 = true → s.blk.done = true → irq (hostWrite .b32 0x0008 v s).blk = true))
  ∧ (∀ (s : State) (size : Size) (off : Nat) (v : Word), irq s.blk = true →
      irq (hostWrite size off v s).blk = false →
      size = .b32 ∧ (off = 0x000C ∧ v.getLsbD 1 = true ∨ off = 0x0008 ∧ v.getLsbD 0 = false ∨
        off = 0x0010 ∧ s.blk.busy = false))
  ∧ ∀ s t : State, complete s = .next t → irq t.blk = s.blk.ie

/-- R134: reset, at any time, puts every component of S to its reset value in one step and abandons an accepted command;
IRQ is low after it. The contents of the unoccupied tables are left open. -/
def Obligations.ResetRestoresEveryComponent : Prop :=
  ∀ s : State, nextAgent s = .platform →
    ∃ (nodes : List Node) (codes : List Code),
      step s = .next { turn s with
        blk := {
          phase := .accum, busy := false, done := false, ie := false, arg := 0, latCmd := 0, latArg := 0
          overrun := false, overrunOp := 0, errCode := .none, errOp := 0, errPos := 0
          rleBit := false, rleLen := 0, sym := [], nruns := 0
          treeValid := false, node := nodes, root := 0, codesValid := false, code := codes, total := 0, maxlen := 0 } }
      ∧ irq Block.reset = false

/-! ### The command cycle and the phase machine (40_command_cycle.md, 60_exceptions.md) -/

/-- The engine's turn: an idle engine does nothing; otherwise the step is the completion of the accepted word. For a word
that decodes, that is `exec` of it and then the end of the handshake, and it is never refused; an illegal word ends in
ILLEGAL_CMD, or in ERROR has no effect but the handshake. -/
def Obligations.StepRunsAcceptedCommand : Prop :=
  ∀ s : State, nextAgent s = .engine →
    (s.blk.busy = false → step s = .next (turn s))
    ∧ (s.blk.busy = true → step s = complete (turn s))
    ∧ (∀ e : Illegal, s.blk.busy = true → decode s.blk.latCmd = .error e →
        (s.blk.phase ≠ .error →
          step s = .next (closed (failed .illegalCmd (s.blk.latCmd.extractLsb' 0 8) 0 (turn s))))
        ∧ (s.blk.phase = .error → step s = .next (closed (turn s))))
    ∧ ∀ i : Instr, s.blk.busy = true → decode s.blk.latCmd = .ok i →
        (∀ t : State, exec i (turn s) = .next t → step s = .next (t.withBlk (finish t.blk)))
        ∧ (∀ f : Fault, exec i (turn s) = .fault f → step s = .fault f)
        ∧ ∀ r : Refusal, step s ≠ .refused r

/-- R52 (which the spec marks as derived): S changes in three ways only: by a 32-bit host write in the window, by the
completion of the accepted command, and by reset. -/
def Obligations.StateChangesInThreeWays : Prop :=
  ∀ s t : State, step s = .next t → t.blk ≠ s.blk →
    (nextAgent s = .host ∧ ∃ (off : Nat) (v : Word) (rest : List HostOp),
      s.prog = .write .b32 (s.cfg.base + off) v :: rest ∧ off % 4 = 0 ∧ off < 0x30000
        ∧ t.blk = writeWord off v s.blk)
    ∨ (nextAgent s = .engine ∧ s.blk.busy = true ∧ complete (turn s) = .next t)
    ∨ (nextAgent s = .platform ∧ t.blk = Block.reset)

/-- R72, R118: after the command's own effect, a recorded overrun becomes CMD_OVERRUN with the first dropped word's opcode
unless the block is in ERROR; then the handshake closes. -/
def Obligations.CompletionClosesTheHandshake : Prop :=
  ∀ s t : State, execute s = .next t →
    (t.blk.overrun = true → t.blk.phase ≠ .error →
      complete s = .next (closed (failed .cmdOverrun t.blk.overrunOp 0 t)))
    ∧ (t.blk.overrun = false ∨ t.blk.phase = .error → complete s = .next (closed t))
    ∧ t.blk.overrun = s.blk.overrun ∧ t.blk.overrunOp = s.blk.overrunOp

/-- R111: a legal command outside its phases, outside ERROR, raises SEQUENCE and does nothing else. -/
def Obligations.OutOfPhaseCommandsRaiseSequence : Prop :=
  ∀ (s : State) (nb : BitVec 2), s.blk.phase ≠ .error →
    (s.blk.phase ≠ .accum →
      exec (.feedBytes nb) s = .next (failed .sequence 0x02 0 s)
      ∧ exec .feedRun s = .next (failed .sequence 0x03 0 s)
      ∧ exec .flush s = .next (failed .sequence 0x04 0 s))
    ∧ (s.blk.phase ≠ .frozen → exec .buildTree s = .next (failed .sequence 0x05 0 s))
    ∧ (s.blk.phase ≠ .tree → exec .genCodes s = .next (failed .sequence 0x06 0 s))

/-- R77: in ERROR every command but CLEAR, and every illegal word, completes with no effect beyond the handshake. -/
def Obligations.ErrorPhaseIsInert : Prop :=
  ∀ s : State, s.blk.phase = .error →
    (∀ i : Instr, i ≠ .clear → exec i s = .next s)
    ∧ (decode s.blk.latCmd ≠ .ok .clear → execute s = .next s ∧ complete s = .next (closed s))

/-- R76: the phases each command runs in and leaves, and that nothing else moves the phase. -/
def Obligations.PhaseMovesOnlyAsTheTable : Prop :=
  (∀ (i : Instr) (s t : State), exec i s = .next t → s.blk.phase ≠ .error → t.blk.phase ≠ .error →
    match i with
    | .nop => t.blk.phase = s.blk.phase
    | .clear => t.blk.phase = .accum
    | .feedBytes _ => s.blk.phase = .accum ∧ t.blk.phase = .accum
    | .feedRun => s.blk.phase = .accum ∧ t.blk.phase = .accum
    | .flush => s.blk.phase = .accum ∧ t.blk.phase = .frozen
    | .buildTree => s.blk.phase = .frozen ∧ t.blk.phase = .tree
    | .genCodes => s.blk.phase = .tree ∧ t.blk.phase = .coded)
  ∧ (∀ s t : State, exec .clear s = .next t → t.blk.phase = .accum)
  ∧ ∀ s t : State, step s = .next t → t.blk.phase ≠ s.blk.phase →
      (nextAgent s = .platform ∧ t.blk.phase = .accum)
      ∨ (nextAgent s = .engine ∧ s.blk.busy = true ∧
          (t.blk.phase = .error
          ∨ (decode s.blk.latCmd = .ok .clear ∧ t.blk.phase = .accum)
          ∨ (decode s.blk.latCmd = .ok .flush ∧ s.blk.phase = .accum ∧ t.blk.phase = .frozen)
          ∨ (decode s.blk.latCmd = .ok .buildTree ∧ s.blk.phase = .frozen ∧ t.blk.phase = .tree)
          ∨ (decode s.blk.latCmd = .ok .genCodes ∧ s.blk.phase = .tree ∧ t.blk.phase = .coded)))

/-- R121: a command that raises an error changes the phase and the error record and nothing else of the machine;
CMD_OVERRUN is recorded over the effects the command has committed. -/
def Obligations.FailedCommandsCommitNothing : Prop :=
  ∀ s t : State, execute s = .next t → s.blk.phase ≠ .error →
    (t.blk.phase = .error →
      ∃ (code : ErrCode) (op : Byte) (pos : BitVec 5),
        code ≠ .none ∧ code ≠ .cmdOverrun ∧ t = failed code op pos s ∧ complete s = .next (closed t))
    ∧ (t.blk.phase ≠ .error → s.blk.overrun = true →
        complete s = .next (closed (failed .cmdOverrun s.blk.overrunOp 0 t)))

/-- R124: the block leaves ERROR only by CLEAR or by reset, and both discard the pipeline's data. -/
def Obligations.ErrorLeftOnlyByClearOrReset : Prop :=
  ∀ s t : State, step s = .next t → s.blk.phase = .error → t.blk.phase ≠ .error →
    (nextAgent s = .platform ∨
      (nextAgent s = .engine ∧ s.blk.busy = true ∧ decode s.blk.latCmd = .ok .clear))
    ∧ t.blk.phase = .accum ∧ t.blk.sym = [] ∧ t.blk.nruns = 0 ∧ t.blk.rleBit = false ∧ t.blk.rleLen = 0
    ∧ t.blk.treeValid = false ∧ t.blk.codesValid = false ∧ t.blk.errCode = .none ∧ t.blk.errOp = 0 ∧ t.blk.errPos = 0

/-- R123: while the block is in ERROR its error record names the first failure: no step but a CLEAR's completion changes
it without leaving ERROR. -/
def Obligations.FirstErrorIsKept : Prop :=
  ∀ s t : State, step s = .next t → s.blk.phase = .error → t.blk.phase = .error →
    (t.blk.errCode = s.blk.errCode ∧ t.blk.errOp = s.blk.errOp ∧ t.blk.errPos = s.blk.errPos)
    ∨ (nextAgent s = .engine ∧ s.blk.busy = true ∧ decode s.blk.latCmd = .ok .clear ∧ s.blk.overrun = true
        ∧ t.blk.errCode = .cmdOverrun ∧ t.blk.errOp = s.blk.overrunOp ∧ t.blk.errPos = 0)

/-- The sentences of R20 (which the spec marks as derived): what sets and what clears TREE_VALID and CODES_VALID, that an
error leaves both, and which phases they tell. -/
def Obligations.ValidFlagsSetAndCleared : Prop :=
  (∀ s t : State, step s = .next t →
    (t.blk.treeValid ≠ s.blk.treeValid →
      (t.blk.treeValid = false ∧
        (nextAgent s = .platform ∨ nextAgent s = .engine ∧ s.blk.busy = true ∧ decode s.blk.latCmd = .ok .clear))
      ∨ (t.blk.treeValid = true ∧ nextAgent s = .engine ∧ s.blk.busy = true ∧
          decode s.blk.latCmd = .ok .buildTree ∧ s.blk.phase = .frozen))
    ∧ (t.blk.codesValid ≠ s.blk.codesValid →
      (t.blk.codesValid = false ∧
        (nextAgent s = .platform ∨ nextAgent s = .engine ∧ s.blk.busy = true ∧ decode s.blk.latCmd = .ok .clear))
      ∨ (t.blk.codesValid = true ∧ nextAgent s = .engine ∧ s.blk.busy = true ∧
          decode s.blk.latCmd = .ok .genCodes ∧ s.blk.phase = .tree)))
  ∧ (∀ (i : Instr) (s t : State), exec i s = .next t → i ≠ .clear → t.blk.phase = .error →
      t.blk.treeValid = s.blk.treeValid ∧ t.blk.codesValid = s.blk.codesValid)
  ∧ (∀ s t : State, exec .buildTree s = .next t → t.blk.phase = .tree → t.blk.treeValid = true)
  ∧ (∀ s t : State, exec .genCodes s = .next t → t.blk.phase = .coded → t.blk.codesValid = true)
  ∧ ∀ s : State, Inv s → s.blk.phase ≠ .error →
      (s.blk.treeValid = true ↔ s.blk.phase = .tree ∨ s.blk.phase = .coded)
      ∧ (s.blk.codesValid = true ↔ s.blk.phase = .coded)

/-- R141: a command uses the operand latched at acceptance: writing ARG, or CTRL, while it runs commutes with its
completion. -/
def Obligations.OperandLatchedAtAcceptance : Prop :=
  ∀ (s t : State) (v : Word) (e : Bool), complete s = .next t →
    complete (s.withBlk { s.blk with arg := v, ie := e }) = .next (t.withBlk { t.blk with arg := v, ie := e })

/-- R73: an accepted command completes, or a reset abandons it, before the schedule and one more step are over. That the
schedule is finite and the engine moves first after it is the model's choice (notes/assumptions/4.md). -/
def Obligations.AcceptedCommandsComplete : Prop :=
  ∀ s : State, Inv s → Routed s → s.blk.busy = true →
    ∃ k t, k ≤ s.sched.length + 1 ∧ Host.Core.run Sys2Proof.core k s = .next t ∧ t.blk.busy = false

/-- R74 (which the spec marks as derived): what a completion does to S depends on S and the configuration alone: not on
the host's program, the schedule, the responses or the free values drawn. -/
def Obligations.CompletionDependsOnBlockOnly : Prop :=
  ∀ s s' t : State, s.blk = s'.blk → s.cfg = s'.cfg → complete s = .next t →
    ∃ t', complete s' = .next t' ∧ t'.blk = t.blk

/-! ### Control commands (44_control.md) -/

/-- R106: NOP changes nothing in any phase; only the handshake happens, or CMD_OVERRUN where a word was dropped. -/
def Obligations.NopChangesNothing : Prop :=
  (∀ s : State, exec .nop s = .next s)
  ∧ ∀ s : State, s.blk.latCmd = 0x00000000 →
      (s.blk.overrun = false ∨ s.blk.phase = .error → complete s = .next (closed s))
      ∧ (s.blk.overrun = true → s.blk.phase ≠ .error →
          complete s = .next (closed (failed .cmdOverrun s.blk.overrunOp 0 s)))

/-- R107: CLEAR, in every phase, gives the pipeline's start state and keeps IE, ARG, the latches and the overrun record;
the table windows read 0 after it. An overrun during CLEAR is recorded after it. What the released tables hold is left
open. -/
def Obligations.ClearRestoresStartState : Prop :=
  ∀ s : State, ∃ (nodes : List Node) (codes : List Code) (t : State),
    exec .clear s = .next t
    ∧ t = { s with
        blk := { s.blk with
          phase := .accum, rleBit := false, rleLen := 0, sym := [], nruns := 0
          treeValid := false, codesValid := false, root := 0, total := 0, maxlen := 0
          errCode := .none, errOp := 0, errPos := 0, node := nodes, code := codes } }
    ∧ (∀ off, 0x10000 ≤ off → off < 0x30000 → readWord t.cfg t.blk off = 0)
    ∧ (s.blk.latCmd = 0x00000001 →
        (s.blk.overrun = false → complete s = .next (closed t))
        ∧ (s.blk.overrun = true → complete s = .next (closed (failed .cmdOverrun s.blk.overrunOp 0 t))))

/-! ### The analyzer (41_analyzer.md) -/

/-- R84 with R80 to R83: FEED_BYTES completes when no length, no run count and no table capacity is exceeded, and then
counts exactly the runs its bits close, leaving the last run open. -/
def Obligations.FeedBytesCountsClosedRuns : Prop :=
  ∀ (s : State) (nb : BitVec 2) (bits : List Bool) (runs : List Nat) (last : Bool × Nat),
    TableOk s.cfg s.blk → s.blk.phase = .accum →
    bits = operandBits nb s.blk.latArg →
    runs = closedRuns s.blk.rleBit s.blk.rleLen.toNat bits →
    last = openRun s.blk.rleBit s.blk.rleLen.toNat bits →
    (∀ r ∈ runs, r < 2 ^ 32) → last.2 < 2 ^ 32 → s.blk.nruns.toNat + runs.length < 2 ^ 32 →
    (s.blk.sym.map (fun t => t.value.toNat) ++ runs).toFinset.card ≤ s.cfg.nSym →
    ∃ (sym' : List Slot) (nruns' : Word),
      exec (.feedBytes nb) s = .next { s with
        blk := { s.blk with
          rleBit := last.1, rleLen := BitVec.ofNat 32 last.2, sym := sym', nruns := nruns' } }
      ∧ nruns'.toNat = s.blk.nruns.toNat + runs.length
      ∧ Ascending sym' ∧ (∀ u ∈ sym', u.count ≠ 0) ∧ countSum sym' = nruns'.toNat
      ∧ ∀ v : Nat, countIn sym' v = countIn s.blk.sym v + runs.count v

/-- R114, and R115 and R116 for FEED_BYTES: the command fails at the first bit that triggers an error, with that bit's
position, and commits nothing, not even the bits before it. -/
def Obligations.FeedBytesRaisesAtFirstBadBit : Prop :=
  ∀ (s : State) (nb : BitVec 2) (pre post : List Bool) (bit : Bool) (t : Block),
    s.blk.phase = .accum → operandBits nb s.blk.latArg = pre ++ bit :: post →
    feedBits s.cfg 0x02 pre 0 s.blk = .ok t →
    (bit = t.rleBit → t.rleLen = 0xFFFFFFFF →
      exec (.feedBytes nb) s = .next (failed .runOverflow 0x02 (BitVec.ofNat 5 pre.length) s))
    ∧ (bit ≠ t.rleBit → t.rleLen ≠ 0 → t.nruns = 0xFFFFFFFF →
      exec (.feedBytes nb) s = .next (failed .countOverflow 0x02 (BitVec.ofNat 5 pre.length) s))
    ∧ (bit ≠ t.rleBit → t.rleLen ≠ 0 → t.nruns ≠ 0xFFFFFFFF → t.rleLen ∉ t.sym.map Slot.value → s.cfg.nSym ≤ t.n →
      exec (.feedBytes nb) s = .next (failed .tableFull 0x02 (BitVec.ofNat 5 pre.length) s))

/-- R85: FEED_RUN counts its operand once, keeps the table in order, and touches nothing else. -/
def Obligations.FeedRunCountsOneRun : Prop :=
  ∀ s : State, TableOk s.cfg s.blk → s.blk.phase = .accum → s.blk.latArg ≠ 0 → s.blk.nruns ≠ 0xFFFFFFFF →
    (s.blk.latArg ∈ s.blk.sym.map Slot.value ∨ s.blk.n < s.cfg.nSym) →
    ∃ sym' : List Slot,
      exec .feedRun s = .next { s with blk := { s.blk with sym := sym', nruns := s.blk.nruns + 1 } }
      ∧ Ascending sym' ∧ (∀ u ∈ sym', u.count ≠ 0)
      ∧ sym'.length = (if s.blk.latArg ∈ s.blk.sym.map Slot.value then s.blk.n else s.blk.n + 1)
      ∧ ∀ v : Nat, countIn sym' v = countIn s.blk.sym v + if s.blk.latArg.toNat = v then 1 else 0

/-- R86: FLUSH emits the open run if it has a length, sets the length to 0, keeps RLE_BIT, and closes the input. -/
def Obligations.FlushClosesInput : Prop :=
  ∀ s : State, TableOk s.cfg s.blk → s.blk.phase = .accum →
    (s.blk.rleLen = 0 → exec .flush s = .next { s with blk := { s.blk with phase := .frozen } })
    ∧ (s.blk.rleLen ≠ 0 → s.blk.nruns ≠ 0xFFFFFFFF →
        (s.blk.rleLen ∈ s.blk.sym.map Slot.value ∨ s.blk.n < s.cfg.nSym) →
        ∃ sym' : List Slot,
          exec .flush s = .next { s with
            blk := { s.blk with sym := sym', nruns := s.blk.nruns + 1, rleLen := 0, phase := .frozen } }
          ∧ Ascending sym' ∧ (∀ u ∈ sym', u.count ≠ 0)
          ∧ ∀ v : Nat, countIn sym' v = countIn s.blk.sym v + if s.blk.rleLen.toNat = v then 1 else 0)

/-- R115 and R116 for FEED_RUN and FLUSH: COUNT_OVERFLOW comes before TABLE_FULL, and neither commits anything. -/
def Obligations.CountingRaisesOverflowThenTableFull : Prop :=
  ∀ s : State, s.blk.phase = .accum →
    (s.blk.latArg ≠ 0 →
      (s.blk.nruns = 0xFFFFFFFF → exec .feedRun s = .next (failed .countOverflow 0x03 0 s))
      ∧ (s.blk.nruns ≠ 0xFFFFFFFF → s.blk.latArg ∉ s.blk.sym.map Slot.value → s.cfg.nSym ≤ s.blk.n →
          exec .feedRun s = .next (failed .tableFull 0x03 0 s)))
    ∧ (s.blk.rleLen ≠ 0 →
      (s.blk.nruns = 0xFFFFFFFF → exec .flush s = .next (failed .countOverflow 0x04 0 s))
      ∧ (s.blk.nruns ≠ 0xFFFFFFFF → s.blk.rleLen ∉ s.blk.sym.map Slot.value → s.cfg.nSym ≤ s.blk.n →
          exec .flush s = .next (failed .tableFull 0x04 0 s)))

/-- R87 (which the spec marks as derived): after a successful FLUSH the table counts the maximal runs of the fed bits,
once each, and the FEED_RUN operands. -/
def Obligations.FlushedTableCountsMaximalRuns : Prop :=
  ∀ (s u : State) (input : List Input), Fresh s → exec .flush (feedAll s input) = .next u →
    u.blk.phase = .frozen →
    ∀ v : Nat, countIn u.blk.sym v = (maximalRuns (inputBits input)).count v + (inputRuns input).count v

/-- R88 (which the spec marks as derived): the table depends on the bit sequence and the multiset of FEED_RUN operands
alone, however the bytes are split among commands and wherever the FEED_RUN commands fall. -/
def Obligations.TableIndependentOfSplit : Prop :=
  ∀ (s u u' : State) (input input' : List Input), Fresh s →
    inputBits input = inputBits input' → (inputRuns input).Perm (inputRuns input') →
    ((feedAll s input).blk.phase = .accum → (feedAll s input').blk.phase = .accum →
      (feedAll s input).blk.sym = (feedAll s input').blk.sym
      ∧ (feedAll s input).blk.nruns = (feedAll s input').blk.nruns)
    ∧ (exec .flush (feedAll s input) = .next u → exec .flush (feedAll s input') = .next u' →
      u.blk.phase = .frozen → u'.blk.phase = .frozen → u.blk.sym = u'.blk.sym ∧ u.blk.nruns = u'.blk.nruns)

/-- R89 (which the spec marks as derived): NRUNS is the sum of the counts; with FEED_BYTES input only, the weighted sum
and the open run account for every bit (eight for each byte), and after FLUSH NRUNS is one more than the number of bit
changes. -/
def Obligations.RunSumsAccountForEveryBit : Prop :=
  ∀ (s u : State) (input : List Input), Fresh s →
    ((feedAll s input).blk.phase = .accum → (feedAll s input).blk.nruns.toNat = countSum (feedAll s input).blk.sym)
    ∧ (exec .flush (feedAll s input) = .next u → u.blk.phase = .frozen → u.blk.nruns.toNat = countSum u.blk.sym)
    ∧ (inputBits input).length = 8 * (input.map (fun i => match i with | .bytes nb _ => nb.toNat + 1 | .run _ => 0)).sum
    ∧ (inputRuns input = [] →
      ((feedAll s input).blk.phase = .accum →
        weightedSum (feedAll s input).blk.sym + (feedAll s input).blk.rleLen.toNat = (inputBits input).length)
      ∧ (exec .flush (feedAll s input) = .next u → u.blk.phase = .frozen →
        weightedSum u.blk.sym = (inputBits input).length
        ∧ (inputBits input ≠ [] → u.blk.nruns.toNat = 1 + changes (inputBits input))))

/-- R43 item 4 (which the spec marks as derived): after CLEAR or reset the open run has length 0 exactly until the first
bit is fed, and again after FLUSH. -/
def Obligations.OpenRunIsEmptyOnlyBeforeInput : Prop :=
  ∀ (s u : State) (input : List Input), Fresh s →
    ((feedAll s input).blk.phase = .accum → ((feedAll s input).blk.rleLen = 0 ↔ inputBits input = []))
    ∧ (exec .flush (feedAll s input) = .next u → u.blk.phase = .frozen → u.blk.rleLen = 0)

/-! ### The tree builder (42_tree_builder.md) -/

/-- R94 with R90 to R93: BUILD_TREE on a table that is not empty leaves the Huffman tree in the arena: the leaves in slot
order, each merge the two lowest of its pool in the order of (weight, id), the first on the left. -/
def Obligations.BuildTreeBuildsHuffmanTree : Prop :=
  ∀ s : State, Inv s → s.blk.phase = .frozen → 1 ≤ s.blk.n →
    ∃ (arena : List Node) (root : BitVec 12),
      exec .buildTree s = .next { s with
        blk := { s.blk with node := arena, root := root, treeValid := true, phase := .tree } }
      ∧ TreeOk s.blk.sym arena root.toNat s.blk.nruns.toNat

/-- R112, R113: BUILD_TREE on an empty table is INVALID_INPUT, FEED_RUN of 0 is BAD_RUN, and neither commits anything. -/
def Obligations.EmptyInputsAreRejected : Prop :=
  ∀ s : State,
    (s.blk.phase = .frozen → s.blk.n = 0 → exec .buildTree s = .next (failed .invalidInput 0x05 0 s))
    ∧ (s.blk.phase = .accum → s.blk.latArg = 0 → exec .feedRun s = .next (failed .badRun 0x03 0 s))

/-- R95: with one slot the tree is one leaf at id 0; ROOT reads 0, NODE_KIND(0) reads 1, and no node from id 1 on is
valid. -/
def Obligations.SingleLeafTree : Prop :=
  ∀ (s : State) (slot : Slot), s.blk.phase = .frozen → s.blk.sym = [slot] →
    ∃ t : State, exec .buildTree s = .next t ∧ t.blk.node = [.leaf slot.count slot.value] ∧ t.blk.root = 0
      ∧ readWord t.cfg t.blk 0x30 = 0 ∧ readWord t.cfg t.blk 0x20000 = 1
      ∧ ∀ j, 1 ≤ j → j < 4096 → readWord t.cfg t.blk (0x20000 + 16 * j) = 0

/-- R96 (which the spec marks as derived), item by item: the laws of a tree that BUILD_TREE has built. -/
def Obligations.BuiltTreeLaws : Prop :=
  ∀ s t : State, Inv s → exec .buildTree s = .next t → t.blk.phase = .tree →
    (t.blk.node.countP (fun x => match x with | .leaf _ _ => true | .internal _ _ _ => false) = t.blk.n
      ∧ t.blk.node.countP (fun x => match x with | .leaf _ _ => false | .internal _ _ _ => true) = t.blk.n - 1)
    ∧ (t.blk.root.toNat = 2 * t.blk.n - 2
      ∧ (∀ j, j < 2 * t.blk.n - 2 → (childIds t.blk.node).count j = 1)
      ∧ (∀ j, 2 * t.blk.n - 2 ≤ j → (childIds t.blk.node).count j = 0))
    ∧ (∀ (j : Nat) (w l r : Word), t.blk.node[j]? = some (.internal w l r) →
        l.toNat < j ∧ r.toNat < j
        ∧ w.toNat = (weightAt t.blk.node l.toNat).toNat + (weightAt t.blk.node r.toNat).toNat
        ∧ (weightAt t.blk.node l.toNat).toNat ≤ (weightAt t.blk.node r.toNat).toNat)
    ∧ weightAt t.blk.node t.blk.root.toNat = t.blk.nruns
    ∧ (∀ j, (weightAt t.blk.node j).toNat ≤ t.blk.nruns.toNat)
    ∧ (∀ i j, t.blk.n ≤ i → i ≤ j → j < t.blk.node.length →
        (weightAt t.blk.node i).toNat ≤ (weightAt t.blk.node j).toNat)
    ∧ ∀ s' t' : State, Inv s' → s'.blk.sym = s.blk.sym → exec .buildTree s' = .next t' → t'.blk.phase = .tree →
        t'.blk.node = t.blk.node ∧ t'.blk.root = t.blk.root

/-! ### The code generator (43_code_generator.md) -/

/-- R101 with R97, R98 and R100: GEN_CODES on a tree no leaf of which lies deeper than L_MAX gives every leaf the code of
its path (one bit 0 for a lone leaf), TOTAL and MAXLEN, and changes nothing else: the tree stays. -/
def Obligations.GenCodesAssignsPaths : Prop :=
  ∀ s : State, Inv s → s.blk.phase = .tree → (∀ j path, LeafPath s.blk j path → path.length ≤ s.cfg.lMax) →
    ∃ (codes : List Code) (total : BitVec 64) (maxlen : BitVec 7),
      exec .genCodes s = .next { s with
        blk := { s.blk with code := codes, total := total, maxlen := maxlen, codesValid := true, phase := .coded } }
      ∧ codes.length = s.blk.n
      ∧ (s.blk.n = 1 → codes = [⟨1, 0⟩])
      ∧ (2 ≤ s.blk.n → ∀ j path, LeafPath s.blk j path → codes[j]? = some (codeOf path))
      ∧ (∀ j, j < s.blk.n → ∃ path, LeafPath s.blk j path)
      ∧ total.toNat = totalOf codes s.blk.sym
      ∧ (∀ c ∈ codes, c.len.toNat ≤ maxlen.toNat) ∧ ∃ c ∈ codes, c.len = maxlen

/-- R117: GEN_CODES with a leaf deeper than L_MAX is CODE_OVERFLOW and commits nothing; it cannot happen when
L_MAX ≥ n - 1. -/
def Obligations.GenCodesRaisesCodeOverflow : Prop :=
  ∀ s : State, Inv s → s.blk.phase = .tree →
    ((∃ j path, LeafPath s.blk j path ∧ s.cfg.lMax < path.length) →
      exec .genCodes s = .next (failed .codeOverflow 0x06 0 s))
    ∧ (s.blk.n - 1 ≤ s.cfg.lMax → ∃ t : State, exec .genCodes s = .next t ∧ t.blk.phase = .coded)

/-- R99, R98: code bit k, k = 0 at the root, is stored at bit k, 0 for left and 1 for right, and the bits from the length
on are 0. -/
def Obligations.StoredCodesAreLsbFirst : Prop :=
  ∀ s : State, Inv s → s.blk.codesValid = true →
    (s.blk.n = 1 → s.blk.code = [⟨1, 0⟩])
    ∧ (2 ≤ s.blk.n → ∀ j path, LeafPath s.blk j path →
        ∃ c, s.blk.code[j]? = some c ∧ c.len.toNat = path.length ∧ ∀ k, c.bits.getLsbD k = path.getD k false)

/-- R100 (which the spec marks as derived): TOTAL is the sum of length times count and stays below 2^38, and MAXLEN is
the largest length. -/
def Obligations.TotalIsWeightedLengthSum : Prop :=
  ∀ s : State, Inv s → s.blk.codesValid = true →
    s.blk.total.toNat = (List.zipWith (fun c u => c.len.toNat * u.count.toNat) s.blk.code s.blk.sym).sum
    ∧ s.blk.total.toNat ≤ s.cfg.lMax * s.blk.nruns.toNat ∧ s.blk.total.toNat < 2 ^ 38
    ∧ (∀ c ∈ s.blk.code, c.len.toNat ≤ s.blk.maxlen.toNat) ∧ ∃ c ∈ s.blk.code, c.len = s.blk.maxlen

/-- R102 (which the spec marks as derived): no code of the table is a prefix of another. -/
def Obligations.CodesArePrefixFree : Prop :=
  ∀ s : State, Inv s → s.blk.codesValid = true → PrefixFree (s.blk.code.map codePath)

/-- R103 (which the spec marks as general knowledge): a value counted strictly more often never has a strictly longer
code. -/
def Obligations.CodeLengthsAreMonotone : Prop :=
  ∀ (s : State) (i k : Nat) (t u : Slot) (c d : Code), Inv s → s.blk.codesValid = true →
    s.blk.sym[i]? = some t → s.blk.sym[k]? = some u → s.blk.code[i]? = some c → s.blk.code[k]? = some d →
    u.count < t.count → c.len ≤ d.len

/-- R104: for n ≥ 2, TOTAL is the least total of any prefix-free code for the table; for n = 1 it is the single count. -/
def Obligations.TotalIsMinimal : Prop :=
  ∀ s : State, Inv s → s.blk.codesValid = true →
    (2 ≤ s.blk.n → ∀ words : List (List Bool), words.length = s.blk.n → PrefixFree words →
      s.blk.total.toNat ≤ (List.zipWith (fun w u => w.length * u.count.toNat) words s.blk.sym).sum)
    ∧ (s.blk.n = 1 → s.blk.total.toNat = s.blk.nruns.toNat)

/-- R105 (which the spec marks as derived): for n ≥ 2 the code lengths fill the tree (Kraft's sum is 1) and lie between
1 and n - 1; for n = 1 the one length is 1; MAXLEN is at most max(1, n - 1). -/
def Obligations.CodeLengthsFillTheTree : Prop :=
  ∀ s : State, Inv s → s.blk.codesValid = true →
    (2 ≤ s.blk.n → (s.blk.code.map (fun c => ((1 : ℚ) / 2) ^ c.len.toNat)).sum = 1
      ∧ ∀ c ∈ s.blk.code, 1 ≤ c.len.toNat ∧ c.len.toNat ≤ s.blk.n - 1)
    ∧ (s.blk.n = 1 → s.blk.code.map (fun c => c.len.toNat) = [1])
    ∧ s.blk.maxlen.toNat ≤ max 1 (s.blk.n - 1)

/-! ### The whole machine -/

/-- R43 (which the spec marks as derived), with what it rests on: every step from a state that meets the invariant leads
to one that meets it. -/
def Obligations.StepKeepsInvariant : Prop := ∀ s t : State, Inv s → step s = .next t → Inv t

/-- R44: the reset state meets the invariant, whatever program and schedule are placed beside it. -/
def Obligations.ResetMeetsInvariant : Prop :=
  ∀ (prog : List HostOp) (sched : List Agent), Inv { State.reset with prog := prog, sched := sched }

/-- No state that meets the invariant stops: no step faults, and a step is refused only for a host access below BASE
(93_implementation_defined.md: no behaviour is stuck). -/
def Obligations.InvariantStatesNeverStop : Prop :=
  ∀ s : State, Inv s → (∀ f, step s ≠ .fault f) ∧ (Routed s → ∃ t, step s = .next t ∧ Routed t)

/-- R67, R68: what the lines of a host program stand for. `wait` polls until BUSY = 0 and the wait for the interrupt
(R139) until IRQ is high; CHECK_NONEMPTY, read while idle, stops the program exactly on an empty table. FEED splits its
bytes, in order, into groups of 4, only the last of which may be shorter, each passed as one FEED_BYTES line whose
operand bytes are the group. A command line is its CMD word and `wait`, after an ARG write where it has an operand. That
the waits and CHECK_NONEMPTY are steps of the host is the model's choice (notes/assumptions/12.md). -/
def Obligations.HostProgramLines : Prop :=
  (∀ (s : State) (rest : List HostOp), nextAgent s = .host →
    (s.prog = .wait :: rest → ∃ t, step s = .next t ∧ t.blk = s.blk ∧
      t.prog = if s.blk.busy then .wait :: rest else rest)
    ∧ (s.prog = .waitIrq :: rest →
      step s = .next { turn s with prog := if irq s.blk then rest else .waitIrq :: rest })
    ∧ (s.prog = .checkNonempty :: rest → Inv s → s.blk.busy = false → ∃ t, step s = .next t ∧ t.blk = s.blk ∧
      t.prog = if s.blk.n = 0 then [] else rest))
  ∧ (∀ (c : Config) (group : List Byte), 1 ≤ group.length → group.length ≤ 4 →
      ∃ (nb : BitVec 2) (a : Word),
        feedGroup c group = [.write .b32 (c.base + 0x14) a, .write .b32 (c.base + 0x10) (encode (.feedBytes nb)), .wait]
        ∧ operandBytes nb a = group)
  ∧ (∀ (c : Config) (bytes : List Byte), bytes ≠ [] →
      ∃ (groups : List (List Byte)) (last : List Byte),
        bytes = groups.flatten ++ last ∧ (∀ g ∈ groups, g.length = 4) ∧ 1 ≤ last.length ∧ last.length ≤ 4
        ∧ expand c (.feed bytes) = groups.flatMap (feedGroup c) ++ feedGroup c last)
  ∧ (∀ (c : Config) (count : Nat) (v : Word), 1 ≤ count → count ≤ 4 →
      expand c (.feedBytes count v) =
        [.write .b32 (c.base + 0x14) v, .write .b32 (c.base + 0x10) (BitVec.ofNat 32 (0x2 + 0x100 * (count - 1))), .wait])
  ∧ ∀ (c : Config) (r : Reg) (v : Word),
      expand c (.wr r v) = [.write .b32 (c.base + offsetOf r) v]
      ∧ expand c (.rd r) = [.read .b32 (c.base + offsetOf r)]
      ∧ expand c .nop = [.write .b32 (c.base + 0x10) 0x0, .wait]
      ∧ expand c .clear = [.write .b32 (c.base + 0x10) 0x1, .wait]
      ∧ expand c (.feedRun v) = [.write .b32 (c.base + 0x14) v, .write .b32 (c.base + 0x10) 0x3, .wait]
      ∧ expand c .flush = [.write .b32 (c.base + 0x10) 0x4, .wait]
      ∧ expand c .buildTree = [.write .b32 (c.base + 0x10) 0x5, .wait]
      ∧ expand c .genCodes = [.write .b32 (c.base + 0x10) 0x6, .wait]
      ∧ expand c .estimate = expand c .flush ++ expand c .buildTree ++ expand c .genCodes
      ∧ expand c .result = [.read .b32 (c.base + 0x28), .read .b32 (c.base + 0x2C)]
      ∧ expand c .ack = [.write .b32 (c.base + 0x0C) 0x2]
end

