-- ==== Sys2Proof/Laws/State.lean ====
section
/-! SUPPORT. One lemma per field and update of S and of the machine, so that no proof unfolds a record update. -/

namespace Sys2Proof.Machine

/-! ### Taking an error (spec/60_exceptions.md R120) -/

@[simp] theorem errorEntry_phase (r : Raise) (b : Block) : (errorEntry r b).phase = .error := by rfl
@[simp] theorem errorEntry_busy (r : Raise) (b : Block) : (errorEntry r b).busy = b.busy := by rfl
@[simp] theorem errorEntry_done (r : Raise) (b : Block) : (errorEntry r b).done = b.done := by rfl
@[simp] theorem errorEntry_ie (r : Raise) (b : Block) : (errorEntry r b).ie = b.ie := by rfl
@[simp] theorem errorEntry_arg (r : Raise) (b : Block) : (errorEntry r b).arg = b.arg := by rfl
@[simp] theorem errorEntry_latCmd (r : Raise) (b : Block) : (errorEntry r b).latCmd = b.latCmd := by rfl
@[simp] theorem errorEntry_latArg (r : Raise) (b : Block) : (errorEntry r b).latArg = b.latArg := by rfl
@[simp] theorem errorEntry_overrun (r : Raise) (b : Block) : (errorEntry r b).overrun = b.overrun := by rfl
@[simp] theorem errorEntry_overrunOp (r : Raise) (b : Block) : (errorEntry r b).overrunOp = b.overrunOp := by rfl
@[simp] theorem errorEntry_errCode (r : Raise) (b : Block) : (errorEntry r b).errCode = r.code := by rfl
@[simp] theorem errorEntry_errOp (r : Raise) (b : Block) : (errorEntry r b).errOp = r.op := by rfl
@[simp] theorem errorEntry_errPos (r : Raise) (b : Block) : (errorEntry r b).errPos = r.pos := by rfl
@[simp] theorem errorEntry_rleBit (r : Raise) (b : Block) : (errorEntry r b).rleBit = b.rleBit := by rfl
@[simp] theorem errorEntry_rleLen (r : Raise) (b : Block) : (errorEntry r b).rleLen = b.rleLen := by rfl
@[simp] theorem errorEntry_sym (r : Raise) (b : Block) : (errorEntry r b).sym = b.sym := by rfl
@[simp] theorem errorEntry_nruns (r : Raise) (b : Block) : (errorEntry r b).nruns = b.nruns := by rfl
@[simp] theorem errorEntry_treeValid (r : Raise) (b : Block) : (errorEntry r b).treeValid = b.treeValid := by rfl
@[simp] theorem errorEntry_node (r : Raise) (b : Block) : (errorEntry r b).node = b.node := by rfl
@[simp] theorem errorEntry_root (r : Raise) (b : Block) : (errorEntry r b).root = b.root := by rfl
@[simp] theorem errorEntry_codesValid (r : Raise) (b : Block) : (errorEntry r b).codesValid = b.codesValid := by rfl
@[simp] theorem errorEntry_code (r : Raise) (b : Block) : (errorEntry r b).code = b.code := by rfl
@[simp] theorem errorEntry_total (r : Raise) (b : Block) : (errorEntry r b).total = b.total := by rfl
@[simp] theorem errorEntry_maxlen (r : Raise) (b : Block) : (errorEntry r b).maxlen = b.maxlen := by rfl

/-! ### CLEAR (spec/44_control.md R107) -/

@[simp] theorem clearPipeline_phase (b : Block) : (clearPipeline b).phase = .accum := by rfl
@[simp] theorem clearPipeline_busy (b : Block) : (clearPipeline b).busy = b.busy := by rfl
@[simp] theorem clearPipeline_done (b : Block) : (clearPipeline b).done = b.done := by rfl
@[simp] theorem clearPipeline_ie (b : Block) : (clearPipeline b).ie = b.ie := by rfl
@[simp] theorem clearPipeline_arg (b : Block) : (clearPipeline b).arg = b.arg := by rfl
@[simp] theorem clearPipeline_latCmd (b : Block) : (clearPipeline b).latCmd = b.latCmd := by rfl
@[simp] theorem clearPipeline_latArg (b : Block) : (clearPipeline b).latArg = b.latArg := by rfl
@[simp] theorem clearPipeline_overrun (b : Block) : (clearPipeline b).overrun = b.overrun := by rfl
@[simp] theorem clearPipeline_overrunOp (b : Block) : (clearPipeline b).overrunOp = b.overrunOp := by rfl
@[simp] theorem clearPipeline_errCode (b : Block) : (clearPipeline b).errCode = .none := by rfl
@[simp] theorem clearPipeline_errOp (b : Block) : (clearPipeline b).errOp = 0 := by rfl
@[simp] theorem clearPipeline_errPos (b : Block) : (clearPipeline b).errPos = 0 := by rfl
@[simp] theorem clearPipeline_rleBit (b : Block) : (clearPipeline b).rleBit = false := by rfl
@[simp] theorem clearPipeline_rleLen (b : Block) : (clearPipeline b).rleLen = 0 := by rfl
@[simp] theorem clearPipeline_sym (b : Block) : (clearPipeline b).sym = [] := by rfl
@[simp] theorem clearPipeline_nruns (b : Block) : (clearPipeline b).nruns = 0 := by rfl
@[simp] theorem clearPipeline_treeValid (b : Block) : (clearPipeline b).treeValid = false := by rfl
@[simp] theorem clearPipeline_node (b : Block) : (clearPipeline b).node = [] := by rfl
@[simp] theorem clearPipeline_root (b : Block) : (clearPipeline b).root = 0 := by rfl
@[simp] theorem clearPipeline_codesValid (b : Block) : (clearPipeline b).codesValid = false := by rfl
@[simp] theorem clearPipeline_code (b : Block) : (clearPipeline b).code = [] := by rfl
@[simp] theorem clearPipeline_total (b : Block) : (clearPipeline b).total = 0 := by rfl
@[simp] theorem clearPipeline_maxlen (b : Block) : (clearPipeline b).maxlen = 0 := by rfl

/-! ### Acceptance (spec/40_command_cycle.md R70) -/

@[simp] theorem accept_phase (w : Word) (b : Block) : (accept w b).phase = b.phase := by rfl
@[simp] theorem accept_busy (w : Word) (b : Block) : (accept w b).busy = true := by rfl
@[simp] theorem accept_done (w : Word) (b : Block) : (accept w b).done = false := by rfl
@[simp] theorem accept_ie (w : Word) (b : Block) : (accept w b).ie = b.ie := by rfl
@[simp] theorem accept_arg (w : Word) (b : Block) : (accept w b).arg = b.arg := by rfl
@[simp] theorem accept_latCmd (w : Word) (b : Block) : (accept w b).latCmd = w := by rfl
@[simp] theorem accept_latArg (w : Word) (b : Block) : (accept w b).latArg = b.arg := by rfl
@[simp] theorem accept_overrun (w : Word) (b : Block) : (accept w b).overrun = false := by rfl
@[simp] theorem accept_overrunOp (w : Word) (b : Block) : (accept w b).overrunOp = 0 := by rfl
@[simp] theorem accept_errCode (w : Word) (b : Block) : (accept w b).errCode = b.errCode := by rfl
@[simp] theorem accept_errOp (w : Word) (b : Block) : (accept w b).errOp = b.errOp := by rfl
@[simp] theorem accept_errPos (w : Word) (b : Block) : (accept w b).errPos = b.errPos := by rfl
@[simp] theorem accept_rleBit (w : Word) (b : Block) : (accept w b).rleBit = b.rleBit := by rfl
@[simp] theorem accept_rleLen (w : Word) (b : Block) : (accept w b).rleLen = b.rleLen := by rfl
@[simp] theorem accept_sym (w : Word) (b : Block) : (accept w b).sym = b.sym := by rfl
@[simp] theorem accept_nruns (w : Word) (b : Block) : (accept w b).nruns = b.nruns := by rfl
@[simp] theorem accept_treeValid (w : Word) (b : Block) : (accept w b).treeValid = b.treeValid := by rfl
@[simp] theorem accept_node (w : Word) (b : Block) : (accept w b).node = b.node := by rfl
@[simp] theorem accept_root (w : Word) (b : Block) : (accept w b).root = b.root := by rfl
@[simp] theorem accept_codesValid (w : Word) (b : Block) : (accept w b).codesValid = b.codesValid := by rfl
@[simp] theorem accept_code (w : Word) (b : Block) : (accept w b).code = b.code := by rfl
@[simp] theorem accept_total (w : Word) (b : Block) : (accept w b).total = b.total := by rfl
@[simp] theorem accept_maxlen (w : Word) (b : Block) : (accept w b).maxlen = b.maxlen := by rfl

/-! ### A dropped CMD write (spec/40_command_cycle.md R71) -/

@[simp] theorem overrunWrite_phase (w : Word) (b : Block) : (overrunWrite w b).phase = b.phase := by
  cases h : b.overrun <;> simp [overrunWrite, h]
@[simp] theorem overrunWrite_busy (w : Word) (b : Block) : (overrunWrite w b).busy = b.busy := by
  cases h : b.overrun <;> simp [overrunWrite, h]
@[simp] theorem overrunWrite_done (w : Word) (b : Block) : (overrunWrite w b).done = b.done := by
  cases h : b.overrun <;> simp [overrunWrite, h]
@[simp] theorem overrunWrite_ie (w : Word) (b : Block) : (overrunWrite w b).ie = b.ie := by
  cases h : b.overrun <;> simp [overrunWrite, h]
@[simp] theorem overrunWrite_arg (w : Word) (b : Block) : (overrunWrite w b).arg = b.arg := by
  cases h : b.overrun <;> simp [overrunWrite, h]
@[simp] theorem overrunWrite_latCmd (w : Word) (b : Block) : (overrunWrite w b).latCmd = b.latCmd := by
  cases h : b.overrun <;> simp [overrunWrite, h]
@[simp] theorem overrunWrite_latArg (w : Word) (b : Block) : (overrunWrite w b).latArg = b.latArg := by
  cases h : b.overrun <;> simp [overrunWrite, h]
@[simp] theorem overrunWrite_overrun (w : Word) (b : Block) : (overrunWrite w b).overrun = true := by
  cases h : b.overrun <;> simp [overrunWrite, h]
@[simp] theorem overrunWrite_overrunOp (w : Word) (b : Block) : (overrunWrite w b).overrunOp = if b.overrun then b.overrunOp else fieldOp w := by
  cases h : b.overrun <;> simp [overrunWrite, h]
@[simp] theorem overrunWrite_errCode (w : Word) (b : Block) : (overrunWrite w b).errCode = b.errCode := by
  cases h : b.overrun <;> simp [overrunWrite, h]
@[simp] theorem overrunWrite_errOp (w : Word) (b : Block) : (overrunWrite w b).errOp = b.errOp := by
  cases h : b.overrun <;> simp [overrunWrite, h]
@[simp] theorem overrunWrite_errPos (w : Word) (b : Block) : (overrunWrite w b).errPos = b.errPos := by
  cases h : b.overrun <;> simp [overrunWrite, h]
@[simp] theorem overrunWrite_rleBit (w : Word) (b : Block) : (overrunWrite w b).rleBit = b.rleBit := by
  cases h : b.overrun <;> simp [overrunWrite, h]
@[simp] theorem overrunWrite_rleLen (w : Word) (b : Block) : (overrunWrite w b).rleLen = b.rleLen := by
  cases h : b.overrun <;> simp [overrunWrite, h]
@[simp] theorem overrunWrite_sym (w : Word) (b : Block) : (overrunWrite w b).sym = b.sym := by
  cases h : b.overrun <;> simp [overrunWrite, h]
@[simp] theorem overrunWrite_nruns (w : Word) (b : Block) : (overrunWrite w b).nruns = b.nruns := by
  cases h : b.overrun <;> simp [overrunWrite, h]
@[simp] theorem overrunWrite_treeValid (w : Word) (b : Block) : (overrunWrite w b).treeValid = b.treeValid := by
  cases h : b.overrun <;> simp [overrunWrite, h]
@[simp] theorem overrunWrite_node (w : Word) (b : Block) : (overrunWrite w b).node = b.node := by
  cases h : b.overrun <;> simp [overrunWrite, h]
@[simp] theorem overrunWrite_root (w : Word) (b : Block) : (overrunWrite w b).root = b.root := by
  cases h : b.overrun <;> simp [overrunWrite, h]
@[simp] theorem overrunWrite_codesValid (w : Word) (b : Block) : (overrunWrite w b).codesValid = b.codesValid := by
  cases h : b.overrun <;> simp [overrunWrite, h]
@[simp] theorem overrunWrite_code (w : Word) (b : Block) : (overrunWrite w b).code = b.code := by
  cases h : b.overrun <;> simp [overrunWrite, h]
@[simp] theorem overrunWrite_total (w : Word) (b : Block) : (overrunWrite w b).total = b.total := by
  cases h : b.overrun <;> simp [overrunWrite, h]
@[simp] theorem overrunWrite_maxlen (w : Word) (b : Block) : (overrunWrite w b).maxlen = b.maxlen := by
  cases h : b.overrun <;> simp [overrunWrite, h]

/-! ### The end of a completion (spec/40_command_cycle.md R72) -/

@[simp] theorem finish_phase (b : Block) : (finish b).phase = (if b.overrun && !b.err then .error else b.phase) := by
  cases h : (b.overrun && !b.err) <;> simp [finish, h]
@[simp] theorem finish_busy (b : Block) : (finish b).busy = false := by rfl
@[simp] theorem finish_done (b : Block) : (finish b).done = true := by rfl
@[simp] theorem finish_ie (b : Block) : (finish b).ie = b.ie := by
  cases h : (b.overrun && !b.err) <;> simp [finish, h]
@[simp] theorem finish_arg (b : Block) : (finish b).arg = b.arg := by
  cases h : (b.overrun && !b.err) <;> simp [finish, h]
@[simp] theorem finish_latCmd (b : Block) : (finish b).latCmd = b.latCmd := by
  cases h : (b.overrun && !b.err) <;> simp [finish, h]
@[simp] theorem finish_latArg (b : Block) : (finish b).latArg = b.latArg := by
  cases h : (b.overrun && !b.err) <;> simp [finish, h]
@[simp] theorem finish_overrun (b : Block) : (finish b).overrun = false := by rfl
@[simp] theorem finish_overrunOp (b : Block) : (finish b).overrunOp = 0 := by rfl
@[simp] theorem finish_errCode (b : Block) : (finish b).errCode = (if b.overrun && !b.err then .cmdOverrun else b.errCode) := by
  cases h : (b.overrun && !b.err) <;> simp [finish, h]
@[simp] theorem finish_errOp (b : Block) : (finish b).errOp = (if b.overrun && !b.err then b.overrunOp else b.errOp) := by
  cases h : (b.overrun && !b.err) <;> simp [finish, h]
@[simp] theorem finish_errPos (b : Block) : (finish b).errPos = (if b.overrun && !b.err then 0 else b.errPos) := by
  cases h : (b.overrun && !b.err) <;> simp [finish, h]
@[simp] theorem finish_rleBit (b : Block) : (finish b).rleBit = b.rleBit := by
  cases h : (b.overrun && !b.err) <;> simp [finish, h]
@[simp] theorem finish_rleLen (b : Block) : (finish b).rleLen = b.rleLen := by
  cases h : (b.overrun && !b.err) <;> simp [finish, h]
@[simp] theorem finish_sym (b : Block) : (finish b).sym = b.sym := by
  cases h : (b.overrun && !b.err) <;> simp [finish, h]
@[simp] theorem finish_nruns (b : Block) : (finish b).nruns = b.nruns := by
  cases h : (b.overrun && !b.err) <;> simp [finish, h]
@[simp] theorem finish_treeValid (b : Block) : (finish b).treeValid = b.treeValid := by
  cases h : (b.overrun && !b.err) <;> simp [finish, h]
@[simp] theorem finish_node (b : Block) : (finish b).node = b.node := by
  cases h : (b.overrun && !b.err) <;> simp [finish, h]
@[simp] theorem finish_root (b : Block) : (finish b).root = b.root := by
  cases h : (b.overrun && !b.err) <;> simp [finish, h]
@[simp] theorem finish_codesValid (b : Block) : (finish b).codesValid = b.codesValid := by
  cases h : (b.overrun && !b.err) <;> simp [finish, h]
@[simp] theorem finish_code (b : Block) : (finish b).code = b.code := by
  cases h : (b.overrun && !b.err) <;> simp [finish, h]
@[simp] theorem finish_total (b : Block) : (finish b).total = b.total := by
  cases h : (b.overrun && !b.err) <;> simp [finish, h]
@[simp] theorem finish_maxlen (b : Block) : (finish b).maxlen = b.maxlen := by
  cases h : (b.overrun && !b.err) <;> simp [finish, h]

/-! ### The machine -/

@[simp] theorem withBlk_cfg (s : State) (b : Block) : (s.withBlk b).cfg = s.cfg := by rfl
@[simp] theorem withBlk_prog (s : State) (b : Block) : (s.withBlk b).prog = s.prog := by rfl
@[simp] theorem withBlk_sched (s : State) (b : Block) : (s.withBlk b).sched = s.sched := by rfl
@[simp] theorem withBlk_log (s : State) (b : Block) : (s.withBlk b).log = s.log := by rfl
@[simp] theorem withBlk_draws (s : State) (b : Block) : (s.withBlk b).draws = s.draws := by rfl
@[simp] theorem withBlk_blk (s : State) (b : Block) : (s.withBlk b).blk = b := by rfl
@[simp] theorem withBlk_withBlk (s : State) (b b' : Block) : (s.withBlk b).withBlk b' = s.withBlk b' := by rfl
@[simp] theorem withBlk_self (s : State) : s.withBlk s.blk = s := by rfl
@[simp] theorem respond_cfg (s : State) (r : Response) : (s.respond r).cfg = s.cfg := by rfl
@[simp] theorem respond_blk (s : State) (r : Response) : (s.respond r).blk = s.blk := by rfl
@[simp] theorem respond_prog (s : State) (r : Response) : (s.respond r).prog = s.prog := by rfl
@[simp] theorem respond_sched (s : State) (r : Response) : (s.respond r).sched = s.sched := by rfl
@[simp] theorem respond_draws (s : State) (r : Response) : (s.respond r).draws = s.draws := by rfl
@[simp] theorem respond_log (s : State) (r : Response) : (s.respond r).log = r :: s.log := by rfl
@[simp] theorem raiseError_blk (r : Raise) (s : State) : (raiseError r s).blk = errorEntry r s.blk := by rfl
@[simp] theorem raiseError_cfg (r : Raise) (s : State) : (raiseError r s).cfg = s.cfg := by rfl
@[simp] theorem raiseError_prog (r : Raise) (s : State) : (raiseError r s).prog = s.prog := by rfl
@[simp] theorem raiseError_sched (r : Raise) (s : State) : (raiseError r s).sched = s.sched := by rfl
@[simp] theorem raiseError_log (r : Raise) (s : State) : (raiseError r s).log = s.log := by rfl
@[simp] theorem raiseError_draws (r : Raise) (s : State) : (raiseError r s).draws = s.draws := by rfl
@[simp] theorem resetBlock_blk (s : State) : (resetBlock s).blk = Block.reset := by rfl
@[simp] theorem resetBlock_cfg (s : State) : (resetBlock s).cfg = s.cfg := by rfl
@[simp] theorem resetBlock_prog (s : State) : (resetBlock s).prog = s.prog := by rfl
@[simp] theorem resetBlock_sched (s : State) : (resetBlock s).sched = s.sched := by rfl
@[simp] theorem resetBlock_log (s : State) : (resetBlock s).log = s.log := by rfl
@[simp] theorem resetBlock_draws (s : State) : (resetBlock s).draws = s.draws := by rfl
@[simp] theorem err_iff (b : Block) : b.err = true ↔ b.phase = .error := by simp [Block.err]

end Sys2Proof.Machine
end

