-- ==== Sys2Proof/Laws/Analyzer.lean ====
section
/-! SUPPORT. What the helpers of the analyzer do, said once: counting one run, one bit, and a sequence of bits. -/

namespace Sys2Proof.Machine

/-! ### Arithmetic that does not wrap -/

theorem toNat_add_one_of_ne_max {a : Word} (h : a ≠ maxWord) : (a + 1).toNat = a.toNat + 1 := by
  have h' : a.toNat ≠ 2 ^ 32 - 1 := fun e => h (BitVec.eq_of_toNat_eq (by simpa [maxWord] using e))
  have := a.isLt
  rw [BitVec.toNat_add, show (1 : Word).toNat = 1 from rfl]
  omega

theorem toNat_lt_of_ne_max {a : Word} (h : a ≠ maxWord) : a.toNat + 1 < 2 ^ 32 := by
  have h' : a.toNat ≠ 2 ^ 32 - 1 := fun e => h (BitVec.eq_of_toNat_eq (by simpa [maxWord] using e))
  have := a.isLt
  omega

theorem maxWord_toNat : maxWord.toNat = 2 ^ 32 - 1 := by decide

/-! ### The table sums -/

@[simp] theorem countSum_nil : countSum [] = 0 := by rfl
@[simp] theorem countSum_cons (t : Slot) (ts : List Slot) : countSum (t :: ts) = t.count.toNat + countSum ts := by rfl
@[simp] theorem countIn_nil (v : Nat) : countIn [] v = 0 := by rfl
@[simp] theorem countIn_cons (t : Slot) (ts : List Slot) (v : Nat) :
    countIn (t :: ts) v = (if t.value.toNat = v then t.count.toNat else 0) + countIn ts v := rfl
@[simp] theorem weightedSum_nil : weightedSum [] = 0 := by rfl
@[simp] theorem weightedSum_cons (t : Slot) (ts : List Slot) :
    weightedSum (t :: ts) = t.value.toNat * t.count.toNat + weightedSum ts := rfl

theorem count_le_countSum {t : Slot} {sym : List Slot} (h : t ∈ sym) : t.count.toNat ≤ countSum sym := by
  induction sym with
  | nil => simp at h
  | cons u us ih =>
    rcases List.mem_cons.1 h with rfl | h
    · simp
    · have := ih h; simp; omega

/-! ### A value the table holds -/

theorem holdsValue_iff {v : Word} {sym : List Slot} : holdsValue v sym = true ↔ v ∈ sym.map Slot.value := by
  simp [holdsValue]

theorem bumpCount_values (v : Word) (sym : List Slot) : (bumpCount v sym).map Slot.value = sym.map Slot.value := by
  induction sym with
  | nil => rfl
  | cons t ts ih => by_cases h : t.value = v <;> simp [bumpCount, h, ih]

@[simp] theorem bumpCount_length (v : Word) (sym : List Slot) : (bumpCount v sym).length = sym.length := by
  simpa using congrArg List.length (bumpCount_values v sym)

theorem bumpCount_countSum {v : Word} {sym : List Slot} (hv : holdsValue v sym = true)
    (hc : ∀ t ∈ sym, t.count ≠ maxWord) : countSum (bumpCount v sym) = countSum sym + 1 := by
  induction sym with
  | nil => simp [holdsValue] at hv
  | cons t ts ih =>
    by_cases h : t.value = v
    · have := toNat_lt_of_ne_max (hc t (by simp))
      simp [bumpCount, h]; omega
    · have hv' : holdsValue v ts = true := by simpa [holdsValue, h] using hv
      simp [bumpCount, h, ih hv' (fun u hu => hc u (by simp [hu]))]; omega

theorem bumpCount_countIn {v : Word} {sym : List Slot} (hv : holdsValue v sym = true)
    (hc : ∀ t ∈ sym, t.count ≠ maxWord) (x : Nat) :
    countIn (bumpCount v sym) x = countIn sym x + if v.toNat = x then 1 else 0 := by
  induction sym with
  | nil => simp [holdsValue] at hv
  | cons t ts ih =>
    by_cases h : t.value = v
    · have := toNat_lt_of_ne_max (hc t (by simp))
      by_cases hx : v.toNat = x <;> simp [bumpCount, h, hx]
      omega
    · have hv' : holdsValue v ts = true := by simpa [holdsValue, h] using hv
      simp [bumpCount, h, ih hv' (fun u hu => hc u (by simp [hu]))]; omega

theorem bumpCount_positive {v : Word} {sym : List Slot} (hp : ∀ t ∈ sym, t.value ≠ 0 ∧ t.count ≠ 0)
    (hc : ∀ t ∈ sym, t.count ≠ maxWord) : ∀ t ∈ bumpCount v sym, t.value ≠ 0 ∧ t.count ≠ 0 := by
  induction sym with
  | nil => simp [bumpCount]
  | cons t ts ih =>
    have h0 := hp t (by simp)
    have h1 := toNat_add_one_of_ne_max (hc t (by simp))
    have hne : t.count + 1 ≠ 0 := fun e => by rw [e] at h1; simp at h1
    by_cases h : t.value = v
    · rintro u hu
      rw [bumpCount, if_pos h] at hu
      rcases List.mem_cons.1 hu with rfl | hu
      · exact ⟨h0.1, hne⟩
      · exact hp u (by simp [hu])
    · rintro u hu
      rw [bumpCount, if_neg h] at hu
      rcases List.mem_cons.1 hu with rfl | hu
      · exact h0
      · exact ih (fun w hw => hp w (by simp [hw])) (fun w hw => hc w (by simp [hw])) u hu

/-! ### A new value -/

theorem ascending_iff_values {sym : List Slot} : Ascending sym ↔ (sym.map Slot.value).Pairwise (· < ·) := by
  simp [Ascending, List.pairwise_map]

theorem placeOf_cons_lt {v : Word} {t : Slot} {ts : List Slot} (h : t.value < v) :
    placeOf v (t :: ts) = placeOf v ts + 1 := by
  simp [placeOf, h]

theorem placeOf_eq_zero {v : Word} {t : Slot} {ts : List Slot} (h : ¬ t.value < v) (ha : Ascending (t :: ts)) :
    placeOf v (t :: ts) = 0 := by
  have hrest := (List.pairwise_cons.1 ha).1
  simp only [placeOf, List.countP_eq_zero, List.mem_cons, decide_eq_true_eq]
  rintro u (rfl | hu)
  · exact h
  · have := hrest u hu
    simp only [BitVec.lt_def] at *; omega

theorem insertSlot_nil (v : Word) : insertSlot v [] = [⟨v, 1⟩] := by simp [insertSlot, placeOf]

theorem insertSlot_cons_lt {v : Word} {t : Slot} {ts : List Slot} (h : t.value < v) :
    insertSlot v (t :: ts) = t :: insertSlot v ts := by
  simp [insertSlot, placeOf_cons_lt h]

theorem insertSlot_cons_not_lt {v : Word} {t : Slot} {ts : List Slot} (h : ¬ t.value < v)
    (ha : Ascending (t :: ts)) : insertSlot v (t :: ts) = ⟨v, 1⟩ :: t :: ts := by
  simp [insertSlot, placeOf_eq_zero h ha]

theorem insertSlot_perm (v : Word) (sym : List Slot) : (insertSlot v sym).Perm (⟨v, 1⟩ :: sym) := by
  unfold insertSlot
  refine List.perm_middle.trans ?_
  rw [List.take_append_drop]

@[simp] theorem insertSlot_length (v : Word) (sym : List Slot) : (insertSlot v sym).length = sym.length + 1 := by
  simpa using (insertSlot_perm v sym).length_eq

theorem insertSlot_ascending {v : Word} {sym : List Slot} (ha : Ascending sym) (hv : holdsValue v sym = false) :
    Ascending (insertSlot v sym) := by
  induction sym with
  | nil => simp [insertSlot_nil, Ascending]
  | cons t ts ih =>
    have hne : t.value ≠ v := by simp [holdsValue] at hv; exact hv.1
    have hv' : holdsValue v ts = false := by simp [holdsValue] at hv ⊢; exact hv.2
    have hts := (List.pairwise_cons.1 ha)
    by_cases h : t.value < v
    · rw [insertSlot_cons_lt h]
      refine List.pairwise_cons.2 ⟨fun u hu => ?_, ih hts.2 hv'⟩
      rcases List.mem_cons.1 ((insertSlot_perm v ts).mem_iff.1 hu) with rfl | hu
      · exact h
      · exact hts.1 u hu
    · rw [insertSlot_cons_not_lt h ha]
      have hlt : v < t.value := by
        have : v.toNat ≠ t.value.toNat := fun e => hne (BitVec.eq_of_toNat_eq e.symm)
        simp only [BitVec.lt_def] at *; omega
      refine List.pairwise_cons.2 ⟨fun u hu => ?_, ha⟩
      rcases List.mem_cons.1 hu with rfl | hu
      · exact hlt
      · have := hts.1 u hu
        simp only [BitVec.lt_def] at *; omega

theorem insertSlot_countSum (v : Word) (sym : List Slot) : countSum (insertSlot v sym) = countSum sym + 1 := by
  have := ((insertSlot_perm v sym).map (fun t : Slot => t.count.toNat)).sum_eq
  simp only [countSum] at *
  rw [this]; simp; omega

theorem insertSlot_countIn (v : Word) (sym : List Slot) (x : Nat) :
    countIn (insertSlot v sym) x = countIn sym x + if v.toNat = x then 1 else 0 := by
  have := ((insertSlot_perm v sym).map (fun t : Slot => if t.value.toNat = x then t.count.toNat else 0)).sum_eq
  simp only [countIn] at *
  rw [this]; simp; omega

theorem insertSlot_positive {v : Word} {sym : List Slot} (hv : v ≠ 0)
    (hp : ∀ t ∈ sym, t.value ≠ 0 ∧ t.count ≠ 0) : ∀ t ∈ insertSlot v sym, t.value ≠ 0 ∧ t.count ≠ 0 := by
  intro t ht
  rcases List.mem_cons.1 ((insertSlot_perm v sym).mem_iff.1 ht) with rfl | ht
  · exact ⟨hv, (by decide : (1 : Word) ≠ 0)⟩
  · exact hp t ht

/-! ### Counting one run (spec/41_analyzer.md R83) -/

theorem emit_countOverflow {c : Config} {v : Word} {op : Byte} {pos : Nat} {b : Block} (h : b.nruns = maxWord) :
    emit c v op pos b = .error ⟨.countOverflow, op, BitVec.ofNat 5 pos⟩ := by simp [emit, h]

theorem emit_held {c : Config} {v : Word} {op : Byte} {pos : Nat} {b : Block} (h : b.nruns ≠ maxWord)
    (hv : holdsValue v b.sym = true) :
    emit c v op pos b = .ok { b with sym := bumpCount v b.sym, nruns := b.nruns + 1 } := by simp [emit, h, hv]

theorem emit_tableFull {c : Config} {v : Word} {op : Byte} {pos : Nat} {b : Block} (h : b.nruns ≠ maxWord)
    (hv : holdsValue v b.sym = false) (hn : c.nSym ≤ b.n) :
    emit c v op pos b = .error ⟨.tableFull, op, BitVec.ofNat 5 pos⟩ := by simp [emit, h, hv, hn]

theorem emit_new {c : Config} {v : Word} {op : Byte} {pos : Nat} {b : Block} (h : b.nruns ≠ maxWord)
    (hv : holdsValue v b.sym = false) (hn : b.n < c.nSym) :
    emit c v op pos b = .ok { b with sym := insertSlot v b.sym, nruns := b.nruns + 1 } := by
  simp only [emit, h, hv, if_false, Bool.false_eq_true, Nat.not_le.2 hn]

/-- Everything a successful count does: only the table and the run count change, the table stays well formed, and the
value's count goes up by one. -/
theorem emit_ok {c : Config} {v : Word} {op : Byte} {pos : Nat} {b t : Block} (ht : TableOk c b) (hv : v ≠ 0)
    (h : emit c v op pos b = .ok t) :
    t = { b with sym := t.sym, nruns := t.nruns } ∧ TableOk c t ∧ t.nruns.toNat = b.nruns.toNat + 1
      ∧ ∀ x, countIn t.sym x = countIn b.sym x + if v.toNat = x then 1 else 0 := by
  by_cases h1 : b.nruns = maxWord
  · rw [emit_countOverflow h1] at h; cases h
  have hn := toNat_add_one_of_ne_max h1
  have hmax : ∀ s ∈ b.sym, s.count ≠ maxWord := by
    intro s hs e
    have h2 := count_le_countSum hs
    have h3 := toNat_lt_of_ne_max h1
    rw [e, maxWord_toNat, ← ht.sum] at h2
    omega
  cases h2 : holdsValue v b.sym with
  | true =>
    rw [emit_held h1 h2] at h
    obtain rfl := Except.ok.inj h
    refine ⟨rfl, ⟨by simpa [Block.n] using ht.fits, ?_, bumpCount_positive ht.positive hmax, ?_⟩, hn,
      bumpCount_countIn h2 hmax⟩
    · have := ht.ascending
      rw [ascending_iff_values] at this ⊢
      simpa [bumpCount_values] using this
    · simp only [hn, bumpCount_countSum h2 hmax, ht.sum]
  | false =>
    by_cases h3 : c.nSym ≤ b.n
    · rw [emit_tableFull h1 h2 h3] at h; cases h
    · rw [emit_new h1 h2 (by omega)] at h
      obtain rfl := Except.ok.inj h
      refine ⟨rfl, ⟨?_, insertSlot_ascending ht.ascending h2, insertSlot_positive hv ht.positive, ?_⟩, hn,
        insertSlot_countIn v b.sym⟩
      · simp only [insertSlot_length, Block.n] at *; omega
      · simp only [hn, insertSlot_countSum, ht.sum]

/-! ### One bit and a sequence of bits (R80, R84) -/

/-- A bit that takes effect changes the open run and the table only. -/
theorem rleStep_frame {c : Config} {bit : Bool} {op : Byte} {pos : Nat} {b t : Block}
    (h : rleStep c bit op pos b = .ok t) :
    t = { b with rleBit := t.rleBit, rleLen := t.rleLen, sym := t.sym, nruns := t.nruns } := by
  simp only [rleStep, emit] at h
  split at h
  · split at h
    · cases h
    · obtain rfl := Except.ok.inj h; rfl
  · split at h
    · obtain rfl := Except.ok.inj h; rfl
    · split at h
      · rename_i heq
        split at heq
        · cases heq
        · split at heq
          · obtain rfl := Except.ok.inj heq; obtain rfl := Except.ok.inj h; rfl
          · split at heq
            · cases heq
            · obtain rfl := Except.ok.inj heq; obtain rfl := Except.ok.inj h; rfl
      · cases h

theorem feedBits_frame {c : Config} {op : Byte} {bits : List Bool} {pos : Nat} {b t : Block}
    (h : feedBits c op bits pos b = .ok t) :
    t = { b with rleBit := t.rleBit, rleLen := t.rleLen, sym := t.sym, nruns := t.nruns } := by
  induction bits generalizing pos b with
  | nil => obtain rfl := Except.ok.inj h; rfl
  | cons x xs ih =>
    simp only [feedBits] at h
    split at h
    · rename_i m hm
      have h1 := ih h
      rw [rleStep_frame hm] at h1
      exact h1
    · cases h

theorem feedBits_append {c : Config} {op : Byte} {xs ys : List Bool} {pos : Nat} {b : Block} :
    feedBits c op (xs ++ ys) pos b =
      match feedBits c op xs pos b with
      | .ok t => feedBits c op ys (pos + xs.length) t
      | .error r => .error r := by
  induction xs generalizing pos b with
  | nil => simp [feedBits]
  | cons x xs ih =>
    simp only [List.cons_append, feedBits, List.length_cons]
    cases rleStep c x op pos b with
    | ok t => simp only [ih]; rw [show pos + 1 + xs.length = pos + (xs.length + 1) by omega]
    | error r => rfl

end Sys2Proof.Machine
end

