-- ==== Sys2Proof/Laws/Tree.lean ====
section
/-! SUPPORT. What the helpers of the tree builder do, said once: the order of selection, one selection, one merge, and the
loop of merges (spec/42_tree_builder.md R91 to R93). -/

namespace Sys2Proof.Machine

/-! ### The order of (weight, id) (R91) -/

theorem before_iff {arena : List Node} {j k : Nat} :
    before arena j k = true ↔ (weightAt arena j).toNat < (weightAt arena k).toNat
      ∨ ((weightAt arena j).toNat = (weightAt arena k).toNat ∧ j < k) := by
  simp [before, BitVec.lt_def, ← BitVec.toNat_inj]

theorem before_total {arena : List Node} {j k : Nat} (hne : j ≠ k) (h : ¬ before arena j k = true) :
    before arena k j = true := by
  rw [before_iff] at *; omega

theorem before_trans {arena : List Node} {i j k : Nat} (h₁ : before arena i j = true) (h₂ : before arena j k = true) :
    before arena i k = true := by
  rw [before_iff] at *; omega

theorem weightAt_append {arena : List Node} {x : Node} {j : Nat} (h : j < arena.length) :
    weightAt (arena ++ [x]) j = weightAt arena j := by
  simp [weightAt, List.getElem?_append_left h]

theorem weightAt_last {arena : List Node} {x : Node} : weightAt (arena ++ [x]) arena.length = weightOf x := by
  simp [weightAt]

theorem before_append {arena : List Node} {x : Node} {j k : Nat} (hj : j < arena.length) (hk : k < arena.length) :
    before (arena ++ [x]) j k = before arena j k := by
  simp [before, weightAt_append hj, weightAt_append hk]

/-! ### One selection (R91) -/

theorem argmin_spec {arena : List Node} {pool : List Nat} {x : Nat} (h : argmin arena pool = some x) :
    x ∈ pool ∧ ∀ z ∈ pool, z ≠ x → before arena x z = true := by
  induction pool generalizing x with
  | nil => simp [argmin] at h
  | cons j js ih =>
    simp only [argmin] at h
    cases hk : argmin arena js with
    | none =>
      have hjs : js = [] := by
        cases js with
        | nil => rfl
        | cons a as =>
          simp only [argmin] at hk
          split at hk
          · cases hk
          · split at hk <;> cases hk
      rw [hk] at h
      obtain rfl := Option.some.inj h
      subst hjs; simp
    | some k =>
      rw [hk] at h
      obtain ⟨hmem, hmin⟩ := ih hk
      simp only at h
      split at h <;> rename_i hb
      · obtain rfl := Option.some.inj h
        refine ⟨by simp, fun z hz hne => ?_⟩
        rcases List.mem_cons.1 hz with rfl | hz
        · exact absurd rfl hne
        · by_cases hzk : z = k
          · rw [hzk]; exact hb
          · exact before_trans hb (hmin z hz hzk)
      · obtain rfl := Option.some.inj h
        refine ⟨by simp [hmem], fun z hz hne => ?_⟩
        rcases List.mem_cons.1 hz with rfl | hz
        · exact before_total hne hb
        · exact hmin z hz hne

theorem argmin_isSome {arena : List Node} {pool : List Nat} (h : pool ≠ []) : ∃ x, argmin arena pool = some x := by
  cases pool with
  | nil => exact absurd rfl h
  | cons j js =>
    simp only [argmin]
    split
    · exact ⟨_, rfl⟩
    · split <;> exact ⟨_, rfl⟩

/-- One selection takes the first id of the order, and leaves the pool without it. -/
theorem select_spec {arena : List Node} {pool rest : List Nat} {x : Nat} (h : select arena pool = some (x, rest)) :
    x ∈ pool ∧ rest = pool.erase x ∧ ∀ z ∈ pool, z ≠ x → before arena x z = true := by
  simp only [select, Option.map_eq_some_iff] at h
  obtain ⟨y, hy, he⟩ := h
  obtain ⟨rfl, rfl⟩ := Prod.mk.inj he
  exact ⟨(argmin_spec hy).1, rfl, (argmin_spec hy).2⟩

theorem select_isSome {arena : List Node} {pool : List Nat} (h : pool ≠ []) :
    ∃ x, select arena pool = some (x, pool.erase x) := by
  obtain ⟨x, hx⟩ := argmin_isSome (arena := arena) h
  exact ⟨x, by simp [select, hx]⟩

/-- Two selections in a row from a pool without repeats are the first and the second of R91. -/
theorem select_select {arena : List Node} {pool pool₁ pool₂ : List Nat} {x y : Nat} (hnd : pool.Nodup)
    (hx : select arena pool = some (x, pool₁)) (hy : select arena pool₁ = some (y, pool₂)) :
    Selected arena pool x y ∧ pool₂ = (pool.erase x).erase y := by
  obtain ⟨hxm, rfl, hxmin⟩ := select_spec hx
  obtain ⟨hym, rfl, hymin⟩ := select_spec hy
  have hy' := (hnd.mem_erase_iff).1 hym
  exact ⟨⟨hxm, hy'.2, fun e => hy'.1 e.symm, hxmin,
    fun z hz hzx hzy => hymin z ((hnd.mem_erase_iff).2 ⟨hzx, hz⟩) hzy⟩, rfl⟩

/-! ### The ids of children -/

@[simp] theorem childIds_nil : childIds [] = [] := by rfl

theorem childIds_append (a b : List Node) : childIds (a ++ b) = childIds a ++ childIds b := by
  simp [childIds]

theorem childIds_leavesOf (sym : List Slot) : childIds (leavesOf sym) = [] := by
  simp [childIds, leavesOf]

theorem childIds_internal (w l r : Word) : childIds [.internal w l r] = [l.toNat, r.toNat] := rfl

theorem mem_poolAt {arena : List Node} {j z : Nat} : z ∈ poolAt arena j ↔ z < j ∧ z ∉ childIds (arena.take j) := by
  simp [poolAt]

theorem poolAt_append {arena : List Node} {x : Node} {j : Nat} (h : j ≤ arena.length) :
    poolAt (arena ++ [x]) j = poolAt arena j := by
  simp [poolAt, List.take_append_of_le_length h]

theorem poolAt_nodup (arena : List Node) (j : Nat) : (poolAt arena j).Nodup :=
  List.nodup_range.filter _

/-- A merge that was right stays right when later nodes are added. -/
theorem MergeOk_append {arena : List Node} {x : Node} {j : Nat} (hj : j < arena.length) (h : MergeOk arena j) :
    MergeOk (arena ++ [x]) j := by
  obtain ⟨w, l, r, hnode, hsel, hw⟩ := h
  have hlt : ∀ z ∈ poolAt arena j, z < arena.length := fun z hz => by
    have := (mem_poolAt.1 hz).1; omega
  refine ⟨w, l, r, by rw [List.getElem?_append_left hj]; exact hnode, ?_, ?_⟩
  · rw [poolAt_append (by omega)]
    refine ⟨hsel.memX, hsel.memY, hsel.ne, fun z hz hne => ?_, fun z hz hne hne' => ?_⟩
    · rw [before_append (hlt _ hsel.memX) (hlt _ hz)]; exact hsel.first z hz hne
    · rw [before_append (hlt _ hsel.memY) (hlt _ hz)]; exact hsel.second z hz hne hne'
  · rw [weightAt_append (hlt _ hsel.memX), weightAt_append (hlt _ hsel.memY)]; exact hw

/-! ### The loop of merges (R92, R93) -/

/-- What holds before every merge: the leaves stand first, every node made so far is a right merge, the pool is the ids
that nothing owns, and the pool's weights add up to the total. -/
structure MergeInv (sym : List Slot) (total : Nat) (arena : List Node) (pool : List Nat) : Prop where
  leaves : arena.take sym.length = leavesOf sym
  le     : sym.length ≤ arena.length
  merges : ∀ j, sym.length ≤ j → j < arena.length → MergeOk arena j
  perm   : pool.Perm (poolAt arena arena.length)
  all    : (pool ++ childIds arena).Perm (List.range arena.length)
  size   : pool.length + arena.length = 2 * sym.length
  weight : (pool.map (fun j => (weightAt arena j).toNat)).sum = total

theorem take_length_self {α : Type} (l : List α) : l.take l.length = l := List.take_length

theorem MergeInv_initial {sym : List Slot} :
    MergeInv sym (countSum sym) (leavesOf sym) (List.range sym.length) where
  leaves := by simp [leavesOf]
  le := by simp [leavesOf]
  merges := fun j h₁ h₂ => by simp [leavesOf] at h₂; omega
  perm := by
    have : poolAt (leavesOf sym) (leavesOf sym).length = List.range sym.length := by
      simp only [poolAt, List.take_length, childIds_leavesOf, List.not_mem_nil, not_false_eq_true, decide_true,
        List.filter_true]
      simp [leavesOf]
    rw [this]
  all := by rw [childIds_leavesOf]; simp [leavesOf]
  size := by simp [leavesOf]; omega
  weight := by
    have h : ∀ j, j < sym.length → (weightAt (leavesOf sym) j) = (sym[j]?.map Slot.count).getD 0 := by
      intro j hj
      simp [weightAt, leavesOf, List.getElem?_map, List.getElem?_eq_getElem hj, weightOf]
    rw [show countSum sym = ((List.range sym.length).map
        (fun j => ((sym[j]?.map Slot.count).getD 0).toNat)).sum from ?_]
    · congr 1
      apply List.map_congr_left
      intro j hj
      rw [h j (List.mem_range.1 hj)]
    · simp only [countSum]
      congr 1
      apply List.ext_getElem
      · simp
      · intro i h₁ h₂
        simp at h₁
        simp [List.getElem?_eq_getElem h₁]

/-- One merge keeps it. The weights fit in 32 bits because their sum does (R96 item 4). -/
theorem MergeInv_merge {sym : List Slot} {total : Nat} {arena : List Node} {pool pool₁ pool₂ : List Nat} {x y : Nat}
    (h : MergeInv sym total arena pool) (htot : total < 2 ^ 32) (hn : sym.length ≤ 2048)
    (hx : select arena pool = some (x, pool₁)) (hy : select arena pool₁ = some (y, pool₂)) :
    MergeInv sym total
      (arena ++ [.internal (weightAt arena x + weightAt arena y) (BitVec.ofNat 32 x) (BitVec.ofNat 32 y)])
      (pool₂ ++ [arena.length]) := by
  have hnd : pool.Nodup := h.perm.nodup_iff.2 (poolAt_nodup _ _)
  obtain ⟨hsel, rfl⟩ := select_select hnd hx hy
  have hperm : pool.Perm (x :: y :: (pool.erase x).erase y) := by
    refine (List.perm_cons_erase hsel.memX).trans (List.Perm.cons _ ?_)
    exact List.perm_cons_erase ((hnd.mem_erase_iff).2 ⟨fun e => hsel.ne e.symm, hsel.memY⟩)
  have hlen : arena.length ≤ 2 * sym.length := by have := h.size; omega
  have hlt : ∀ z ∈ pool, z < arena.length := fun z hz => (mem_poolAt.1 (h.perm.mem_iff.1 hz)).1
  have hxl := hlt x hsel.memX
  have hyl := hlt y hsel.memY
  have hxb : (BitVec.ofNat 32 x).toNat = x := by simp; omega
  have hyb : (BitVec.ofNat 32 y).toNat = y := by simp; omega
  have hsum := (hperm.map (fun j => (weightAt arena j).toNat)).sum_eq
  rw [h.weight] at hsum
  simp only [List.map_cons, List.sum_cons] at hsum
  have hw : (weightAt arena x + weightAt arena y).toNat = (weightAt arena x).toNat + (weightAt arena y).toNat := by
    rw [BitVec.toNat_add]; omega
  have hlast : ∀ z : Node, (arena ++ [z]).length = arena.length + 1 := by simp
  have hall : ((pool.erase x).erase y ++ [arena.length] ++ (childIds arena ++ [x, y])).Perm
      (List.range (arena.length + 1)) := by
    rw [List.range_succ]
    refine List.Perm.trans ?_ (List.Perm.append_right [arena.length] h.all)
    refine List.Perm.trans ?_ (List.Perm.append_right [arena.length]
      (List.Perm.append_right (childIds arena) hperm.symm))
    apply List.perm_iff_count.2
    intro a
    simp only [List.count_append, List.count_cons, List.count_nil]
    omega
  refine ⟨?_, by rw [hlast]; have := h.le; omega, fun j hj₁ hj₂ => ?_, ?_, ?_, ?_, ?_⟩
  · rw [List.take_append_of_le_length h.le]; exact h.leaves
  · rw [hlast] at hj₂
    by_cases hj : j < arena.length
    · exact MergeOk_append hj (h.merges j hj₁ hj)
    · obtain rfl : j = arena.length := by omega
      refine ⟨_, _, _, by simp; exact ⟨rfl, rfl, rfl⟩, ?_, ?_⟩
      · rw [hxb, hyb, poolAt_append le_rfl]
        have hmem : ∀ z, z ∈ poolAt arena arena.length ↔ z ∈ pool := fun z => h.perm.mem_iff.symm
        refine ⟨(hmem _).2 hsel.memX, (hmem _).2 hsel.memY, hsel.ne, fun z hz hne => ?_, fun z hz h₁ h₂ => ?_⟩
        · have hz' := (hmem z).1 hz
          rw [before_append hxl (hlt z hz')]; exact hsel.first z hz' hne
        · have hz' := (hmem z).1 hz
          rw [before_append hyl (hlt z hz')]; exact hsel.second z hz' h₁ h₂
      · rw [hxb, hyb, weightAt_append hxl, weightAt_append hyl]; exact hw
  · apply (List.perm_ext_iff_of_nodup ?_ (poolAt_nodup _ _)).2
    · intro z
      rw [mem_poolAt, List.take_length, hlast, childIds_append, childIds_internal, hxb, hyb]
      have hnd' := (hall.nodup_iff.2 List.nodup_range)
      have hz := hall.mem_iff (a := z)
      simp only [List.mem_append, List.mem_range] at hz ⊢
      have hdisj := (List.nodup_append.1 hnd').2.2
      constructor
      · intro hm
        refine ⟨hz.1 (Or.inl hm), fun hc => hdisj z (List.mem_append.2 hm) z ?_ rfl⟩
        simpa using hc
      · rintro ⟨hl, hc⟩
        rcases hz.2 hl with hm | hm
        · exact hm
        · exact absurd hm hc
    · exact (List.nodup_append.1 (hall.nodup_iff.2 List.nodup_range)).1
  · rw [hlast, childIds_append, childIds_internal, hxb, hyb]; exact hall
  · have := hperm.length_eq
    have := h.size
    simp only [List.length_append, List.length_cons, List.length_nil] at *
    omega
  · have hsame : ((pool.erase x).erase y).map (fun j => (weightAt (arena ++
        [Node.internal (weightAt arena x + weightAt arena y) (BitVec.ofNat 32 x) (BitVec.ofNat 32 y)]) j).toNat)
        = ((pool.erase x).erase y).map (fun j => (weightAt arena j).toNat) := by
      apply List.map_congr_left
      intro z hz
      rw [weightAt_append (hlt z (List.mem_of_mem_erase (List.mem_of_mem_erase hz)))]
    rw [List.map_append, List.sum_append, hsame]
    simp only [List.map_cons, List.map_nil, List.sum_cons, List.sum_nil, weightAt_last, weightOf, hw]
    omega

/-- The loop keeps it, and with enough merges it ends with one id in the pool (R94). -/
theorem mergeLoop_spec {sym : List Slot} {total : Nat} (htot : total < 2 ^ 32) (hn : sym.length ≤ 2048)
    {fuel : Nat} {arena : List Node} {pool : List Nat} (h : MergeInv sym total arena pool)
    (hf : pool.length = fuel + 1) :
    MergeInv sym total (mergeLoop fuel arena pool).1 (mergeLoop fuel arena pool).2
      ∧ (mergeLoop fuel arena pool).2.length = 1 := by
  induction fuel generalizing arena pool with
  | zero => exact ⟨h, hf⟩
  | succ fuel ih =>
    have hne : pool ≠ [] := by intro e; simp [e] at hf
    obtain ⟨x, hx⟩ := select_isSome (arena := arena) hne
    have hxm := (select_spec hx).1
    have hne₁ : pool.erase x ≠ [] := by
      intro e
      have := List.length_erase_of_mem hxm
      rw [e, hf] at this; simp at this
    obtain ⟨y, hy⟩ := select_isSome (arena := arena) hne₁
    have hym := (select_spec hy).1
    have hstep := MergeInv_merge h htot hn hx hy
    simp only [mergeLoop, hx, hy]
    refine ih hstep ?_
    simp [List.length_erase_of_mem hym, List.length_erase_of_mem hxm, hf]

/-! ### The finished tree -/

/-- The ids of children are the children of some internal node. -/
theorem mem_childIds {arena : List Node} {z : Nat} :
    z ∈ childIds arena ↔ ∃ (j : Nat) (w l r : Word), arena[j]? = some (.internal w l r) ∧ (z = l.toNat ∨ z = r.toNat) := by
  simp only [childIds, List.mem_flatMap]
  constructor
  · rintro ⟨node, hmem, hz⟩
    obtain ⟨j, hj, rfl⟩ := List.getElem_of_mem hmem
    cases hnode : arena[j] with
    | leaf w v => rw [hnode] at hz; simp at hz
    | internal w l r =>
      rw [hnode] at hz
      exact ⟨j, w, l, r, by rw [List.getElem?_eq_getElem hj, hnode], by simpa using hz⟩
  · rintro ⟨j, w, l, r, hnode, hz⟩
    exact ⟨_, List.mem_of_getElem? hnode, by simpa using hz⟩

/-- An entry among the first n is a leaf with its slot's count and value. -/
theorem leaf_of_take {sym : List Slot} {arena : List Node} (h : arena.take sym.length = leavesOf sym) {j : Nat}
    (hj : j < sym.length) : arena[j]? = some (.leaf sym[j].count sym[j].value) := by
  have h1 : (arena.take sym.length)[j]? = arena[j]? := by rw [List.getElem?_take]; simp [hj]
  rw [← h1, h]
  simp [leavesOf, List.getElem?_eq_getElem hj]

/-- In an arena of leaves and right merges, an internal node stands at or above n and its children have smaller ids. -/
theorem internal_children {sym : List Slot} {arena : List Node} (hl : arena.take sym.length = leavesOf sym)
    (hm : ∀ j, sym.length ≤ j → j < arena.length → MergeOk arena j) {j : Nat} {w l r : Word}
    (h : arena[j]? = some (.internal w l r)) : sym.length ≤ j ∧ l.toNat < j ∧ r.toNat < j := by
  have hj : j < arena.length := by
    by_contra hc
    rw [List.getElem?_eq_none (by omega)] at h; cases h
  have hn : sym.length ≤ j := by
    by_contra hc
    rw [leaf_of_take hl (by omega)] at h; cases h
  obtain ⟨w', l', r', hnode, hsel, -⟩ := hm j hn hj
  rw [h] at hnode
  cases hnode
  exact ⟨hn, (mem_poolAt.1 hsel.memX).1, (mem_poolAt.1 hsel.memY).1⟩

/-- The builder's arena is the Huffman tree over the table. -/
theorem huffman_treeOk {sym : List Slot} (hne : 1 ≤ sym.length) (hn : sym.length ≤ 2048)
    (htot : countSum sym < 2 ^ 32) :
    TreeOk sym (huffman sym).1 ((huffman sym).2.headD 0) (countSum sym) := by
  obtain ⟨h, hone⟩ := mergeLoop_spec (fuel := sym.length - 1) htot hn MergeInv_initial (by simp; omega)
  change MergeInv sym (countSum sym) (huffman sym).1 (huffman sym).2 at h
  change (huffman sym).2.length = 1 at hone
  generalize (huffman sym).1 = arena at *
  generalize (huffman sym).2 = pool at *
  obtain ⟨r, rfl⟩ := List.length_eq_one_iff.1 hone
  have hsize : arena.length = 2 * sym.length - 1 := by have := h.size; simp at this; omega
  have hsucc : arena.length = (2 * sym.length - 2) + 1 := by omega
  have hnot : (2 * sym.length - 2) ∉ childIds arena := by
    intro hc
    obtain ⟨j, w, l, r', hnode, hz⟩ := mem_childIds.1 hc
    have hj : j < arena.length := by
      by_contra hge
      rw [List.getElem?_eq_none (by omega)] at hnode; cases hnode
    have := internal_children h.leaves h.merges hnode
    omega
  have hroot : r = 2 * sym.length - 2 := by
    have : (2 * sym.length - 2) ∈ [r] ++ childIds arena := by
      rw [h.all.mem_iff, List.mem_range]; omega
    simp only [List.cons_append, List.nil_append, List.mem_cons] at this
    exact (this.resolve_right hnot).symm
  refine ⟨hne, hsize, h.leaves, h.merges, ?_, by simpa using hroot, by simpa using h.weight⟩
  have hall := h.all
  rw [hsucc, List.range_succ, hroot] at hall
  have := hall.trans List.perm_append_comm
  simpa using this

end Sys2Proof.Machine
end

