-- ==== Sys2Proof/Laws/Codes.lean ====
section
/-! SUPPORT. Paths in a tree, and what the walk of the code generator does, said once (spec/43_code_generator.md R97). -/

namespace Sys2Proof.Machine

/-! ### Paths -/

@[simp] theorem follow_nil (arena : List Node) (j : Nat) : follow arena j [] = some j := by simp [follow]

theorem follow_internal {arena : List Node} {j : Nat} {w l r : Word} (h : arena[j]? = some (.internal w l r))
    (bit : Bool) (path : List Bool) :
    follow arena j (bit :: path) = follow arena (if bit then r else l).toNat path := by
  simp [follow, h]

theorem follow_leaf {arena : List Node} {j : Nat} {w v : Word} (h : arena[j]? = some (.leaf w v))
    (bit : Bool) (path : List Bool) : follow arena j (bit :: path) = none := by
  simp [follow, h]

theorem follow_cons {arena : List Node} {j k : Nat} {bit : Bool} {path : List Bool}
    (h : follow arena j (bit :: path) = some k) :
    ∃ w l r, arena[j]? = some (.internal w l r) ∧ follow arena (if bit then r else l).toNat path = some k := by
  simp only [follow] at h
  split at h
  · rename_i w l r hnode
    exact ⟨w, l, r, hnode, h⟩
  · cases h

theorem follow_append (arena : List Node) (j : Nat) (p q : List Bool) :
    follow arena j (p ++ q) = (follow arena j p).bind (fun m => follow arena m q) := by
  induction p generalizing j with
  | nil => simp
  | cons bit p ih =>
    simp only [List.cons_append, follow]
    split
    · exact ih _
    · rfl

/-- A node and its kind in a finished tree: below n a leaf, from n on an internal node with smaller children. -/
theorem TreeOk.kind {sym : List Slot} {arena : List Node} {root total : Nat} (h : TreeOk sym arena root total) {j : Nat}
    (hj : j < arena.length) :
    (j < sym.length ∧ ∃ w v, arena[j]? = some (.leaf w v)) ∨
      (sym.length ≤ j ∧ ∃ w l r, arena[j]? = some (.internal w l r) ∧ l.toNat < j ∧ r.toNat < j) := by
  by_cases hn : j < sym.length
  · exact .inl ⟨hn, _, _, leaf_of_take h.leaves hn⟩
  · obtain ⟨w, l, r, hnode, -, -⟩ := h.merges j (by omega) hj
    exact .inr ⟨by omega, w, l, r, hnode, (internal_children h.leaves h.merges hnode).2⟩

theorem TreeOk.root_lt {sym : List Slot} {arena : List Node} {root total : Nat} (h : TreeOk sym arena root total) :
    root < arena.length := by
  have := h.rootId; have := h.size; have := h.nonempty; omega

/-- A path that is not empty leads to a smaller id. -/
theorem TreeOk.follow_le {sym : List Slot} {arena : List Node} {root total : Nat} (h : TreeOk sym arena root total)
    {path : List Bool} {j k : Nat} (hf : follow arena j path = some k) : k + path.length ≤ j := by
  induction path generalizing j with
  | nil => simp at hf; simp [hf]
  | cons bit path ih =>
    obtain ⟨w, l, r, hnode, hrest⟩ := follow_cons hf
    have hc := internal_children h.leaves h.merges hnode
    have := ih hrest
    cases bit <;> simp at this ⊢ <;> omega

/-- Every node is reached from the root. -/
theorem TreeOk.follow_exists {sym : List Slot} {arena : List Node} {root total : Nat}
    (h : TreeOk sym arena root total) {k : Nat} (hk : k < arena.length) : ∃ path, follow arena root path = some k := by
  have key : ∀ m k, k + m = root → ∃ path, follow arena root path = some k := by
    intro m
    induction m using Nat.strong_induction_on with
    | _ m ih =>
      intro k hm
      by_cases h0 : m = 0
      · exact ⟨[], by simp; omega⟩
      · have hroot := h.rootId
        have hmem : k ∈ childIds arena := by rw [h.owned.mem_iff, List.mem_range]; omega
        obtain ⟨j, w, l, r, hnode, hz⟩ := mem_childIds.1 hmem
        have hc := internal_children h.leaves h.merges hnode
        have hj : j < arena.length := by
          by_contra hge
          rw [List.getElem?_eq_none (by omega)] at hnode; cases hnode
        have hsize := h.size
        obtain ⟨path, hpath⟩ := ih (root - j) (by omega) j (by omega)
        rcases hz with rfl | rfl
        · exact ⟨path ++ [false], by simp [follow_append, hpath, follow_internal hnode]⟩
        · exact ⟨path ++ [true], by simp [follow_append, hpath, follow_internal hnode]⟩
  have := h.root_lt; have := h.rootId; have := h.size
  exact key (root - k) k (by omega)

/-- The places where an id stands in `childIds`: a child has one parent, and is its left or its right child. -/
theorem TreeOk.parent_unique {sym : List Slot} {arena : List Node} {root total : Nat}
    (h : TreeOk sym arena root total) {i j : Nat} {w l r w' l' r' : Word} {bit bit' : Bool}
    (hi : arena[i]? = some (.internal w l r)) (hj : arena[j]? = some (.internal w' l' r'))
    (he : (if bit then r else l).toNat = (if bit' then r' else l').toNat) : i = j ∧ bit = bit' := by
  have hnd : (childIds arena).Nodup := h.owned.nodup_iff.2 List.nodup_range
  simp only [childIds, List.nodup_flatMap] at hnd
  obtain ⟨hself, hpair⟩ := hnd
  have hij : i = j := by
    by_contra hne
    have hi' : i < arena.length := by by_contra hc; rw [List.getElem?_eq_none (by omega)] at hi; cases hi
    have hj' : j < arena.length := by by_contra hc; rw [List.getElem?_eq_none (by omega)] at hj; cases hj
    rw [List.getElem?_eq_getElem hi', Option.some.injEq] at hi
    rw [List.getElem?_eq_getElem hj', Option.some.injEq] at hj
    rcases Nat.lt_or_gt_of_ne hne with hlt | hlt
    · have := List.pairwise_iff_getElem.1 hpair i j hi' hj' hlt
      simp only [Function.onFun, hi, hj] at this
      exact this (a := (if bit then r else l).toNat) (by cases bit <;> simp) (by rw [he]; cases bit' <;> simp)
    · have := List.pairwise_iff_getElem.1 hpair j i hj' hi' hlt
      simp only [Function.onFun, hi, hj] at this
      exact this (a := (if bit then r else l).toNat) (by rw [he]; cases bit' <;> simp) (by cases bit <;> simp)
  subst hij
  rw [hi] at hj
  cases hj
  have := hself _ (List.mem_of_getElem? hi)
  simp at this
  refine ⟨rfl, ?_⟩
  cases bit <;> cases bit' <;> simp at he ⊢
  · exact this he
  · exact this he.symm

/-- A node has one path from the root. -/
theorem TreeOk.follow_unique {sym : List Slot} {arena : List Node} {root total : Nat}
    (h : TreeOk sym arena root total) {p q : List Bool} {k : Nat}
    (hp : follow arena root p = some k) (hq : follow arena root q = some k) : p = q := by
  induction p using List.reverseRecOn generalizing q k with
  | nil =>
    simp at hp
    have := h.follow_le hq
    exact (List.length_eq_zero_iff.1 (by omega)).symm
  | append_singleton p bit ih =>
    cases q using List.reverseRecOn with
    | nil =>
      simp at hq
      have := h.follow_le hp
      simp at this; omega
    | append_singleton q bit' =>
      rw [follow_append] at hp hq
      obtain ⟨i, hi, hp'⟩ := Option.bind_eq_some_iff.1 hp
      obtain ⟨j, hj, hq'⟩ := Option.bind_eq_some_iff.1 hq
      obtain ⟨w, l, r, hni, hpi⟩ := follow_cons hp'
      obtain ⟨w', l', r', hnj, hqj⟩ := follow_cons hq'
      simp only [follow_nil, Option.some.injEq] at hpi hqj
      obtain ⟨rfl, rfl⟩ := h.parent_unique hni hnj (hpi.trans hqj.symm)
      rw [ih hi hj]

/-! ### The walk (R97) -/

/-- The leaves below node `j` with their paths from it, in the order of the walk. `fuel` is any bound above `j`. -/
def leavesBelow (arena : List Node) : Nat → Nat → List Bool → List (Nat × List Bool)
  | 0, _, _ => []
  | fuel + 1, j, path =>
    match arena[j]? with
    | some (.internal _ l r) =>
      leavesBelow arena fuel l.toNat (path ++ [false]) ++ leavesBelow arena fuel r.toNat (path ++ [true])
    | _ => [(j, path)]

/-- The code table after recording these leaves' paths. -/
def recordAll (codes : List Code) : List (Nat × List Bool) → List Code
  | [] => codes
  | (j, path) :: rest => recordAll (codes.set j (codeOf path)) rest

@[simp] theorem recordAll_length (codes : List Code) (l : List (Nat × List Bool)) :
    (recordAll codes l).length = codes.length := by
  induction l generalizing codes with
  | nil => rfl
  | cons p l ih => simp [recordAll, ih]

theorem recordAll_append (codes : List Code) (l₁ l₂ : List (Nat × List Bool)) :
    recordAll codes (l₁ ++ l₂) = recordAll (recordAll codes l₁) l₂ := by
  induction l₁ generalizing codes with
  | nil => rfl
  | cons p l ih => simp [recordAll, ih]

/-- The leaves below an internal node: those below its left child, then those below its right child. -/
theorem leavesBelow_internal {arena : List Node} {fuel j : Nat} {path : List Bool} {w l r : Word}
    (hnode : arena[j]? = some (.internal w l r)) :
    leavesBelow arena (fuel + 1) j path =
      leavesBelow arena fuel l.toNat (path ++ [false]) ++ leavesBelow arena fuel r.toNat (path ++ [true]) := by
  simp only [leavesBelow, hnode]

theorem leavesBelow_leaf {arena : List Node} {fuel j : Nat} {path : List Bool} {w v : Word}
    (hnode : arena[j]? = some (.leaf w v)) : leavesBelow arena (fuel + 1) j path = [(j, path)] := by
  simp only [leavesBelow, hnode]

/-- On a finished tree the walk records every leaf below, or stops at a leaf deeper than L_MAX; it is never broken. -/
theorem visit_spec {sym : List Slot} {arena : List Node} {root total lMax : Nat} (h : TreeOk sym arena root total)
    {fuel j : Nat} {path : List Bool} {codes : List Code} (hj : j < fuel) (hlen : j < arena.length)
    (hc : codes.length = sym.length) :
    ((∀ p ∈ leavesBelow arena fuel j path, p.2.length ≤ lMax) →
      visit arena lMax fuel j path codes = .done (recordAll codes (leavesBelow arena fuel j path))) ∧
    ((∃ p ∈ leavesBelow arena fuel j path, lMax < p.2.length) → visit arena lMax fuel j path codes = .overflow) := by
  induction fuel generalizing j path codes with
  | zero => omega
  | succ fuel ih =>
    rcases h.kind hlen with ⟨hn, w, v, hnode⟩ | ⟨hn, w, l, r, hnode, hl, hr⟩
    · rw [leavesBelow_leaf hnode]
      by_cases hov : lMax < path.length
      · simp [visit, hnode, hov]
      · simp [visit, hnode, hov, recordAll, hc, hn]
    · obtain ⟨hl₁, hl₂⟩ := ih (j := l.toNat) (path := path ++ [false]) (codes := codes) (by omega) (by omega) hc
      rw [leavesBelow_internal hnode]
      simp only [visit, hnode, recordAll_append, List.mem_append]
      by_cases hov : ∃ p ∈ leavesBelow arena fuel l.toNat (path ++ [false]), lMax < p.2.length
      · simp only [hl₂ hov, implies_true, and_true]
        intro hall
        obtain ⟨p, hp, hlt⟩ := hov
        exact absurd (hall p (Or.inl hp)) (by omega)
      · have hle : ∀ p ∈ leavesBelow arena fuel l.toNat (path ++ [false]), p.2.length ≤ lMax := fun p hp => by
          by_contra hlt; exact hov ⟨p, hp, by omega⟩
        obtain ⟨hr₁, hr₂⟩ := ih (j := r.toNat) (path := path ++ [true])
          (codes := recordAll codes (leavesBelow arena fuel l.toNat (path ++ [false]))) (by omega) (by omega)
          (by simpa using hc)
        rw [hl₁ hle]
        refine ⟨fun hall => hr₁ fun p hp => hall p (Or.inr hp), ?_⟩
        rintro ⟨p, hp | hp, hlt⟩
        · exact absurd (hle p hp) (by omega)
        · exact hr₂ ⟨p, hp, hlt⟩

/-- The leaves below a node are the ends of the paths from it. -/
theorem mem_leavesBelow {sym : List Slot} {arena : List Node} {root total : Nat} (h : TreeOk sym arena root total)
    {fuel j : Nat} {path : List Bool} (hj : j < fuel) (hlen : j < arena.length) {k : Nat} {p : List Bool} :
    (k, p) ∈ leavesBelow arena fuel j path ↔
      ∃ q, p = path ++ q ∧ k < sym.length ∧ follow arena j q = some k := by
  induction fuel generalizing j path with
  | zero => omega
  | succ fuel ih =>
    rcases h.kind hlen with ⟨hn, w, v, hnode⟩ | ⟨hn, w, l, r, hnode, hl, hr⟩
    · simp only [leavesBelow, hnode, List.mem_singleton, Prod.mk.injEq]
      constructor
      · rintro ⟨rfl, rfl⟩
        exact ⟨[], by simp, hn, by simp⟩
      · rintro ⟨q, rfl, hk, hf⟩
        cases q with
        | nil => simp at hf; exact ⟨hf.symm, by simp⟩
        | cons bit q => rw [follow_leaf hnode] at hf; cases hf
    · simp only [leavesBelow, hnode, List.mem_append]
      rw [ih (j := l.toNat) (path := path ++ [false]) (by omega) (by omega),
        ih (j := r.toNat) (path := path ++ [true]) (by omega) (by omega)]
      constructor
      · rintro (⟨q, rfl, hk, hf⟩ | ⟨q, rfl, hk, hf⟩)
        · exact ⟨false :: q, by simp, hk, by rw [follow_internal hnode]; exact hf⟩
        · exact ⟨true :: q, by simp, hk, by rw [follow_internal hnode]; exact hf⟩
      · rintro ⟨q, rfl, hk, hf⟩
        cases q with
        | nil => simp at hf; omega
        | cons bit q =>
          rw [follow_internal hnode] at hf
          cases bit
          · exact .inl ⟨q, by simp, hk, hf⟩
          · exact .inr ⟨q, by simp, hk, hf⟩

/-- A leaf's entry after recording is the code of its path, if every recording of that leaf has the same path. -/
theorem recordAll_get {codes : List Code} {l : List (Nat × List Bool)} {k : Nat} {p : List Bool}
    (hmem : (k, p) ∈ l) (huniq : ∀ q, (k, q) ∈ l → q = p) (hk : k < codes.length) :
    (recordAll codes l)[k]? = some (codeOf p) := by
  induction l using List.reverseRecOn generalizing codes with
  | nil => simp at hmem
  | append_singleton l e ih =>
    obtain ⟨j, q⟩ := e
    rw [recordAll_append]
    simp only [recordAll]
    by_cases hjk : j = k
    · subst hjk
      obtain rfl := huniq q (by simp)
      simp [hk]
    · rw [List.getElem?_set_ne hjk]
      refine ih ?_ (fun q' hq' => huniq q' (by simp [hq'])) hk
      simp only [List.mem_append, List.mem_singleton, Prod.mk.injEq] at hmem
      rcases hmem with hmem | ⟨h1, -⟩
      · exact hmem
      · exact absurd h1.symm hjk

end Sys2Proof.Machine
end

