-- ==== Sys2Proof/Laws/PerInstr.lean ====
section
/-! SUPPORT. Statements made per instruction. `FitsTable`: the word an instruction is encoded as is selected by its own row
of the opcode map, has no reserved bit set, and carries the instruction's opcode (spec/30_encoding.md R60, R62). -/

namespace Sys2Proof.Laws.FitsTable

def Statement (i : Instr) : Prop :=
  (tableRow i).selects (encode i) = true ∧ fieldRsv (encode i) = 0 ∧ fieldOp (encode i) = opcode i
    ∧ fieldNb (encode i) = nbField i

theorem nop : Statement .nop := ⟨rfl, rfl, rfl, rfl⟩
theorem clear : Statement .clear := ⟨rfl, rfl, rfl, rfl⟩
theorem feedBytes (nb : BitVec 2) : Statement (.feedBytes nb) := by
  unfold Statement
  revert nb
  decide
theorem feedRun : Statement .feedRun := ⟨rfl, rfl, rfl, rfl⟩
theorem flush : Statement .flush := ⟨rfl, rfl, rfl, rfl⟩
theorem buildTree : Statement .buildTree := ⟨rfl, rfl, rfl, rfl⟩
theorem genCodes : Statement .genCodes := ⟨rfl, rfl, rfl, rfl⟩

end Sys2Proof.Laws.FitsTable
end

