-- ==== Sys2Proof/Laws/Encoding.lean ====
section
/-! SUPPORT. The three fields of a command word determine it, and what the decoder does on each field (spec/30_encoding.md
R60, R66). -/

namespace Sys2Proof

/-- A word is its three fields (R60). -/
theorem word_eq_fields (w : Word) : w = fieldRsv w ++ fieldNb w ++ fieldOp w := by
  apply BitVec.eq_of_getLsbD_eq
  intro k hk
  simp only [fieldRsv, fieldNb, fieldOp, BitVec.getLsbD_append, BitVec.getLsbD_extractLsb']
  by_cases h8 : k < 8
  · simp [h8]
  · by_cases h10 : k < 10
    · have h1 : k - 8 < 2 := by omega
      have h2 : 8 + (k - 8) = k := by omega
      simp [h8, h1, h2]
    · have h1 : ¬ k - 8 < 2 := by omega
      have h3 : k - 8 - 2 < 22 := by omega
      have h2 : 10 + (k - 8 - 2) = k := by omega
      simp [h8, h1, h3, h2]

/-- Two words with the same fields are the same word. -/
theorem word_ext {v w : Word} (h₁ : fieldRsv v = fieldRsv w) (h₂ : fieldNb v = fieldNb w) (h₃ : fieldOp v = fieldOp w) :
    v = w := by
  rw [word_eq_fields v, word_eq_fields w, h₁, h₂, h₃]

/-- A word that decodes to an instruction has that instruction's fields. -/
theorem decode_fields {w : Word} {i : Instr} (h : decode w = .ok i) :
    fieldRsv w = 0 ∧ fieldNb w = nbField i ∧ fieldOp w = opcode i := by
  unfold decode at h
  split at h
  · cases h
  rename_i hr
  have hr : fieldRsv w = 0 := by simpa using hr
  split at h
  · rename_i ho
    cases h
    exact ⟨hr, rfl, ho⟩
  split at h
  · cases h
  rename_i hn
  have hn : fieldNb w = 0 := by simpa using hn
  repeat' split at h
  all_goals cases h
  all_goals exact ⟨hr, hn, by assumption⟩

end Sys2Proof
end

