-- ==== Sys2Proof/Laws/Ops.lean ====
section
/-! SUPPORT. What running one command, completing it and one step can do, said once: later proofs cite these and do not
unfold the dispatch (spec/40_command_cycle.md R72, R75). -/

namespace Sys2Proof.Machine

/-! ### Running one command (R75) -/

theorem runCommand_error {i : Instr} {body : Block → Effect} {s : State} (h : s.blk.phase = .error) :
    runCommand i body s = .next s := by simp [runCommand, h]

theorem runCommand_legal {i : Instr} {body : Block → Effect} {s : State} (h : s.blk.phase ≠ .error)
    (hl : legal i s.blk.phase = true) : runCommand i body s = conclude s (body s.blk) := by
  simp [runCommand, h, hl]

theorem runCommand_sequence {i : Instr} {body : Block → Effect} {s : State} (h : s.blk.phase ≠ .error)
    (hl : legal i s.blk.phase = false) : runCommand i body s = .next (raiseError ⟨.sequence, opcode i, 0⟩ s) := by
  simp [runCommand, h, hl]

/-- Everything a command that answers a next state can have done. -/
theorem runCommand_next {i : Instr} {body : Block → Effect} {s t : State} (h : runCommand i body s = .next t) :
    (s.blk.phase = .error ∧ t = s) ∨
    (s.blk.phase ≠ .error ∧ legal i s.blk.phase = false ∧ t = raiseError ⟨.sequence, opcode i, 0⟩ s) ∨
    (s.blk.phase ≠ .error ∧ legal i s.blk.phase = true ∧
      ((∃ b, body s.blk = .commit b ∧ t = s.withBlk b) ∨ ∃ r, body s.blk = .raise r ∧ t = raiseError r s)) := by
  unfold runCommand at h
  split at h
  · rename_i he
    cases h; exact .inl ⟨he, rfl⟩
  · rename_i he
    split at h
    · rename_i hl
      refine .inr (.inr ⟨he, hl, ?_⟩)
      cases hb : body s.blk with
      | commit b => rw [hb] at h; cases h; exact .inl ⟨b, rfl, rfl⟩
      | raise r => rw [hb] at h; cases h; exact .inr ⟨r, rfl, rfl⟩
      | stop f => rw [hb] at h; cases h
    · rename_i hl
      cases h
      exact .inr (.inl ⟨he, by simpa using hl, rfl⟩)

/-- The effect of each command other than CLEAR on the working copy. -/
def bodyOf (s : State) : Instr → Block → Effect
  | .nop => .commit
  | .clear => fun b => .commit (clearPipeline b)
  | .feedBytes nb => fun b => .ofExcept (feedBits s.cfg 0x02 (operandBits nb b.latArg) 0 b)
  | .feedRun => fun b => if b.latArg = 0 then .raise ⟨.badRun, 0x03, 0⟩ else .ofExcept (emit s.cfg b.latArg 0x03 0 b)
  | .flush => fun b => .ofExcept (flushInput s.cfg b)
  | .buildTree => buildTree
  | .genCodes => genCodes s.cfg

theorem exec_clear (s : State) : exec .clear s = .next (s.withBlk (clearPipeline s.blk)) := rfl

/-- Every command but CLEAR runs under the dispatch. -/
theorem exec_eq_runCommand {i : Instr} (hi : i ≠ .clear) (s : State) : exec i s = runCommand i (bodyOf s i) s := by
  cases i <;> first | rfl | exact absurd rfl hi

/-- A command changes S alone. -/
theorem exec_withBlk {i : Instr} {s t : State} (h : exec i s = .next t) : t = s.withBlk t.blk := by
  by_cases hi : i = .clear
  · subst hi; rw [exec_clear] at h; cases h; rfl
  · rw [exec_eq_runCommand hi] at h
    rcases runCommand_next h with ⟨-, rfl⟩ | ⟨-, -, rfl⟩ | ⟨-, -, ⟨b, -, rfl⟩ | ⟨r, -, rfl⟩⟩ <;> rfl

/-- No command is refused. -/
theorem exec_not_refused (i : Instr) (s : State) (r : Refusal) : exec i s ≠ .refused r := by
  intro h
  by_cases hi : i = .clear
  · subst hi; cases h
  · rw [exec_eq_runCommand hi] at h
    unfold runCommand at h
    split at h
    · cases h
    · split at h
      · cases hb : bodyOf s i s.blk <;> rw [hb] at h <;> cases h
      · cases h

/-! ### Completion and one step (R72, spec/20_memory.md R52) -/

/-- What `Execute` of the latched word leaves: the decoded command's state, or the illegal word's. -/
theorem execute_next {s t : State} (h : execute s = .next t) :
    (∃ i, decode (fetchWord s) = .ok i ∧ exec i s = .next t) ∨
    (∃ e, decode (fetchWord s) = .error e ∧ t = illegalCommand (fetchWord s) s) := by
  unfold execute at h
  split at h
  · rename_i i hi; exact .inl ⟨i, hi, h⟩
  · rename_i e he; cases h; exact .inr ⟨e, he, rfl⟩

theorem complete_next {s u : State} (h : complete s = .next u) :
    ∃ t, execute s = .next t ∧ u = t.withBlk (finish t.blk) := by
  unfold complete concludeCycle at h
  split at h
  · rename_i t ht; cases h; exact ⟨t, ht, rfl⟩
  · cases h
  · cases h

theorem execute_withBlk {s t : State} (h : execute s = .next t) : t = s.withBlk t.blk := by
  rcases execute_next h with ⟨i, -, hi⟩ | ⟨e, -, rfl⟩
  · exact exec_withBlk hi
  · unfold illegalCommand; split <;> rfl

@[simp] theorem turn_blk (s : State) : (turn s).blk = s.blk := by rfl
@[simp] theorem turn_cfg (s : State) : (turn s).cfg = s.cfg := by rfl
@[simp] theorem turn_prog (s : State) : (turn s).prog = s.prog := by rfl
@[simp] theorem turn_log (s : State) : (turn s).log = s.log := by rfl
@[simp] theorem turn_draws (s : State) : (turn s).draws = s.draws := by rfl
@[simp] theorem turn_sched (s : State) : (turn s).sched = s.sched.tail := by rfl

@[simp] theorem hostRead_blk (size : Size) (off : Nat) (s : State) : (hostRead size off s).blk = s.blk := by
  unfold hostRead; split <;> rfl
@[simp] theorem hostRead_cfg (size : Size) (off : Nat) (s : State) : (hostRead size off s).cfg = s.cfg := by
  unfold hostRead; split <;> rfl
@[simp] theorem hostRead_sched (size : Size) (off : Nat) (s : State) : (hostRead size off s).sched = s.sched := by
  unfold hostRead; split <;> rfl
@[simp] theorem hostRead_prog (size : Size) (off : Nat) (s : State) : (hostRead size off s).prog = s.prog := by
  unfold hostRead; split <;> rfl
@[simp] theorem hostWrite_cfg (size : Size) (off : Nat) (v : Word) (s : State) :
    (hostWrite size off v s).cfg = s.cfg := by
  unfold hostWrite; split <;> rfl
@[simp] theorem hostWrite_sched (size : Size) (off : Nat) (v : Word) (s : State) :
    (hostWrite size off v s).sched = s.sched := by
  unfold hostWrite; split <;> rfl
@[simp] theorem hostWrite_prog (size : Size) (off : Nat) (v : Word) (s : State) :
    (hostWrite size off v s).prog = s.prog := by
  unfold hostWrite; split <;> rfl

/-- What the host's move can do to S: nothing, or one write's effect (spec/20_memory.md R46, R52). -/
theorem hostStep_next {s t : State} (h : hostStep s = .next t) :
    t.cfg = s.cfg ∧ t.sched = s.sched ∧
      (t.blk = s.blk ∨ ∃ off v, isBusError .b32 off = false ∧ t.blk = writeWord off v s.blk) := by
  unfold hostStep at h
  split at h
  · cases h; exact ⟨rfl, rfl, .inl rfl⟩
  · rename_i op rest hprog
    cases op with
    | read size addr =>
      simp only [hostOp] at h
      split at h
      · cases h
      · cases h; simp
    | write size addr v =>
      simp only [hostOp] at h
      split at h
      · cases h
      · cases h
        refine ⟨by simp, by simp, ?_⟩
        unfold hostWrite
        split
        · exact .inl rfl
        · rename_i hb
          have hs : size = .b32 := by simp [isBusError] at hb; exact hb.1.1
          subst hs
          exact .inr ⟨_, v, by simpa using hb, rfl⟩
    | wait =>
      simp only [hostOp] at h
      cases h
      split <;> simp
    | waitIrq =>
      simp only [hostOp] at h
      cases h
      split <;> simp
    | checkNonempty =>
      simp only [hostOp] at h
      cases h
      split <;> simp

/-- Everything one step can do to S (spec/20_memory.md R52): the host writes or leaves S alone, the engine completes the
accepted command or has nothing to do, or the platform resets. -/
theorem step_cases {s t : State} (h : step s = .next t) :
    t.cfg = s.cfg ∧
    (t.blk = s.blk ∨
     (∃ off v, isBusError .b32 off = false ∧ t.blk = writeWord off v s.blk) ∨
     (s.blk.busy = true ∧ ∃ u, execute (turn s) = .next u ∧ t.blk = finish u.blk) ∨
     t.blk = Block.reset) := by
  unfold step at h
  cases ha : nextAgent s with
  | host =>
    rw [ha] at h
    obtain ⟨h1, -, h2⟩ := hostStep_next h
    refine ⟨by simpa using h1, ?_⟩
    rcases h2 with h2 | h2
    · exact .inl (by simpa using h2)
    · exact .inr (.inl (by simpa using h2))
  | engine =>
    rw [ha] at h
    simp only [agentStep, engineStep, turn_blk] at h
    by_cases hbusy : s.blk.busy = true
    · rw [if_pos hbusy] at h
      obtain ⟨u, hu, rfl⟩ := complete_next h
      have := execute_withBlk hu
      refine ⟨?_, .inr (.inr (.inl ⟨hbusy, u, hu, rfl⟩))⟩
      rw [this]; simp
    · rw [if_neg hbusy] at h
      cases h; simp
  | platform =>
    rw [ha] at h
    simp only [agentStep] at h
    cases h
    simp

end Sys2Proof.Machine
end

