-- ==== Sys2Proof/Laws/Invariant.lean ====
section
/-! SUPPORT. What each shared operation does to the invariant of S (spec/10_state.md R43): one lemma per operation. -/

namespace Sys2Proof.Machine

/-! ### The table is all that some parts of the invariant depend on -/

theorem TableOk.congr {c : Config} {b t : Block} (h : TableOk c b) (h₁ : t.sym = b.sym) (h₂ : t.nruns = b.nruns) :
    TableOk c t := by
  refine ⟨?_, ?_, ?_, ?_⟩
  · rw [Block.n, h₁]; exact h.fits
  · rw [h₁]; exact h.ascending
  · rw [h₁]; exact h.positive
  · rw [h₁, h₂]; exact h.sum

theorem CodesOk.congr {c : Config} {b t : Block} (h : CodesOk c b) (h₁ : t.sym = b.sym) (h₂ : t.node = b.node)
    (h₃ : t.root = b.root) (h₄ : t.code = b.code) (h₅ : t.total = b.total) (h₆ : t.maxlen = b.maxlen) :
    CodesOk c t := by
  have hp : ∀ j path, LeafPath t j path ↔ LeafPath b j path := by
    intro j path; simp only [LeafPath, Block.n, h₁, h₂, h₃]
  refine ⟨?_, ?_, ?_, ?_, ?_, ?_⟩
  · rw [h₄, Block.n, h₁]; exact h.size
  · rw [h₄]; exact h.lens
  · rw [h₄, Block.n, h₁]; exact h.single
  · intro hn j path hj
    rw [h₄]
    exact h.paths (by rw [Block.n, h₁] at hn; exact hn) j path ((hp j path).1 hj)
  · rw [h₅, h₄, h₁]; exact h.total
  · rw [h₆, h₄]; exact h.maxlen

/-! ### The handshake and the port -/

theorem BlockInv.setIe {c : Config} {b : Block} (h : BlockInv c b) (x : Bool) : BlockInv c { b with ie := x } :=
  { h with table := h.table.congr rfl rfl, codes := fun hc => (h.codes hc).congr rfl rfl rfl rfl rfl rfl }

theorem BlockInv.setArg {c : Config} {b : Block} (h : BlockInv c b) (v : Word) : BlockInv c { b with arg := v } :=
  { h with table := h.table.congr rfl rfl, codes := fun hc => (h.codes hc).congr rfl rfl rfl rfl rfl rfl }

theorem BlockInv.clearDone {c : Config} {b : Block} (h : BlockInv c b) : BlockInv c { b with done := false } :=
  { h with
    table := h.table.congr rfl rfl, codes := fun hc => (h.codes hc).congr rfl rfl rfl rfl rfl rfl
    busyDone := fun _ => rfl }

theorem BlockInv.accept {c : Config} {b : Block} (h : BlockInv c b) (w : Word) : BlockInv c (accept w b) :=
  { h with
    table := h.table.congr rfl rfl, codes := fun hc => (h.codes hc).congr rfl rfl rfl rfl rfl rfl
    busyDone := fun _ => rfl, idle := fun hb => by simp at hb, noOverrun := fun _ => rfl }

theorem BlockInv.overrunWrite {c : Config} {b : Block} (h : BlockInv c b) (hb : b.busy = true) (w : Word) :
    BlockInv c (overrunWrite w b) := by
  unfold Machine.overrunWrite
  split
  · exact h
  · exact { h with
      table := h.table.congr rfl rfl, codes := fun hc => (h.codes hc).congr rfl rfl rfl rfl rfl rfl
      idle := fun hi => by simp [hb] at hi, noOverrun := fun ho => by simp at ho }

/-- Every write keeps the invariant (spec/20_memory.md R46). -/
theorem BlockInv.writeWord {c : Config} {b : Block} (h : BlockInv c b) (off : Nat) (v : Word) :
    BlockInv c (writeWord off v b) := by
  unfold Machine.writeWord
  split
  · exact h.setIe _
  split
  · split
    · exact h.clearDone
    · exact h
  split
  · split
    · exact h.overrunWrite ‹_› v
    · exact h.accept v
  split
  · exact h.setArg v
  · exact h

theorem BlockInv.errorEntry {c : Config} {b : Block} (h : BlockInv c b) (r : Raise) (hr : r.code ≠ .none) :
    BlockInv c (errorEntry r b) where
  table := h.table.congr rfl rfl
  tree := h.tree
  noTree := h.noTree
  codes := fun hc => (h.codes hc).congr rfl rfl rfl rfl rfl rfl
  noCodes := h.noCodes
  codesTree := h.codesTree
  treePhase := fun hp => by simp at hp
  codesPhase := fun hp => by simp at hp
  errCode := by simp [hr]
  errClear := fun hp => by simp at hp
  flushed := fun hp => by simp at hp
  openOnes := fun hp => by simp at hp
  busyDone := h.busyDone
  idle := h.idle
  noOverrun := h.noOverrun

theorem BlockInv.close {c : Config} {b : Block} (h : BlockInv c b) :
    BlockInv c { b with overrun := false, overrunOp := 0, busy := false, done := true } :=
  { h with
    table := h.table.congr rfl rfl, codes := fun hc => (h.codes hc).congr rfl rfl rfl rfl rfl rfl
    busyDone := fun hb => by simp at hb, idle := fun _ => rfl, noOverrun := fun _ => rfl }

theorem BlockInv.finish {c : Config} {b : Block} (h : BlockInv c b) : BlockInv c (finish b) := by
  unfold Machine.finish
  split
  · exact (h.errorEntry _ (by simp)).close
  · exact h.close

theorem BlockInv.clearPipeline {c : Config} {b : Block} (h : BlockInv c b) : BlockInv c (clearPipeline b) where
  table := ⟨by simp [Block.n], by simp [Ascending], by simp, by simp⟩
  tree := fun ht => by simp at ht
  noTree := fun _ => ⟨rfl, rfl⟩
  codes := fun hc => by simp at hc
  noCodes := fun _ => ⟨rfl, rfl, rfl⟩
  codesTree := fun hc => by simp at hc
  treePhase := by simp
  codesPhase := by simp
  errCode := by simp
  errClear := fun _ => ⟨rfl, rfl⟩
  flushed := by simp
  openOnes := by simp
  busyDone := h.busyDone
  idle := h.idle
  noOverrun := h.noOverrun

theorem BlockInv_reset (c : Config) : BlockInv c Block.reset where
  table := ⟨by simp [Block.reset, Block.n], by simp [Block.reset, Ascending], by simp [Block.reset], by simp [Block.reset]⟩
  tree := fun ht => by simp [Block.reset] at ht
  noTree := fun _ => ⟨rfl, rfl⟩
  codes := fun hc => by simp [Block.reset] at hc
  noCodes := fun _ => ⟨rfl, rfl, rfl⟩
  codesTree := fun hc => by simp [Block.reset] at hc
  treePhase := by simp [Block.reset]
  codesPhase := by simp [Block.reset]
  errCode := by simp [Block.reset]
  errClear := fun _ => ⟨rfl, rfl⟩
  flushed := by simp [Block.reset]
  openOnes := by simp [Block.reset]
  busyDone := fun _ => rfl
  idle := fun _ => rfl
  noOverrun := fun _ => rfl

/-! ### The analyzer (spec/41_analyzer.md) -/

/-- The input commands' effect keeps the invariant while the table stays well formed. -/
theorem BlockInv.analyzed {c : Config} {b t : Block} (h : BlockInv c b) (hp : b.phase = .accum)
    (ht : t = { b with rleBit := t.rleBit, rleLen := t.rleLen, sym := t.sym, nruns := t.nruns })
    (htab : TableOk c t) (hopen : t.rleBit = true → t.rleLen ≠ 0) : BlockInv c t := by
  have hnt : b.treeValid = false := by
    have := (h.treePhase (by simp [hp])).1
    cases hv : b.treeValid with
    | false => rfl
    | true => simp [hp, hv] at this
  have hnc : b.codesValid = false := by
    cases hv : b.codesValid with
    | false => rfl
    | true => have := h.codesTree hv; simp [hnt] at this
  have e1 : t.phase = b.phase := by rw [ht]
  have e2 : t.treeValid = b.treeValid := by rw [ht]
  have e3 : t.codesValid = b.codesValid := by rw [ht]
  have e4 : t.errCode = b.errCode := by rw [ht]
  refine ⟨htab, ?_, ?_, ?_, ?_, ?_, ?_, ?_, ?_, ?_, ?_, fun _ => hopen, ?_, ?_, ?_⟩
  · rw [e2, hnt]; simp
  · intro _; rw [ht]; exact h.noTree hnt
  · rw [e3, hnc]; simp
  · intro _; rw [ht]; exact h.noCodes hnc
  · rw [e3, hnc]; simp
  · rw [e1, e2]; exact h.treePhase
  · rw [e1, e3]; exact h.codesPhase
  · rw [e1, e4]; exact h.errCode
  · rw [ht]; exact h.errClear
  · rw [e1, hp]; simp
  · rw [ht]; exact h.busyDone
  · rw [ht]; exact h.idle
  · rw [ht]; exact h.noOverrun

/-- One bit keeps the table well formed, and a run of ones never has length 0 (spec/41_analyzer.md R80, R81). -/
theorem rleStep_ok {c : Config} {bit : Bool} {op : Byte} {pos : Nat} {b t : Block} (ht : TableOk c b)
    (h : rleStep c bit op pos b = .ok t) :
    TableOk c t ∧ (t.rleBit = true → t.rleLen ≠ 0) := by
  unfold rleStep at h
  split at h
  · split at h
    · cases h
    · rename_i hne
      obtain rfl := Except.ok.inj h
      refine ⟨ht.congr rfl rfl, fun _ e => ?_⟩
      have := toNat_add_one_of_ne_max hne
      simp only at e
      rw [e] at this
      simp at this
  · split at h
    · obtain rfl := Except.ok.inj h
      exact ⟨ht.congr rfl rfl, fun _ => (by decide : (1 : Word) ≠ 0)⟩
    · rename_i hlen
      split at h
      · rename_i m hm
        obtain rfl := Except.ok.inj h
        exact ⟨(emit_ok ht hlen hm).2.1.congr rfl rfl, fun _ => (by decide : (1 : Word) ≠ 0)⟩
      · cases h

theorem feedBits_ok {c : Config} {op : Byte} {bits : List Bool} {pos : Nat} {b t : Block} (ht : TableOk c b)
    (ho : b.rleBit = true → b.rleLen ≠ 0) (h : feedBits c op bits pos b = .ok t) :
    TableOk c t ∧ (t.rleBit = true → t.rleLen ≠ 0) := by
  induction bits generalizing pos b with
  | nil => obtain rfl := Except.ok.inj h; exact ⟨ht, ho⟩
  | cons x xs ih =>
    simp only [feedBits] at h
    split at h
    · rename_i m hm
      obtain ⟨h1, h2⟩ := rleStep_ok ht hm
      exact ih h1 h2 h
    · cases h

/-- A sequence of bits that takes effect emits the runs it closes and leaves the last run open (spec/41_analyzer.md R84). -/
theorem feedBits_runs {c : Config} {op : Byte} {bits : List Bool} {pos : Nat} {b t : Block} (ht : TableOk c b)
    (h : feedBits c op bits pos b = .ok t) :
    t.rleBit = (openRun b.rleBit b.rleLen.toNat bits).1 ∧ t.rleLen.toNat = (openRun b.rleBit b.rleLen.toNat bits).2
      ∧ t.nruns.toNat = b.nruns.toNat + (closedRuns b.rleBit b.rleLen.toNat bits).length
      ∧ ∀ v, countIn t.sym v = countIn b.sym v + (closedRuns b.rleBit b.rleLen.toNat bits).count v := by
  induction bits generalizing pos b with
  | nil => obtain rfl := Except.ok.inj h; simp [openRun, closedRuns]
  | cons x xs ih =>
    simp only [feedBits] at h
    split at h
    case h_2 => cases h
    rename_i m hm
    have htm := (rleStep_ok ht hm).1
    have hrest := ih htm h
    unfold rleStep at hm
    by_cases hx : x = b.rleBit
    · rw [if_pos hx] at hm
      split at hm
      · cases hm
      · rename_i hne
        obtain rfl := Except.ok.inj hm
        simp only [toNat_add_one_of_ne_max hne] at hrest
        simpa only [openRun, closedRuns, if_pos hx] using hrest
    · rw [if_neg hx] at hm
      by_cases h0 : b.rleLen = 0
      · rw [if_pos h0] at hm
        obtain rfl := Except.ok.inj hm
        have e : b.rleLen.toNat = 0 := by rw [h0]; rfl
        simp only [openRun, closedRuns, if_neg hx, if_pos e]
        exact hrest
      · rw [if_neg h0] at hm
        split at hm
        case h_2 => cases hm
        rename_i u hu
        obtain rfl := Except.ok.inj hm
        have e : b.rleLen.toNat ≠ 0 := fun e => h0 (BitVec.eq_of_toNat_eq (by simpa using e))
        obtain ⟨-, -, h1, h2⟩ := emit_ok ht h0 hu
        obtain ⟨r1, r2, r3, r4⟩ := hrest
        simp only [openRun, closedRuns, if_neg hx, if_neg e]
        refine ⟨r1, r2, ?_, fun v => ?_⟩
        · simp only [List.length_cons] at *; rw [r3]; simp only [h1]; simp; omega
        · rw [r4 v]; simp only [h2 v, List.count_cons]; simp; omega

/-- Every error of the analyzer has a code. -/
theorem emit_raises {c : Config} {v : Word} {op : Byte} {pos : Nat} {b : Block} {r : Raise}
    (h : emit c v op pos b = .error r) : r.code = .countOverflow ∨ r.code = .tableFull := by
  unfold emit at h
  split at h
  · cases h; exact .inl rfl
  split at h
  · cases h
  split at h
  · cases h; exact .inr rfl
  · cases h

theorem rleStep_raises {c : Config} {bit : Bool} {op : Byte} {pos : Nat} {b : Block} {r : Raise}
    (h : rleStep c bit op pos b = .error r) :
    r.code = .runOverflow ∨ r.code = .countOverflow ∨ r.code = .tableFull := by
  unfold rleStep at h
  split at h
  · split at h
    · cases h; exact .inl rfl
    · cases h
  split at h
  · cases h
  split at h
  · cases h
  · rename_i e he; cases h; exact .inr (emit_raises he)

theorem feedBits_raises {c : Config} {op : Byte} {bits : List Bool} {pos : Nat} {b : Block} {r : Raise}
    (h : feedBits c op bits pos b = .error r) :
    r.code = .runOverflow ∨ r.code = .countOverflow ∨ r.code = .tableFull := by
  induction bits generalizing pos b with
  | nil => cases h
  | cons x xs ih =>
    simp only [feedBits] at h
    split at h
    · exact ih h
    · rename_i e he; cases h; exact rleStep_raises he

/-! ### The code generator (spec/43_code_generator.md R97 to R101) -/

/-- On a finished tree GEN_CODES raises CODE_OVERFLOW or gives every leaf the code of its path; it never stops. -/
theorem assignCodes_spec {sym : List Slot} {arena : List Node} {root total lMax : Nat}
    (h : TreeOk sym arena root total) :
    (assignCodes arena lMax root sym.length = .overflow ∧
      ∃ j path, j < sym.length ∧ follow arena root path = some j ∧ lMax < path.length) ∨
    ∃ codes, assignCodes arena lMax root sym.length = .done codes ∧ codes.length = sym.length ∧
      (sym.length = 1 → codes = [⟨1, 0⟩]) ∧
      (2 ≤ sym.length → ∀ j path, j < sym.length → follow arena root path = some j →
        codes[j]? = some (codeOf path) ∧ path.length ≤ lMax) := by
  have hroot := h.root_lt
  have hn := h.nonempty
  unfold assignCodes
  rcases h.kind hroot with ⟨hlt, w, v, hnode⟩ | ⟨hge, w, l, r, hnode, -, -⟩
  · have h1 : sym.length = 1 := by have := h.rootId; omega
    rw [hnode]
    refine .inr ⟨_, rfl, by simp, fun _ => by simp [h1], fun h2 => by omega⟩
  · have h2 : 2 ≤ sym.length := by have := h.rootId; omega
    rw [hnode]
    have hv := visit_spec (lMax := lMax) (fuel := arena.length) (path := [])
      (codes := List.replicate sym.length ⟨0, 0⟩) h hroot hroot (by simp)
    by_cases ho : ∃ p ∈ leavesBelow arena arena.length root [], lMax < p.2.length
    · refine .inl ⟨hv.2 ho, ?_⟩
      obtain ⟨⟨j, p⟩, hmem, hlen⟩ := ho
      obtain ⟨q, hq, hj, hf⟩ := (mem_leavesBelow h hroot hroot).1 hmem
      exact ⟨j, q, hj, hf, by simpa [hq] using hlen⟩
    · push Not at ho
      refine .inr ⟨_, hv.1 ho, by simp, fun h1 => by omega, fun _ j path hj hf => ?_⟩
      have hmem : (j, path) ∈ leavesBelow arena arena.length root [] :=
        (mem_leavesBelow h hroot hroot).2 ⟨path, by simp, hj, hf⟩
      refine ⟨recordAll_get hmem (fun q hq => ?_) (by simpa using hj), ho _ hmem⟩
      obtain ⟨q', hq', -, hf'⟩ := (mem_leavesBelow h hroot hroot).1 hq
      simpa [hq'] using h.follow_unique hf' hf

theorem codeOf_len_toNat {path : List Bool} (h : path.length ≤ 64) : (codeOf path).len.toNat = path.length := by
  simp [codeOf]; omega

theorem maxLenOf_le {codes : List Code} {m : Nat} (h : ∀ e ∈ codes, e.len.toNat ≤ m) : maxLenOf codes ≤ m := by
  induction codes with
  | nil => simp [maxLenOf]
  | cons c cs ih =>
    have := ih (fun e he => h e (by simp [he]))
    have := h c (by simp)
    simp only [maxLenOf, List.foldr_cons] at *; omega

theorem totalOf_le {codes : List Code} {sym : List Slot} {m : Nat} (h : ∀ e ∈ codes, e.len.toNat ≤ m) :
    totalOf codes sym ≤ m * countSum sym := by
  induction codes generalizing sym with
  | nil => simp [totalOf]
  | cons c cs ih =>
    cases sym with
    | nil => simp [totalOf]
    | cons t ts =>
      have := ih (sym := ts) (fun e he => h e (by simp [he]))
      have := Nat.mul_le_mul_right t.count.toNat (h c (by simp))
      simp only [totalOf, countSum_cons, Nat.mul_add]
      omega

theorem BlockInv.codesValid_false {c : Config} {b : Block} (h : BlockInv c b) (he : b.phase ≠ .error)
    (hp : b.phase ≠ .coded) : b.codesValid = false := by
  cases hv : b.codesValid with
  | false => rfl
  | true => exact absurd ((h.codesPhase he).1 hv) hp

/-- GEN_CODES in phase TREE commits a state that meets the invariant, or raises CODE_OVERFLOW (R101). -/
theorem genCodes_keeps {c : Config} {b : Block} (hc : c.wf = true) (h : BlockInv c b) (hp : b.phase = .tree) :
    (∃ t, genCodes c b = .commit t ∧ BlockInv c t ∧ t.busy = b.busy) ∨
      genCodes c b = .raise ⟨.codeOverflow, 6, 0⟩ := by
  have htv : b.treeValid = true := (h.treePhase (by simp [hp])).2 (.inl hp)
  have hl : 1 ≤ c.lMax ∧ c.lMax ≤ 64 := by simp [Config.wf] at hc; omega
  have ht := h.tree htv
  rcases assignCodes_spec (lMax := c.lMax) ht with ⟨h1, -⟩ | ⟨codes, h1, h2, h3, h4⟩
  · right; simp [genCodes, Block.n, h1]
  · left
    refine ⟨{ b with
      code := codes, total := BitVec.ofNat 64 (totalOf codes b.sym), maxlen := BitVec.ofNat 7 (maxLenOf codes)
      codesValid := true, phase := .coded }, by simp [genCodes, Block.n, h1], ?_, rfl⟩
    have hlens : ∀ e ∈ codes, 1 ≤ e.len.toNat ∧ e.len.toNat ≤ c.lMax := by
      intro e he
      by_cases hn : b.sym.length = 1
      · rw [h3 hn] at he; simp at he; subst he; simp; omega
      have hn2 : 2 ≤ b.sym.length := by have := ht.nonempty; omega
      obtain ⟨j, hj, rfl⟩ := List.getElem_of_mem he
      obtain ⟨path, hpath⟩ := ht.follow_exists (k := j) (by have := ht.size; omega)
      obtain ⟨h5, h6⟩ := h4 hn2 j path (by omega) hpath
      rw [List.getElem?_eq_getElem hj] at h5
      rw [Option.some.inj h5, codeOf_len_toNat (by omega)]
      refine ⟨?_, h6⟩
      cases path with
      | nil => simp at hpath; have := ht.rootId; omega
      | cons => simp
    have hncv := h.codesValid_false (by simp [hp]) (by simp [hp])
    refine { h with
      table := h.table.congr rfl rfl, codes := fun _ => ?_, noCodes := by simp, codesTree := fun _ => htv
      treePhase := by simp [htv], codesPhase := by simp, errCode := ?_, errClear := ?_, flushed := ?_
      openOnes := by simp }
    · refine ⟨h2, hlens, h3, fun hn j path hj => h4 hn j path hj.1 hj.2, ?_, ?_⟩
      · have := totalOf_le (sym := b.sym) (fun e he => (hlens e he).2)
        have := h.table.sum
        have := b.nruns.isLt
        have : c.lMax * countSum b.sym ≤ 64 * countSum b.sym := Nat.mul_le_mul_right _ (by omega)
        simp; omega
      · have := maxLenOf_le (fun e he => (hlens e he).2)
        simp; omega
    · have := h.errCode; simp [hp] at this; simpa using this
    · intro _; exact h.errClear (by simp [hp])
    · intro _; exact h.flushed (by simp [hp])

/-! ### The tree builder and FLUSH (spec/42_tree_builder.md R94, spec/41_analyzer.md R86) -/

/-- BUILD_TREE in phase FROZEN commits a state that meets the invariant, or raises INVALID_INPUT (R94). -/
theorem buildTree_keeps {c : Config} {b : Block} (hc : c.wf = true) (h : BlockInv c b) (hp : b.phase = .frozen) :
    (∃ t, buildTree b = .commit t ∧ BlockInv c t ∧ t.busy = b.busy) ∨ buildTree b = .raise ⟨.invalidInput, 5, 0⟩ := by
  by_cases hn : b.n = 0
  · right; simp [buildTree, hn]
  left
  refine ⟨{ b with
    node := (huffman b.sym).1, root := BitVec.ofNat 12 ((huffman b.sym).2.headD 0)
    treeValid := true, phase := .tree }, by simp [buildTree, hn], ?_, rfl⟩
  have hl : c.nSym ≤ 2048 := by simp [Config.wf] at hc; omega
  have hfit := h.table.fits
  have ht := huffman_treeOk (sym := b.sym) (Nat.one_le_iff_ne_zero.2 hn) (by simp only [Block.n] at hfit; omega)
    (by rw [← h.table.sum]; exact b.nruns.isLt)
  have hncv := h.codesValid_false (by simp [hp]) (by simp [hp])
  refine { h with
    table := h.table.congr rfl rfl, tree := fun _ => ?_, noTree := by simp, codes := by simp [hncv]
    codesTree := by simp [hncv], treePhase := by simp, codesPhase := by simp [hncv], errCode := ?_, errClear := ?_
    flushed := ?_, openOnes := by simp }
  · have hr := ht.rootId
    have : (BitVec.ofNat 12 ((huffman b.sym).2.headD 0)).toNat = (huffman b.sym).2.headD 0 := by
      rw [BitVec.toNat_ofNat]; apply Nat.mod_eq_of_lt; simp only [Block.n] at hfit; omega
    simp only [this]
    rw [h.table.sum]; exact ht
  · have := h.errCode; simp [hp] at this; simpa using this
  · intro _; exact h.errClear (by simp [hp])
  · intro _; exact h.flushed (by simp [hp])

theorem BlockInv.freeze {c : Config} {b : Block} (h : BlockInv c b) (hp : b.phase = .accum) :
    BlockInv c { b with rleLen := 0, phase := .frozen } := by
  have h1 := h.treePhase (by simp [hp])
  rw [hp] at h1
  have e1 : b.treeValid = false := by cases hv : b.treeValid <;> simp_all
  have e2 := h.codesValid_false (by simp [hp]) (by simp [hp])
  refine { h with
    table := h.table.congr rfl rfl, codes := by simp [e2], treePhase := by simp [e1], codesPhase := by simp [e2]
    errCode := ?_, errClear := ?_, flushed := by simp, openOnes := by simp }
  · have := h.errCode; simp [hp] at this; simpa using this
  · intro _; exact h.errClear (by simp [hp])

/-- A FLUSH that takes effect keeps the invariant (R86). -/
theorem flushInput_keeps {c : Config} {b t : Block} (h : BlockInv c b) (hp : b.phase = .accum)
    (hf : flushInput c b = .ok t) : BlockInv c t ∧ t.busy = b.busy := by
  unfold flushInput at hf
  split at hf
  · rename_i h0
    obtain rfl := Except.ok.inj hf
    have := h.freeze hp
    rw [← h0] at this
    exact ⟨this, rfl⟩
  · rename_i h0
    split at hf
    · rename_i m hm
      obtain rfl := Except.ok.inj hf
      obtain ⟨e1, e2, -, -⟩ := emit_ok h.table h0 hm
      have : BlockInv c m := h.analyzed hp (by rw [e1]) e2 (by rw [e1]; exact h.openOnes hp)
      exact ⟨this.freeze (by rw [e1]; exact hp), by simp only; rw [e1]⟩
    · cases hf

end Sys2Proof.Machine
end

