-- ==== Sys2Proof/Laws/Window.lean ====
section
/-! SUPPORT. The bits of the STATUS and CONFIG words, and the accesses that get no bus error, said once. -/

namespace Sys2Proof.Machine

/-- A test on a lower bit of a concatenation, and the same test on the whole. -/
theorem ite_eq_ite {α : Type} {p q : Prop} [Decidable p] [Decidable q] {a b c d : α} (h : p ↔ q) (h₁ : p → a = c)
    (h₂ : ¬ p → b = d) : (if p then a else b) = if q then c else d := by
  by_cases hp : p
  · rw [if_pos hp, if_pos (h.1 hp), h₁ hp]
  · rw [if_neg hp, if_neg (fun hq => hp (h.2 hq)), h₂ hp]

theorem ofBool_getLsbD_zero {j : Nat} (x : Bool) (h : j = 0) : (BitVec.ofBool x).getLsbD j = x := by
  subst h; simp

/-- Bit k of STATUS, field by field (spec/10_state.md R25). -/
theorem statusWord_getLsbD (b : Block) (k : Nat) :
    (statusWord b).getLsbD k =
      if k < 1 then b.busy
      else if k < 2 then b.done
      else if k < 3 then b.err
      else if k < 4 then b.treeValid
      else if k < 7 then b.phase.code.getLsbD (k - 4)
      else if k < 8 then b.codesValid
      else if k < 12 then b.errCode.code.getLsbD (k - 8)
      else if k < 16 then false
      else if k < 24 then b.errOp.getLsbD (k - 16)
      else if k < 29 then b.errPos.getLsbD (k - 24)
      else false := by
  simp only [statusWord, BitVec.getLsbD_append]
  refine ite_eq_ite (by omega) (fun _ => ofBool_getLsbD_zero _ (by omega)) fun _ => ?_
  refine ite_eq_ite (by omega) (fun _ => ofBool_getLsbD_zero _ (by omega)) fun _ => ?_
  refine ite_eq_ite (by omega) (fun _ => ofBool_getLsbD_zero _ (by omega)) fun _ => ?_
  refine ite_eq_ite (by omega) (fun _ => ofBool_getLsbD_zero _ (by omega)) fun _ => ?_
  refine ite_eq_ite (by omega) (fun _ => congrArg _ (by omega)) fun _ => ?_
  refine ite_eq_ite (by omega) (fun _ => ofBool_getLsbD_zero _ (by omega)) fun _ => ?_
  refine ite_eq_ite (by omega) (fun _ => congrArg _ (by omega)) fun _ => ?_
  refine ite_eq_ite (by omega) (fun _ => BitVec.getLsbD_zero) fun _ => ?_
  refine ite_eq_ite (by omega) (fun _ => congrArg _ (by omega)) fun _ => ?_
  exact ite_eq_ite (by omega) (fun _ => congrArg _ (by omega)) fun _ => BitVec.getLsbD_zero

/-- Bit k of CONFIG, field by field (spec/10_state.md R23). -/
theorem configWord_getLsbD (c : Config) (k : Nat) :
    (configWord c).getLsbD k =
      if k < 12 then (BitVec.ofNat 12 c.nSym).getLsbD k
      else if k < 16 then false
      else if k < 23 then (BitVec.ofNat 7 c.lMax).getLsbD (k - 16)
      else false := by
  simp only [configWord, BitVec.getLsbD_append]
  refine ite_eq_ite Iff.rfl (fun _ => rfl) fun _ => ?_
  refine ite_eq_ite (by omega) (fun _ => BitVec.getLsbD_zero) fun _ => ?_
  exact ite_eq_ite (by omega) (fun _ => congrArg _ (by omega)) fun _ => BitVec.getLsbD_zero

/-- A 32-bit access at a multiple of 4 in the window is taken (spec/20_memory.md R47, R48). -/
theorem isBusError_eq_false {off : Nat} (h₁ : off % 4 = 0) (h₂ : off < 0x30000) : isBusError .b32 off = false := by
  simp only [isBusError, decide_true, Bool.not_true, Bool.false_or, h₁, decide_eq_false_iff_not]
  omega

theorem hostWrite_taken {off : Nat} {v : Word} {s : State} (h : isBusError .b32 off = false) :
    hostWrite .b32 off v s = (s.withBlk (writeWord off v s.blk)).respond .writeDone := by
  simp [hostWrite, h]

theorem hostRead_taken {off : Nat} {s : State} (h : isBusError .b32 off = false) :
    hostRead .b32 off s =
      { s.respond (.readData (portValue s off)) with
        draws := if drawsFree s.blk off then s.draws + 1 else s.draws } := by
  simp [hostRead, h]

/-- Writes at offsets other than CTRL, STATUS, CMD and ARG change nothing (spec/20_memory.md R46). -/
theorem writeWord_other {off : Nat} {v : Word} {b : Block} (h₁ : off ≠ 0x0008) (h₂ : off ≠ 0x000C)
    (h₃ : off ≠ 0x0010) (h₄ : off ≠ 0x0014) : writeWord off v b = b := by
  simp [writeWord, h₁, h₂, h₃, h₄]

/-! ### The three parts of the window (spec/20_memory.md R49) -/

theorem readWord_register (c : Config) (b : Block) {off : Nat} (h : off < 0x10000) :
    readWord c b off = registerWord c b off := if_pos h

/-- The offsets that the register map names (spec/10_state.md R21), CMD apart, which reads 0 as a reserved one does. -/
def namedOffsets : List Nat :=
  [0x0000, 0x0004, 0x0008, 0x000C, 0x0014, 0x0018, 0x001C, 0x0020, 0x0024, 0x0028, 0x002C, 0x0030, 0x0034]

/-- CMD and the offsets that the register map does not name read 0 (spec/10_state.md R26, R35). -/
theorem registerWord_unnamed (c : Config) (b : Block) {off : Nat} (h : off ∉ namedOffsets) :
    registerWord c b off = 0 := by
  simp only [namedOffsets, List.mem_cons, List.not_mem_nil, not_or] at h
  simp [registerWord, h]

/-- What the SYM window offsets read (spec/10_state.md R38). -/
theorem readWord_sym (c : Config) (b : Block) {i k : Nat} (hi : i < 2048) (hk : k < 8) :
    readWord c b (0x10000 + 32 * i + 4 * k) = symWord b i k := by
  have hslot : (0x10000 + 32 * i + 4 * k - 0x10000) / 32 = i := by omega
  have hword : (0x10000 + 32 * i + 4 * k) % 32 / 4 = k := by omega
  rw [readWord, if_neg (by omega), if_pos (by omega), hslot, hword]

/-- What the NODE window offsets read (spec/10_state.md R40). -/
theorem readWord_node (c : Config) (b : Block) {j k : Nat} (hj : j < 4096) (hk : k < 4) :
    readWord c b (0x20000 + 16 * j + 4 * k) = nodeWord b j k := by
  have hentry : (0x20000 + 16 * j + 4 * k - 0x20000) / 16 = j := by omega
  have hword : (0x20000 + 16 * j + 4 * k) % 16 / 4 = k := by omega
  rw [readWord, if_neg (by omega), if_neg (by omega), if_pos (by omega), hentry, hword]

end Sys2Proof.Machine
end

