-- ==== Sys2Proof/Tests/Slice0.lean ====
section
/-! SUPPORT. Tests of the model against words and vectors of spec/95_test_vectors.md, smoke tests of WellFormed, and one
witness for the hypotheses of every statement. -/

namespace Sys2Proof.Tests

open Sys2Proof.Machine

/-! ### Small states -/

/-- An idle machine in phase p with the given table. -/
def tableAt (p : Phase) (sym : List Slot) (nruns : Word) : State :=
  { State.reset with blk := { Block.reset with phase := p, sym := sym, nruns := nruns } }

/-- The analyzer with an open run, an operand and a table. -/
def analyzerAt (bit : Bool) (len arg : Word) (sym : List Slot) (nruns : Word) : State :=
  { State.reset with
    blk := { Block.reset with rleBit := bit, rleLen := len, latArg := arg, sym := sym, nruns := nruns } }

/-- The same machine with other capacities. -/
def withCfg (nSym lMax : Nat) (s : State) : State := { s with cfg := { nSym := nSym, lMax := lMax, base := 0 } }

/-- The state that a command leaves. -/
def after (i : Instr) (s : State) : State := (nextState (exec i s)).getD s

/-- The state after one completion of the word w with the operand a (none if the step stops). -/
def completed (w a : Word) (s : State) : Option State :=
  nextState (step ((s.withBlk { s.blk with arg := a }).withFetchWord 32 w.toNat))

/-- STATUS after that completion (none if the step stops). -/
def statusAfter (w a : Word) (s : State) : Option Word := (completed w a s).map (fun t => statusWord t.blk)

/-- Phase ERROR after INVALID_INPUT, with the table given. -/
def errorAt (sym : List Slot) (nruns : Word) : State := raiseError ⟨.invalidInput, 0x05, 0⟩ (tableAt .frozen sym nruns)

/-- The table of vector T6 and program P2. -/
def frozen2 : State := tableAt .frozen [⟨4, 2⟩, ⟨8, 1⟩] 3
def tree2 : State := after .buildTree frozen2
def coded2 : State := after .genCodes tree2
/-- The table of vector T5 (scenario A). -/
def frozen1 : State := tableAt .frozen [⟨8, 1⟩] 1
def tree1 : State := after .buildTree frozen1
def coded1 : State := after .genCodes tree1
/-- The table of vector T1 (scenario C). -/
def frozen3 : State := tableAt .frozen [⟨1, 5⟩, ⟨2, 2⟩, ⟨3, 1⟩] 8
def tree3 : State := after .buildTree frozen3
def coded3 : State := after .genCodes tree3
/-- The tree of T1 where L_MAX is 1. -/
def tooDeep : State := after .buildTree (withCfg 4 1 frozen3)
/-- The tree of T6 with the smallest L_MAX that n = 2 allows. -/
def shallow : State := after .buildTree (withCfg 2 1 frozen2)

/-- A NOP accepted and a FLUSH dropped while it runs (vector K5). -/
def overrun : State := State.reset.withBlk (overrunWrite 0x4 (accept 0x0 Block.reset))

/-! ### WellFormed refuses (spec/00_scope.md R9, spec/20_memory.md R49, spec/10_state.md R21, spec/30_encoding.md R67, R68) -/

theorem test_wf_accepts : Config.example256.wf = true ∧ (Config.mk 1 1 0).wf = true
    ∧ (Config.mk 2048 64 0x40000).wf = true := by decide
theorem test_wf_nSym_zero : (Config.mk 0 64 0).wf = false := by decide
theorem test_wf_nSym_large : (Config.mk 2049 64 0).wf = false := by decide
theorem test_wf_lMax_zero : (Config.mk 256 0 0).wf = false := by decide
theorem test_wf_lMax_large : (Config.mk 256 65 0).wf = false := by decide
theorem test_wf_base : (Config.mk 256 64 0x1000).wf = false := by decide
theorem test_wf_sym : (Reg.sym 2048 .value).wf = false ∧ (Reg.sym 2047 .codeHi).wf = true := by decide
theorem test_wf_node : (Reg.node 4096 .kind).wf = false ∧ (Reg.node 4095 .b).wf = true := by decide
theorem test_wf_rd : (Item.rd (.sym 2048 .value)).wf = false := by decide
theorem test_wf_wr : (Item.wr (.node 4096 .kind) 0).wf = false := by decide
theorem test_wf_feedBytes_zero : (Item.feedBytes 0 0).wf = false := by decide
theorem test_wf_feedBytes_five : (Item.feedBytes 5 0).wf = false := by decide
theorem test_wf_feed_empty : (Item.feed []).wf = false := by decide

/-! ### Decoding, from the fields of R60 written bit by bit: RSV (22 bits), NB (2 bits), OP (8 bits) -/

theorem test_decode_nop : decode 0b0000000000000000000000_00_00000000#32 = .ok .nop := by decide
theorem test_decode_clear : decode 0b0000000000000000000000_00_00000001#32 = .ok .clear := by decide
theorem test_decode_feedBytes_one : decode 0b0000000000000000000000_00_00000010#32 = .ok (.feedBytes 0) := by decide
theorem test_decode_feedBytes_four : decode 0b0000000000000000000000_11_00000010#32 = .ok (.feedBytes 3) := by decide
theorem test_decode_feedRun : decode 0b0000000000000000000000_00_00000011#32 = .ok .feedRun := by decide
theorem test_decode_flush : decode 0b0000000000000000000000_00_00000100#32 = .ok .flush := by decide
theorem test_decode_buildTree : decode 0b0000000000000000000000_00_00000101#32 = .ok .buildTree := by decide
theorem test_decode_genCodes : decode 0b0000000000000000000000_00_00000110#32 = .ok .genCodes := by decide
theorem test_decode_bad_opcode : decode 0b0000000000000000000000_00_00000111#32 = .error .opcode := by decide
theorem test_decode_bad_nb : decode 0b0000000000000000000000_01_00000001#32 = .error .byteCount := by decide
theorem test_decode_bad_rsv : decode 0b0000000000000000000001_00_00000010#32 = .error .reserved := by decide
theorem test_decode_top_bit : decode 0b1000000000000000000000_00_00000000#32 = .error .reserved := by decide
theorem test_decodeTableWord : decodeTableWord 32 0x302 = some (.feedBytes 3) ∧ decodeTableWord 32 0x7 = none := by
  decide

/-! ### One step per command (the vectors are named) -/

/-- K10: NOP in phase TREE. -/
theorem test_nop_tree : statusAfter 0x0 0 tree2 = some 0x0000002A := by decide
/-- K5: the overrun of a dropped FLUSH. -/
theorem test_nop_overrun : (nextState (step overrun)).map (fun t => statusWord t.blk) = some 0x00040976 := by decide
/-- X1: CLEAR from CODED. -/
theorem test_clear_coded : (completed 0x1 2 coded3).map (fun t => (statusWord t.blk, t.blk.arg, t.blk.n, t.blk.total))
    = some (0x00000002, 2, 0, 0) := by decide
/-- CLEAR out of ERROR (X2). -/
theorem test_clear_error : statusAfter 0x1 0 (errorAt [] 0) = some 0x00000002 := by decide
/-- A5: FEED_BYTES 2, 0x0000F00F. -/
theorem test_feedBytes_runs :
    (completed 0x102 0x0000F00F State.reset).map (fun t => (t.blk.sym, t.blk.nruns, t.blk.rleBit, t.blk.rleLen))
      = some ([⟨4, 1⟩, ⟨8, 1⟩], 2, true, 4) := by decide
/-- AE10: TABLE_FULL at bit 4, nothing committed. -/
theorem test_feedBytes_tableFull :
    (completed 0x2 0x0D (withCfg 1 64 State.reset)).map (fun t => (statusWord t.blk, t.blk.n, t.blk.rleLen))
      = some (0x04020776, 0, 0) := by decide
/-- A11, the second of its commands: the new slot goes to the front. -/
theorem test_feedRun_insert : (completed 0x3 3 (tableAt .accum [⟨5, 1⟩] 1)).map (fun t => (t.blk.sym, t.blk.nruns))
    = some ([⟨3, 1⟩, ⟨5, 1⟩], 2) := by decide
/-- AE6: COUNT_OVERFLOW before TABLE_FULL. -/
theorem test_feedRun_overflow :
    statusAfter 0x3 2 (withCfg 1 64 (tableAt .accum [⟨1, 0xFFFFFFFF⟩] 0xFFFFFFFF)) = some 0x00030676 := by decide
/-- A5f: the trailing run is emitted, RLE_BIT stays. -/
theorem test_flush_trailing :
    (completed 0x4 0 (analyzerAt true 4 0 [⟨4, 1⟩, ⟨8, 1⟩] 2)).map
      (fun t => (statusWord t.blk, t.blk.sym, t.blk.rleBit, t.blk.rleLen))
      = some (0x00000012, [⟨4, 2⟩, ⟨8, 1⟩], true, 0) := by decide
/-- AE9: TABLE_FULL on FLUSH. -/
theorem test_flush_tableFull : statusAfter 0x4 0 (withCfg 1 64 (analyzerAt false 7 0 [⟨1, 1⟩] 1)) = some 0x00040776 := by
  decide
/-- T3: the tie at weight 2 goes to the lower id. -/
theorem test_buildTree_tie :
    (completed 0x5 0 (tableAt .frozen [⟨10, 1⟩, ⟨20, 1⟩, ⟨30, 2⟩, ⟨40, 4⟩] 8)).map
      (fun t => (statusWord t.blk, t.blk.node.drop 4, t.blk.root))
      = some (0x0000002A, [.internal 2 0 1, .internal 4 2 4, .internal 8 3 5], 6) := by decide
/-- TE1: BUILD_TREE on an empty table. -/
theorem test_buildTree_empty : statusAfter 0x5 0 (tableAt .frozen [] 0) = some 0x00050376 := by decide
/-- G1: codes LSB-first, TOTAL and MAXLEN. -/
theorem test_genCodes_scenarioC :
    (completed 0x6 0 tree3).map (fun t => (statusWord t.blk, t.blk.code, t.blk.total, t.blk.maxlen))
      = some (0x000000BA, [⟨1, 1⟩, ⟨2, 2⟩, ⟨2, 0⟩], 11, 2) := by decide
/-- GE1's shape: CODE_OVERFLOW keeps the tree. -/
theorem test_genCodes_overflow : statusAfter 0x6 0 tooDeep = some 0x0006087E := by decide
/-- An illegal word completes with ILLEGAL_CMD and its own opcode (R110). -/
theorem test_illegal : statusAfter 0x107 0 State.reset = some 0x00070176 := by decide

/-! ### The port (vectors of section 2.1) -/

theorem test_config_word : configWord ⟨2048, 1, 0⟩ = 0x00010800 ∧ configWord Config.example256 = 0x00400100 := by decide
theorem test_ctrl_write : (hostWrite .b32 0x8 0xFFFFFFFF State.reset).blk.ie = true := by decide
theorem test_status_write : statusWord (writeWord 0xC 0xFFFFFFFF { (errorAt [] 0).blk with done := true }) = 0x00050374 := by
  decide
theorem test_node_window :
    (List.range 4).map (fun k => readWord tree3.cfg tree3.blk (0x20030 + 4 * k)) = [2, 3, 2, 1]
    ∧ readWord tree3.cfg tree3.blk 0x20050 = 0 := by decide
theorem test_sym_window :
    [0x10020, 0x10024, 0x10028, 0x1002C, 0x10030, 0x10034].map (readWord coded3.cfg coded3.blk) = [2, 2, 2, 0, 2, 0] := by
  decide
/-- R68: FEED of five bytes is two FEED_BYTES lines. -/
theorem test_feed_groups : expand Config.example256 (.feed [1, 2, 3, 4, 5]) =
    [.write .b32 0x14 0x04030201, .write .b32 0x10 0x302, .wait,
      .write .b32 0x14 0x05, .write .b32 0x10 0x2, .wait] := by decide
theorem test_result : resultOf [.readData 1, .readData 0xFFFFFFF8] = some 0x1FFFFFFF8 := by decide

/-! ### States that meet the invariant -/

theorem inv_reset : Inv State.reset := ⟨by decide, BlockInv_reset _⟩

theorem tableOk_tableAt {c : Config} {p : Phase} {sym : List Slot} {nruns : Word} (h₁ : sym.length ≤ c.nSym)
    (h₂ : sym.Pairwise (fun t u => t.value < u.value)) (h₃ : ∀ t ∈ sym, t.value ≠ 0 ∧ t.count ≠ 0)
    (h₄ : nruns.toNat = countSum sym) : TableOk c (tableAt p sym nruns).blk := ⟨h₁, h₂, h₃, h₄⟩

theorem inv_tableAt {c : Config} {p : Phase} {sym : List Slot} {nruns : Word} (hc : c.wf = true)
    (hp : p = .accum ∨ p = .frozen) (h : TableOk c (tableAt p sym nruns).blk) :
    Inv { tableAt p sym nruns with cfg := c } := by
  refine ⟨hc, h, ?_, ?_, ?_, ?_, ?_, ?_, ?_, ?_, ?_, ?_, ?_, ?_, ?_, ?_⟩ <;>
    rcases hp with rfl | rfl <;> simp [tableAt, State.reset, Block.reset]

theorem inv_after_buildTree {s : State} (hi : Inv s) (hp : s.blk.phase = .frozen) : Inv (after .buildTree s) := by
  have he : exec .buildTree s = conclude s (buildTree s.blk) :=
    runCommand_legal (by simp [hp]) (by simp [hp, legal])
  unfold after
  rw [he]
  rcases buildTree_keeps hi.config hi.block hp with ⟨t, h1, h2, -⟩ | h1
  · rw [h1]; exact ⟨hi.config, h2⟩
  · rw [h1]; exact ⟨hi.config, hi.block.errorEntry _ (by decide)⟩

theorem inv_after_genCodes {s : State} (hi : Inv s) (hp : s.blk.phase = .tree) : Inv (after .genCodes s) := by
  have he : exec .genCodes s = conclude s (genCodes s.cfg s.blk) :=
    runCommand_legal (by simp [hp]) (by simp [hp, legal])
  unfold after
  rw [he]
  rcases genCodes_keeps hi.config hi.block hp with ⟨t, h1, h2, -⟩ | h1
  · rw [h1]; exact ⟨hi.config, h2⟩
  · rw [h1]; exact ⟨hi.config, hi.block.errorEntry _ (by decide)⟩

theorem inv_frozen0 : Inv (tableAt .frozen [] 0) :=
  inv_tableAt (c := Config.example256) (by decide) (.inr rfl)
    (tableOk_tableAt (by decide) (by decide) (by decide) (by decide))
theorem inv_frozen1 : Inv frozen1 :=
  inv_tableAt (c := Config.example256) (by decide) (.inr rfl)
    (tableOk_tableAt (by decide) (by decide) (by decide) (by decide))
theorem inv_frozen2 : Inv frozen2 :=
  inv_tableAt (c := Config.example256) (by decide) (.inr rfl)
    (tableOk_tableAt (by decide) (by decide) (by decide) (by decide))
theorem inv_frozen3 : Inv frozen3 :=
  inv_tableAt (c := Config.example256) (by decide) (.inr rfl)
    (tableOk_tableAt (by decide) (by decide) (by decide) (by decide))
theorem inv_tree1 : Inv tree1 := inv_after_buildTree inv_frozen1 rfl
theorem inv_tree2 : Inv tree2 := inv_after_buildTree inv_frozen2 rfl
theorem inv_tree3 : Inv tree3 := inv_after_buildTree inv_frozen3 rfl
theorem inv_coded1 : Inv coded1 := inv_after_genCodes inv_tree1 (by decide)
theorem inv_coded2 : Inv coded2 := inv_after_genCodes inv_tree2 (by decide)
theorem inv_coded3 : Inv coded3 := inv_after_genCodes inv_tree3 (by decide)
theorem inv_tooDeep : Inv tooDeep :=
  inv_after_buildTree (inv_tableAt (c := ⟨4, 1, 0⟩) (by decide) (.inr rfl)
    (tableOk_tableAt (by decide) (by decide) (by decide) (by decide))) rfl
theorem inv_shallow : Inv shallow :=
  inv_after_buildTree (inv_tableAt (c := ⟨2, 1, 0⟩) (by decide) (.inr rfl)
    (tableOk_tableAt (by decide) (by decide) (by decide) (by decide))) rfl
theorem inv_busy : Inv (State.reset.withFetchWord 32 0x2) := ⟨by decide, (BlockInv_reset _).accept _⟩
theorem inv_overrun : Inv overrun := ⟨by decide, ((BlockInv_reset _).accept _).overrunWrite rfl _⟩
theorem inv_error : Inv (errorAt [] 0) := ⟨by decide, inv_frozen0.block.errorEntry _ (by decide)⟩

/-! ### Witnesses: concrete states and operands that meet the hypotheses of each statement -/

theorem witness_DecodeInvertsEncode : decode 0x00000302 = .ok (.feedBytes 3) ∧ decode 0x00000006 = .ok .genCodes := by
  decide

theorem witness_OpcodeMapSelectsOneRow :
    (tableRow (.feedBytes 0)).selects 0x302 = true ∧ (tableRow (.feedBytes 3)).selects 0x302 = true := by decide

theorem witness_IllegalWordsEndInIllegalCmd :
    (∀ s ∈ [State.reset.withFetchWord 32 0x07, State.reset.withFetchWord 32 0x402, State.reset.withFetchWord 32 0x100],
      decode s.blk.latCmd ≠ .ok .nop ∧ (∃ e ∈ [Illegal.reserved, .byteCount, .opcode], decode s.blk.latCmd = .error e)
        ∧ s.blk.phase ≠ .error)
    ∧ decode ((errorAt [] 0).withFetchWord 32 0xFF).blk.latCmd = .error .opcode
    ∧ ((errorAt [] 0).withFetchWord 32 0xFF).blk.phase = .error := by decide

theorem witness_HostOperationsReachTheWindow :
    nextAgent State.reset = .host ∧ State.reset.prog = []
    ∧ (∀ off ∈ [0, 0x2FFFC], nextAgent { State.reset with prog := [.read .b32 (0 + off)] } = .host
        ∧ off % 4 = 0 ∧ off < 0x30000 ∧ State.reset.blk.busy = false)
    ∧ nextAgent { State.reset with prog := [.write .b8 0x10 1] } = .host
    ∧ ({ State.reset with cfg := ⟨1, 1, 0x40000⟩, prog := [.read .b32 0x3FFFF] }).prog = [.read .b32 0x3FFFF]
    ∧ 0x3FFFF < ({ State.reset with cfg := ⟨1, 1, 0x40000⟩ }).cfg.base := by decide

theorem witness_BusErrorsChangeNothing :
    (Size.b16 ≠ .b32 ∨ 0 % 4 ≠ 0 ∨ 0x30000 ≤ 0) ∧ (Size.b32 ≠ .b32 ∨ 1 % 4 ≠ 0 ∨ 0x30000 ≤ 1)
    ∧ (Size.b32 ≠ .b32 ∨ 0x30000 % 4 ≠ 0 ∨ 0x30000 ≤ 0x30000) := by decide

theorem witness_WritesHaveOneEffect :
    (0x2FFFF % 4 ≠ 0) ∧ 0x30000 ≤ 0x30000
    ∧ ∀ off ∈ [0x0000, 0x0004, 0x0018, 0x2FFFC], off % 4 = 0 ∧ off < 0x30000 ∧ off ≠ 0x0008 ∧ off ≠ 0x000C
        ∧ off ≠ 0x0010 ∧ off ≠ 0x0014 := by decide

theorem witness_AcceptanceLatchesCommandAndOperand : State.reset.blk.busy = false := by decide

theorem witness_OverrunRecordsFirstDroppedWord :
    (State.reset.withFetchWord 32 0x0).blk.busy = true ∧ (State.reset.withFetchWord 32 0x0).blk.overrun = false
    ∧ overrun.blk.busy = true ∧ overrun.blk.overrun = true := by decide

theorem witness_BusyReadsAreExactOrFree :
    Inv (State.reset.withFetchWord 32 0x2) ∧ (State.reset.withFetchWord 32 0x2).blk.busy = true
    ∧ (∀ off ∈ [0x0000, 0x0014], off % 4 = 0 ∧ off < 0x30000 ∧ off ≤ 0x0014)
    ∧ ∀ off ∈ [0x0018, 0x0034, 0x10000, 0x2FFFC],
        off % 4 = 0 ∧ off < 0x30000 ∧ (0x0018 ≤ off ∧ off ≤ 0x0034 ∨ 0x10000 ≤ off) :=
  ⟨inv_busy, by decide⟩

theorem witness_IdentificationRegistersReportConfiguration :
    State.reset.cfg.wf = true ∧ ({ State.reset with cfg := ⟨2048, 64, 0⟩ }).cfg.wf = true
    ∧ (∃ t, step State.reset = .next t) ∧ ∃ t, step (State.reset.withFetchWord 32 0x1) = .next t :=
  ⟨by decide, by decide, ⟨_, rfl⟩, ⟨_, rfl⟩⟩

theorem witness_ResultRegistersRead :
    Inv coded2 ∧ coded2.blk.busy = false ∧ coded2.blk.codesValid = true ∧ coded2.blk.treeValid = true
    ∧ State.reset.blk.busy = false ∧ State.reset.blk.codesValid = false ∧ State.reset.blk.treeValid = false
    ∧ ∀ off ∈ [0x0018, 0x0034], 0x0018 ≤ off ∧ off ≤ 0x0034 ∧ off % 4 = 0 := ⟨inv_coded2, by decide⟩

theorem witness_SymWindowWords :
    Inv coded2 ∧ coded2.blk.busy = false ∧ coded2.blk.codesValid = true ∧ tree2.blk.codesValid = false
    ∧ tree2.blk.busy = false ∧ coded2.blk.sym[1]? = some ⟨8, 1⟩ ∧ coded2.blk.code[1]? = some ⟨1, 0⟩ ∧ 1 < coded2.blk.n
    ∧ coded2.blk.n ≤ 2 ∧ coded2.cfg.nSym ≤ 256 ∧ (2047 < 2048 ∧ 7 < 8) :=
  ⟨inv_coded2, by decide⟩

theorem witness_NodeWindowWords :
    Inv tree2 ∧ tree2.blk.busy = false ∧ tree2.blk.treeValid = true ∧ State.reset.blk.treeValid = false
    ∧ State.reset.blk.busy = false
    ∧ 2 + 2 ≤ 2 * tree2.blk.n ∧ tree2.blk.node[2]? = some (.internal 3 1 0) ∧ tree2.blk.node[1]? = some (.leaf 1 8)
    ∧ 2 * tree2.blk.n < 3 + 2 ∧ 2 * tree2.cfg.nSym ≤ 511 + 1 ∧ (4095 < 4096 ∧ 3 < 4) :=
  ⟨inv_tree2, by decide⟩

theorem witness_ReservedOffsetsReadZero :
    ∀ off ∈ [0x0038, 0xFFFC], 0x0038 ≤ off ∧ off ≤ 0xFFFC ∧ off % 4 = 0 := by decide

theorem witness_InterruptLineFollowsDoneAndEnable :
    irq { Block.reset with ie := true, done := true } = true
    ∧ irq (hostWrite .b32 0x000C 2 (State.reset.withBlk { Block.reset with ie := true, done := true })).blk = false
    ∧ (2 : Word).getLsbD 1 = true ∧ (2 : Word).getLsbD 0 = false ∧ (1 : Word).getLsbD 0 = true
    ∧ State.reset.blk.busy = false ∧ ∃ t, complete (State.reset.withFetchWord 32 0x0) = .next t :=
  ⟨by decide, by decide, by decide, by decide, by decide, by decide, ⟨_, rfl⟩⟩

theorem witness_ResetRestoresEveryComponent : nextAgent { coded2 with sched := [.platform] } = .platform := by decide

theorem witness_StepRunsAcceptedCommand :
    nextAgent { State.reset with sched := [.engine] } = .engine ∧ State.reset.blk.busy = false
    ∧ (∀ s ∈ [State.reset.withFetchWord 32 0x07, (errorAt [] 0).withFetchWord 32 0x107],
        nextAgent s = .engine ∧ s.blk.busy = true ∧ ∃ e ∈ [Illegal.opcode, .byteCount], decode s.blk.latCmd = .error e)
    ∧ nextAgent (State.reset.withFetchWord 32 0x5) = .engine ∧ (State.reset.withFetchWord 32 0x5).blk.busy = true
    ∧ decode (State.reset.withFetchWord 32 0x5).blk.latCmd = .ok .buildTree
    ∧ (∃ t, exec .buildTree (turn (State.reset.withFetchWord 32 0x5)) = .next t)
    ∧ decode ((tableAt .tree [] 0).withFetchWord 32 0x6).blk.latCmd = .ok .genCodes
    ∧ ∃ f, exec .genCodes (turn ((tableAt .tree [] 0).withFetchWord 32 0x6)) = .fault f :=
  ⟨by decide, by decide, by decide, by decide, by decide, by decide, ⟨_, rfl⟩, by decide, ⟨_, rfl⟩⟩

theorem witness_StateChangesInThreeWays :
    ∀ s ∈ [{ State.reset with prog := [.write .b32 0x14 7] }, State.reset.withFetchWord 32 0x0,
        { coded2 with sched := [.platform] }],
      (nextState (step s)).map (fun t => decide (t.blk ≠ s.blk)) = some true := by decide

theorem witness_CompletionClosesTheHandshake :
    (∃ t, execute overrun = .next t ∧ t.blk.overrun = true ∧ t.blk.phase ≠ .error)
    ∧ (∃ t, execute (State.reset.withFetchWord 32 0x5) = .next t ∧ t.blk.overrun = false ∧ t.blk.phase = .error) :=
  ⟨⟨_, rfl, by decide⟩, ⟨_, rfl, by decide⟩⟩

theorem witness_OutOfPhaseCommandsRaiseSequence :
    frozen2.blk.phase ≠ .error ∧ frozen2.blk.phase ≠ .accum ∧ tree2.blk.phase ≠ .error ∧ tree2.blk.phase ≠ .frozen
    ∧ coded2.blk.phase ≠ .error ∧ coded2.blk.phase ≠ .tree := by decide

theorem witness_ErrorPhaseIsInert :
    (errorAt [] 0).blk.phase = .error ∧ decode ((errorAt [] 0).withFetchWord 32 0x7).blk.latCmd ≠ .ok .clear
    ∧ Instr.feedRun ≠ .clear := by decide

theorem witness_PhaseMovesOnlyAsTheTable :
    (∀ p ∈ [(Instr.nop, tree2), (.clear, coded2), (.feedBytes 3, State.reset), (.flush, State.reset),
        (.feedRun, analyzerAt false 0 1 [] 0), (.buildTree, frozen2), (.genCodes, tree2)],
      p.2.blk.phase ≠ .error ∧ (nextState (exec p.1 p.2)).map (fun t => decide (t.blk.phase = .error)) = some false)
    ∧ ∀ s ∈ [{ coded2 with sched := [.platform] }, coded2.withFetchWord 32 0x1, State.reset.withFetchWord 32 0x4,
        frozen2.withFetchWord 32 0x5, tree2.withFetchWord 32 0x6, tree2.withFetchWord 32 0x5],
      (nextState (step s)).map (fun t => decide (t.blk.phase ≠ s.blk.phase)) = some true := by decide

theorem witness_FailedCommandsCommitNothing :
    ∃ t, execute (State.reset.withFetchWord 32 0x3) = .next t
      ∧ (State.reset.withFetchWord 32 0x3).blk.phase ≠ .error ∧ t.blk.phase = .error
      ∧ ∃ t, execute overrun = .next t ∧ overrun.blk.phase ≠ .error ∧ t.blk.phase ≠ .error ∧ overrun.blk.overrun = true :=
  ⟨_, rfl, by decide, by decide, _, rfl, by decide⟩

theorem witness_ErrorLeftOnlyByClearOrReset :
    (∃ t, step ((errorAt [] 0).withFetchWord 32 0x1) = .next t ∧ t.blk.phase ≠ .error)
    ∧ (∃ t, step { errorAt [] 0 with sched := [.platform] } = .next t ∧ t.blk.phase ≠ .error)
    ∧ (errorAt [] 0).blk.phase = .error := ⟨⟨_, rfl, by decide⟩, ⟨_, rfl, by decide⟩, by decide⟩

/-- A FEED_RUN in ERROR, and K7: a CLEAR whose completion finds an overrun. -/
theorem witness_FirstErrorIsKept :
    (∃ t, step ((errorAt [] 0).withFetchWord 32 0x3) = .next t ∧ t.blk.phase = .error)
    ∧ (∃ t, step { errorAt [] 0 with blk := overrunWrite 0x0 (accept 0x1 (errorAt [] 0).blk) } = .next t
        ∧ t.blk.phase = .error) ∧ (errorAt [] 0).blk.phase = .error :=
  ⟨⟨_, rfl, by decide⟩, ⟨_, rfl, by decide⟩, by decide⟩

theorem witness_ValidFlagsSetAndCleared :
    (∀ s ∈ [frozen2.withFetchWord 32 0x5, coded2.withFetchWord 32 0x1, { tree2 with sched := [.platform] }],
      (nextState (step s)).map (fun t => decide (t.blk.treeValid ≠ s.blk.treeValid)) = some true)
    ∧ (∀ s ∈ [tree2.withFetchWord 32 0x6, coded2.withFetchWord 32 0x1, { coded2 with sched := [.platform] }],
      (nextState (step s)).map (fun t => decide (t.blk.codesValid ≠ s.blk.codesValid)) = some true)
    ∧ (∀ p ∈ [(Instr.buildTree, coded2, Phase.error), (.buildTree, frozen2, .tree), (.genCodes, tree2, .coded)],
      (nextState (exec p.1 p.2.1)).map (fun t => t.blk.phase) = some p.2.2)
    ∧ Inv coded2 ∧ coded2.blk.phase ≠ .error :=
  ⟨by decide, by decide, by decide, inv_coded2, by decide⟩

theorem witness_OperandLatchedAtAcceptance : ∃ t, complete (State.reset.withFetchWord 32 0x2) = .next t := ⟨_, rfl⟩

theorem witness_AcceptedCommandsComplete :
    Inv { State.reset.withFetchWord 32 0x2 with sched := [.host, .host] }
    ∧ Routed { State.reset.withFetchWord 32 0x2 with sched := [.host, .host] }
    ∧ (State.reset.withFetchWord 32 0x2).blk.busy = true :=
  ⟨⟨inv_busy.config, inv_busy.block⟩, fun _ h => absurd h (List.not_mem_nil), by decide⟩

theorem witness_CompletionDependsOnBlockOnly :
    (frozen2.withFetchWord 32 0x5).blk = ({ frozen2 with draws := 7, prog := [.wait] }.withFetchWord 32 0x5).blk
    ∧ ∃ t, complete (frozen2.withFetchWord 32 0x5) = .next t := ⟨by decide, ⟨_, rfl⟩⟩

theorem witness_NopChangesNothing :
    State.reset.blk.latCmd = 0 ∧ State.reset.blk.overrun = false
    ∧ overrun.blk.latCmd = 0 ∧ overrun.blk.overrun = true ∧ overrun.blk.phase ≠ .error := by decide

theorem witness_ClearRestoresStartState :
    (coded2.withFetchWord 32 0x1).blk.latCmd = 1 ∧ (coded2.withFetchWord 32 0x1).blk.overrun = false
    ∧ (overrunWrite 0x0 (accept 0x1 (errorAt [] 0).blk)).latCmd = 1
    ∧ (overrunWrite 0x0 (accept 0x1 (errorAt [] 0).blk)).overrun = true := by decide

/-- All runs of a full word of 32 bits (A9 before its FLUSH), and an open run that ends at length 2^32 - 1 beside a full
table. -/
theorem witness_FeedBytesCountsClosedRuns :
    (TableOk State.reset.cfg State.reset.blk ∧ State.reset.blk.phase = .accum
      ∧ (∀ r ∈ closedRuns false 0 (operandBits 3 0x55555555), r < 2 ^ 32)
      ∧ (openRun false 0 (operandBits 3 0x55555555)).2 < 2 ^ 32
      ∧ State.reset.blk.nruns.toNat + (closedRuns false 0 (operandBits 3 0x55555555)).length < 2 ^ 32
      ∧ (State.reset.blk.sym.map (fun t => t.value.toNat)
          ++ closedRuns false 0 (operandBits 3 0x55555555)).toFinset.card ≤ State.reset.cfg.nSym)
    ∧ (TableOk ⟨1, 1, 0⟩ (tableAt .accum [⟨1, 1⟩] 1).blk
      ∧ (∀ r ∈ closedRuns true 0xFFFFFFF7 (operandBits 0 0xFF), r < 2 ^ 32)
      ∧ (openRun true 0xFFFFFFF7 (operandBits 0 0xFF)).2 = 2 ^ 32 - 1
      ∧ ([1] ++ closedRuns true 0xFFFFFFF7 (operandBits 0 0xFF)).toFinset.card ≤ 1) :=
  ⟨⟨(BlockInv_reset _).table, by decide⟩, tableOk_tableAt (by decide) (by decide) (by decide) (by decide), by decide⟩

/-- AE3 (bit 0), the last of 32 bits, and AE10's kind of full table. -/
theorem witness_FeedBytesRaisesAtFirstBadBit :
    (operandBits 0 0 = [] ++ false :: List.replicate 7 false
      ∧ nextState (match feedBits Config.example256 0x02 [] 0 (analyzerAt false 0xFFFFFFFF 0 [] 0).blk with
          | .ok t => .next (State.reset.withBlk t) | .error _ => .fault .arenaNotATree)
        = some (State.reset.withBlk (analyzerAt false 0xFFFFFFFF 0 [] 0).blk))
    ∧ (operandBits 3 0x80000000 = List.replicate 31 false ++ true :: []
      ∧ (match feedBits Config.example256 0x02 (List.replicate 31 false) 0
            (analyzerAt false 0 0x80000000 [⟨1, 0xFFFFFFFF⟩] 0xFFFFFFFF).blk with
          | .ok t => decide (true ≠ t.rleBit ∧ t.rleLen ≠ 0 ∧ t.nruns = 0xFFFFFFFF)
          | .error _ => false) = true)
    ∧ (operandBits 0 0x0D = [true, false, true, true] ++ false :: [false, false, false]
      ∧ (match feedBits ⟨1, 64, 0⟩ 0x02 [true, false, true, true] 0 (analyzerAt false 0 0x0D [] 0).blk with
          | .ok t => decide (false ≠ t.rleBit ∧ t.rleLen ≠ 0 ∧ t.nruns ≠ 0xFFFFFFFF
              ∧ t.rleLen ∉ t.sym.map Slot.value ∧ 1 ≤ t.n)
          | .error _ => false) = true) := by decide

theorem witness_FeedRunCountsOneRun :
    TableOk ⟨1, 1, 0⟩ (tableAt .accum [⟨1, 1⟩] 1).blk ∧ (analyzerAt false 0 1 [⟨1, 1⟩] 1).blk.latArg ≠ 0
    ∧ (1 : Word) ∈ (tableAt .accum [⟨1, 1⟩] 1).blk.sym.map Slot.value ∧ (1 : Word) ≠ 0xFFFFFFFF
    ∧ (analyzerAt false 0 0xFFFFFFFF [] 0).blk.n < State.reset.cfg.nSym :=
  ⟨tableOk_tableAt (by decide) (by decide) (by decide) (by decide), by decide⟩

theorem witness_FlushClosesInput :
    TableOk State.reset.cfg State.reset.blk ∧ State.reset.blk.phase = .accum ∧ State.reset.blk.rleLen = 0
    ∧ TableOk State.reset.cfg (analyzerAt true 4 0 [⟨4, 1⟩, ⟨8, 1⟩] 2).blk
    ∧ (analyzerAt true 4 0 [⟨4, 1⟩, ⟨8, 1⟩] 2).blk.rleLen ≠ 0
    ∧ (analyzerAt true 4 0 [⟨4, 1⟩, ⟨8, 1⟩] 2).blk.nruns ≠ 0xFFFFFFFF
    ∧ (analyzerAt true 4 0 [⟨4, 1⟩, ⟨8, 1⟩] 2).blk.rleLen
        ∈ (analyzerAt true 4 0 [⟨4, 1⟩, ⟨8, 1⟩] 2).blk.sym.map Slot.value :=
  ⟨(BlockInv_reset _).table, by decide, by decide,
    (tableOk_tableAt (p := .accum) (by decide) (by decide) (by decide) (by decide)).congr rfl rfl, by decide⟩

/-- AE5 and AE7 for FEED_RUN, and AE9 for FLUSH. -/
theorem witness_CountingRaisesOverflowThenTableFull :
    (analyzerAt false 0 1 [⟨1, 0xFFFFFFFF⟩] 0xFFFFFFFF).blk.latArg ≠ 0
    ∧ (analyzerAt false 0 1 [⟨1, 0xFFFFFFFF⟩] 0xFFFFFFFF).blk.nruns = 0xFFFFFFFF
    ∧ (3 : Word) ∉ (analyzerAt false 0 3 [⟨1, 1⟩, ⟨2, 1⟩] 2).blk.sym.map Slot.value
    ∧ (withCfg 2 64 (analyzerAt false 0 3 [⟨1, 1⟩, ⟨2, 1⟩] 2)).cfg.nSym ≤ (analyzerAt false 0 3 [⟨1, 1⟩, ⟨2, 1⟩] 2).blk.n
    ∧ (analyzerAt false 7 0 [⟨1, 1⟩] 1).blk.rleLen ≠ 0
    ∧ (analyzerAt false 7 0 [⟨1, 1⟩] 1).blk.rleLen ∉ (analyzerAt false 7 0 [⟨1, 1⟩] 1).blk.sym.map Slot.value
    ∧ (withCfg 1 64 (analyzerAt false 7 0 [⟨1, 1⟩] 1)).cfg.nSym ≤ (analyzerAt false 7 0 [⟨1, 1⟩] 1).blk.n
    ∧ (analyzerAt false 7 0 [⟨1, 0xFFFFFFFF⟩] 0xFFFFFFFF).blk.nruns = 0xFFFFFFFF := by decide

theorem fresh_reset : Fresh State.reset := ⟨rfl, rfl, rfl, rfl, rfl⟩

/-- A13: FEED_BYTES 1, 0x0F; FEED_RUN 4; FLUSH. -/
theorem witness_FlushedTableCountsMaximalRuns :
    Fresh State.reset
    ∧ ∃ u, exec .flush (feedAll State.reset [.bytes 0 0x0F, .run 4]) = .next u ∧ u.blk.phase = .frozen
      ∧ u.blk.sym = [⟨4, 3⟩] := ⟨fresh_reset, _, rfl, by decide⟩

/-- A8a and A8b, with two FEED_RUN commands among them in either order. -/
theorem witness_TableIndependentOfSplit :
    Fresh State.reset
    ∧ inputBits [.bytes 1 0xFF00, .run 3, .run 5] = inputBits [.run 5, .bytes 0 0x00, .run 3, .bytes 0 0xFF]
    ∧ (inputRuns [.bytes 1 0xFF00, .run 3, .run 5]).Perm (inputRuns [.run 5, .bytes 0 0x00, .run 3, .bytes 0 0xFF])
    ∧ (feedAll State.reset [.bytes 1 0xFF00, .run 3, .run 5]).blk.phase = .accum
    ∧ (feedAll State.reset [.run 5, .bytes 0 0x00, .run 3, .bytes 0 0xFF]).blk.phase = .accum
    ∧ (∃ u, exec .flush (feedAll State.reset [.bytes 1 0xFF00, .run 3, .run 5]) = .next u ∧ u.blk.phase = .frozen)
    ∧ ∃ u, exec .flush (feedAll State.reset [.run 5, .bytes 0 0x00, .run 3, .bytes 0 0xFF]) = .next u
      ∧ u.blk.phase = .frozen :=
  ⟨fresh_reset, by decide, by decide, by decide, by decide, ⟨_, rfl, by decide⟩, ⟨_, rfl, by decide⟩⟩

/-- A5: FEED_BYTES 2, 0xF00F. -/
theorem witness_RunSumsAccountForEveryBit :
    Fresh State.reset ∧ inputRuns [.bytes 1 0xF00F] = []
    ∧ (feedAll State.reset [.bytes 1 0xF00F]).blk.phase = .accum
    ∧ (∃ u, exec .flush (feedAll State.reset [.bytes 1 0xF00F]) = .next u ∧ u.blk.phase = .frozen)
    ∧ inputBits [.bytes 1 0xF00F] ≠ [] := ⟨fresh_reset, by decide, by decide, ⟨_, rfl, by decide⟩, by decide⟩

theorem witness_OpenRunIsEmptyOnlyBeforeInput :
    Fresh State.reset ∧ (feedAll State.reset [.run 5]).blk.phase = .accum ∧ inputBits [.run 5] = []
    ∧ (feedAll State.reset [.bytes 0 0xFF]).blk.phase = .accum ∧ inputBits [.bytes 0 0xFF] ≠ []
    ∧ ∃ u, exec .flush (feedAll State.reset [.bytes 0 0xFF]) = .next u ∧ u.blk.phase = .frozen :=
  ⟨fresh_reset, by decide, by decide, by decide, by decide, ⟨_, rfl, by decide⟩⟩

theorem witness_BuildTreeBuildsHuffmanTree :
    Inv frozen1 ∧ frozen1.blk.phase = .frozen ∧ 1 ≤ frozen1.blk.n
    ∧ Inv frozen3 ∧ frozen3.blk.phase = .frozen ∧ 1 ≤ frozen3.blk.n :=
  ⟨inv_frozen1, by decide, by decide, inv_frozen3, by decide⟩

theorem witness_EmptyInputsAreRejected :
    (tableAt .frozen [] 0).blk.phase = .frozen ∧ (tableAt .frozen [] 0).blk.n = 0
    ∧ State.reset.blk.phase = .accum ∧ State.reset.blk.latArg = 0 := by decide

theorem witness_SingleLeafTree : frozen1.blk.phase = .frozen ∧ frozen1.blk.sym = [⟨8, 1⟩] := by decide

theorem witness_BuiltTreeLaws :
    Inv frozen3 ∧ (∃ t, exec .buildTree frozen3 = .next t ∧ t.blk.phase = .tree)
    ∧ Inv { frozen3 with draws := 1 } ∧ ({ frozen3 with draws := 1 } : State).blk.sym = frozen3.blk.sym
    ∧ ∃ t, exec .buildTree { frozen3 with draws := 1 } = .next t ∧ t.blk.phase = .tree :=
  ⟨inv_frozen3, ⟨_, rfl, by decide⟩, ⟨inv_frozen3.config, inv_frozen3.block⟩, rfl, ⟨_, rfl, by decide⟩⟩

theorem witness_GenCodesAssignsPaths :
    Inv tree3 ∧ tree3.blk.phase = .tree ∧ (∀ j path, LeafPath tree3.blk j path → path.length ≤ tree3.cfg.lMax)
    ∧ Inv tree1 ∧ tree1.blk.phase = .tree ∧ tree1.blk.n = 1 := by
  refine ⟨inv_tree3, by decide, fun j path h => ?_, inv_tree1, by decide, by decide⟩
  have h1 := (inv_tree3.block.tree (by decide)).follow_le h.2
  have h2 : tree3.blk.root.toNat = 4 := by decide
  have h3 : tree3.cfg.lMax = 64 := by decide
  omega

/-- The leaf of value 2 in T1 lies at depth 2; L_MAX is 1. And n - 1 = L_MAX = 1. -/
theorem witness_GenCodesRaisesCodeOverflow :
    (Inv tooDeep ∧ tooDeep.blk.phase = .tree
      ∧ ∃ j path, LeafPath tooDeep.blk j path ∧ tooDeep.cfg.lMax < path.length)
    ∧ Inv shallow ∧ shallow.blk.phase = .tree ∧ shallow.blk.n - 1 ≤ shallow.cfg.lMax :=
  ⟨⟨inv_tooDeep, by decide, 1, [false, true], ⟨by decide, by decide⟩, by decide⟩, inv_shallow, by decide⟩

theorem witness_StoredCodesAreLsbFirst :
    (Inv coded1 ∧ coded1.blk.codesValid = true ∧ coded1.blk.n = 1)
    ∧ Inv coded3 ∧ coded3.blk.codesValid = true ∧ 2 ≤ coded3.blk.n ∧ LeafPath coded3.blk 1 [false, true] :=
  ⟨⟨inv_coded1, by decide⟩, inv_coded3, by decide, by decide, ⟨by decide, by decide⟩⟩

theorem witness_TotalIsWeightedLengthSum : Inv coded3 ∧ coded3.blk.codesValid = true := ⟨inv_coded3, by decide⟩

theorem witness_CodesArePrefixFree : Inv coded3 ∧ coded3.blk.codesValid = true ∧ coded3.blk.code.length = 3 :=
  ⟨inv_coded3, by decide⟩

theorem witness_CodeLengthsAreMonotone :
    Inv coded3 ∧ coded3.blk.codesValid = true ∧ coded3.blk.sym[0]? = some ⟨1, 5⟩ ∧ coded3.blk.sym[2]? = some ⟨3, 1⟩
    ∧ coded3.blk.code[0]? = some ⟨1, 1⟩ ∧ coded3.blk.code[2]? = some ⟨2, 0⟩ ∧ (1 : Word) < 5 :=
  ⟨inv_coded3, by decide⟩

theorem witness_TotalIsMinimal :
    (Inv coded3 ∧ coded3.blk.codesValid = true ∧ 2 ≤ coded3.blk.n
      ∧ [[true], [false, true], [false, false]].length = coded3.blk.n
      ∧ PrefixFree [[true], [false, true], [false, false]])
    ∧ Inv coded1 ∧ coded1.blk.codesValid = true ∧ coded1.blk.n = 1 :=
  ⟨⟨inv_coded3, by decide, by decide, by decide, by unfold PrefixFree; decide⟩, inv_coded1, by decide⟩

theorem witness_CodeLengthsFillTheTree :
    (Inv coded3 ∧ coded3.blk.codesValid = true ∧ 2 ≤ coded3.blk.n)
    ∧ Inv coded1 ∧ coded1.blk.codesValid = true ∧ coded1.blk.n = 1 :=
  ⟨⟨inv_coded3, by decide⟩, inv_coded1, by decide⟩

theorem witness_StepKeepsInvariant :
    (Inv overrun ∧ ∃ t, step overrun = .next t) ∧ Inv coded2 ∧ (∃ t, step coded2 = .next t)
    ∧ Inv (errorAt [] 0) ∧ ∃ t, step (errorAt [] 0) = .next t :=
  ⟨⟨inv_overrun, _, rfl⟩, inv_coded2, ⟨_, rfl⟩, inv_error, _, rfl⟩

theorem witness_InvariantStatesNeverStop :
    Inv { State.reset with prog := [.read .b32 0x30000] } ∧ Routed { State.reset with prog := [.read .b32 0x30000] } :=
  ⟨⟨inv_reset.config, inv_reset.block⟩, by
    intro op h
    rw [List.mem_singleton] at h
    subst h
    exact Nat.zero_le _⟩

theorem witness_HostProgramLines :
    (∀ op ∈ [HostOp.wait, .waitIrq], nextAgent { State.reset with prog := [op] } = .host)
    ∧ irq (State.reset.withBlk { Block.reset with ie := true, done := true }).blk = true ∧ irq State.reset.blk = false
    ∧ nextAgent { State.reset.withFetchWord 32 0x2 with prog := [.wait], sched := [.host] } = .host
    ∧ (Inv { State.reset with prog := [.checkNonempty] } ∧ State.reset.blk.busy = false ∧ State.reset.blk.n = 0)
    ∧ Inv { frozen2 with prog := [.checkNonempty] } ∧ frozen2.blk.busy = false ∧ frozen2.blk.n ≠ 0
    ∧ (1 ≤ [(0xFF : Byte)].length ∧ [(0xFF : Byte)].length ≤ 4 ∧ [(1 : Byte), 2, 3, 4].length ≤ 4)
    ∧ [(1 : Byte), 2, 3, 4, 5] ≠ [] ∧ (1 ≤ 1 ∧ 4 ≤ 4) :=
  ⟨by decide, by decide, by decide, by decide, ⟨⟨inv_reset.config, inv_reset.block⟩, by decide⟩, ⟨inv_frozen2.config, inv_frozen2.block⟩,
    by decide⟩

end Sys2Proof.Tests
end

section
/-! PROOFS. The exact total and the largest length of a code table (spec/43_code_generator.md R100), within the limits of
the configuration (spec/00_scope.md R9, R10). -/

namespace Sys2Proof.Machine

/-! ### TOTAL -/

theorem totalOf_eq_zipWith_sum (codes : List Code) (sym : List Slot) :
    totalOf codes sym = (List.zipWith (fun c u => c.len.toNat * u.count.toNat) codes sym).sum := by
  induction codes generalizing sym with
  | nil => simp [totalOf]
  | cons c cs ih =>
    cases sym with
    | nil => simp [totalOf]
    | cons t ts => simp [totalOf, ih]

theorem CodesOk.total_le {c : Config} {b : Block} (h : CodesOk c b) (ht : TableOk c b) :
    b.total.toNat ≤ c.lMax * b.nruns.toNat := by
  rw [h.total, ht.sum]
  exact totalOf_le fun e he => (h.lens e he).2

theorem lMax_le_of_wf {c : Config} (h : c.wf = true) : c.lMax ≤ 64 := by
  simp [Config.wf] at h; omega

/-- Code lengths of at most 64 = 2^6 bits and a run count below 2^32 leave TOTAL below 2^38. -/
theorem lMax_mul_nruns_lt {c : Config} (h : c.wf = true) (b : Block) : c.lMax * b.nruns.toNat < 2 ^ 38 := by
  have hruns := b.nruns.isLt
  calc c.lMax * b.nruns.toNat
      ≤ 64 * b.nruns.toNat := Nat.mul_le_mul_right _ (lMax_le_of_wf h)
    _ < 2 ^ 38 := by omega

/-! ### MAXLEN -/

@[simp] theorem maxLenOf_cons (c : Code) (cs : List Code) :
    maxLenOf (c :: cs) = max c.len.toNat (maxLenOf cs) := by rfl

theorem len_le_maxLenOf {codes : List Code} {e : Code} (h : e ∈ codes) : e.len.toNat ≤ maxLenOf codes := by
  induction h with
  | head cs => simp
  | tail c _ ih => simp [ih]

theorem exists_len_eq_maxLenOf {codes : List Code} (h : codes ≠ []) : ∃ e ∈ codes, e.len.toNat = maxLenOf codes := by
  induction codes with
  | nil => contradiction
  | cons c cs ih =>
    by_cases hc : maxLenOf cs ≤ c.len.toNat
    · exact ⟨c, by simp, by simp [hc]⟩
    · have hne : cs ≠ [] := by rintro rfl; simp [maxLenOf] at hc
      obtain ⟨e, he, hlen⟩ := ih hne
      exact ⟨e, by simp [he], by simp only [maxLenOf_cons]; omega⟩

/-- There is a code, since codes stand only beside a tree, which has at least one leaf (spec/42_tree_builder.md R94). -/
theorem BlockInv.code_ne_nil {c : Config} {b : Block} (h : BlockInv c b) (hv : b.codesValid = true) : b.code ≠ [] := by
  have hn : 1 ≤ b.sym.length := (h.tree (h.codesTree hv)).nonempty
  have hsize : b.code.length = b.sym.length := (h.codes hv).size
  exact List.ne_nil_of_length_pos (by omega)

/-- Settles O52: TOTAL and MAXLEN are `totalOf` and `maxLenOf` of the code table, which are the sum and the attained
maximum. -/
theorem totalIsWeightedLengthSum : Obligations.TotalIsWeightedLengthSum := by
  intro s hs hv
  have hcodes := hs.block.codes hv
  have hle := hcodes.total_le hs.block.table
  refine ⟨hcodes.total.trans (totalOf_eq_zipWith_sum _ _), hle, hle.trans_lt (lMax_mul_nruns_lt hs.config _), ?_, ?_⟩
  · intro e he
    exact (len_le_maxLenOf he).trans_eq hcodes.maxlen.symm
  · obtain ⟨e, he, hlen⟩ := exists_len_eq_maxLenOf (hs.block.code_ne_nil hv)
    exact ⟨e, he, BitVec.eq_of_toNat_eq (hlen.trans hcodes.maxlen.symm)⟩

end Sys2Proof.Machine
end

section
/-! PROOFS. What a command that takes effect changes, and what a command, a completion and a step can do to S: one case
lemma each, from which the phase moves, the flags and the invariant follow (spec/40_command_cycle.md R72, R75, R76). -/

namespace Sys2Proof.Machine

/-! ### The frame of each effect -/

theorem ofExcept_eq_commit {e : Except Raise Block} {t : Block} : Effect.ofExcept e = .commit t ↔ e = .ok t := by
  cases e <;> simp [Effect.ofExcept]

theorem ofExcept_eq_raise {e : Except Raise Block} {r : Raise} : Effect.ofExcept e = .raise r ↔ e = .error r := by
  cases e <;> simp [Effect.ofExcept]

/-- Counting changes the table and the run count only (spec/41_analyzer.md R83). -/
theorem emit_frame {c : Config} {v : Word} {op : Byte} {pos : Nat} {b t : Block} (h : emit c v op pos b = .ok t) :
    t = { b with sym := t.sym, nruns := t.nruns } := by
  unfold emit at h
  split at h
  · cases h
  split at h
  · obtain rfl := Except.ok.inj h; rfl
  split at h
  · cases h
  · obtain rfl := Except.ok.inj h; rfl

/-- FLUSH changes the open run's length, the table and the phase only (R86). -/
theorem flushInput_frame {c : Config} {b t : Block} (h : flushInput c b = .ok t) :
    t = { b with rleLen := t.rleLen, sym := t.sym, nruns := t.nruns, phase := .frozen } := by
  unfold flushInput at h
  split at h
  · obtain rfl := Except.ok.inj h; rfl
  split at h
  · rename_i m hm
    obtain rfl := Except.ok.inj h
    rw [emit_frame hm]
  · cases h

theorem flushInput_raises {c : Config} {b : Block} {r : Raise} (h : flushInput c b = .error r) :
    r.code = .countOverflow ∨ r.code = .tableFull := by
  unfold flushInput at h
  split at h
  · cases h
  split at h
  · cases h
  · rename_i e he
    cases h
    exact emit_raises he

/-- FEED_RUN counts its operand, which is not 0 (R85, spec/60_exceptions.md R113). -/
theorem bodyOf_feedRun_commit {s : State} {b t : Block} (h : bodyOf s .feedRun b = .commit t) :
    b.latArg ≠ 0 ∧ emit s.cfg b.latArg 0x03 0 b = .ok t := by
  simp only [bodyOf] at h
  split at h
  · cases h
  · exact ⟨‹_›, ofExcept_eq_commit.1 h⟩

/-- BUILD_TREE changes the arena, the root, TREE_VALID and the phase only (spec/42_tree_builder.md R94). -/
theorem buildTree_frame {b t : Block} (h : buildTree b = .commit t) :
    t = { b with node := t.node, root := t.root, treeValid := true, phase := .tree } := by
  unfold buildTree at h
  split at h
  · cases h
  · cases h; rfl

/-- GEN_CODES changes the codes, TOTAL, MAXLEN, CODES_VALID and the phase only (spec/43_code_generator.md R101). -/
theorem genCodes_frame {c : Config} {b t : Block} (h : genCodes c b = .commit t) :
    t = { b with code := t.code, total := t.total, maxlen := t.maxlen, codesValid := true, phase := .coded } := by
  unfold genCodes at h
  split at h
  · cases h
  · cases h
  · cases h; rfl

/-! ### The phase and the flags that an effect leaves -/

/-- The phase that a command leaves when it takes effect in phase p (spec/40_command_cycle.md R76). -/
def phaseAfter : Instr → Phase → Phase
  | .nop, p => p
  | .clear, _ => .accum
  | .feedBytes _, p => p
  | .feedRun, p => p
  | .flush, _ => .frozen
  | .buildTree, _ => .tree
  | .genCodes, _ => .coded

theorem phaseAfter_ne_error {i : Instr} {p : Phase} (h : p ≠ .error) : phaseAfter i p ≠ .error := by
  cases i <;> simp [phaseAfter, h]

/-- A command that takes effect leaves its phase of R76, and sets the flag it produces. -/
theorem bodyOf_commit_flags {s : State} {i : Instr} {b t : Block} (hi : i ≠ .clear) (h : bodyOf s i b = .commit t) :
    t.phase = phaseAfter i b.phase ∧ t.treeValid = (if i = .buildTree then true else b.treeValid)
      ∧ t.codesValid = (if i = .genCodes then true else b.codesValid) := by
  cases i with
  | nop => cases h; exact ⟨rfl, rfl, rfl⟩
  | clear => contradiction
  | feedBytes nb => rw [feedBits_frame (ofExcept_eq_commit.1 h)]; exact ⟨rfl, rfl, rfl⟩
  | feedRun => rw [emit_frame (bodyOf_feedRun_commit h).2]; exact ⟨rfl, rfl, rfl⟩
  | flush => rw [flushInput_frame (ofExcept_eq_commit.1 h)]; exact ⟨rfl, rfl, rfl⟩
  | buildTree => rw [buildTree_frame h]; exact ⟨rfl, rfl, rfl⟩
  | genCodes => rw [genCodes_frame h]; exact ⟨rfl, rfl, rfl⟩

/-- Every error that a command raises has a code (spec/60_exceptions.md R109). -/
theorem bodyOf_raise_code {s : State} {i : Instr} {b : Block} {r : Raise} (h : bodyOf s i b = .raise r) :
    r.code ≠ .none := by
  cases i with
  | nop => cases h
  | clear => cases h
  | feedBytes nb => rcases feedBits_raises (ofExcept_eq_raise.1 h) with e | e | e <;> simp [e]
  | feedRun =>
    simp only [bodyOf] at h
    split at h
    · cases h; simp
    · rcases emit_raises (ofExcept_eq_raise.1 h) with e | e <;> simp [e]
  | flush => rcases flushInput_raises (ofExcept_eq_raise.1 h) with e | e <;> simp [e]
  | buildTree =>
    simp only [bodyOf, buildTree] at h
    split at h
    · cases h; simp
    · cases h
  | genCodes =>
    simp only [bodyOf, genCodes] at h
    split at h
    · cases h
    · cases h; simp
    · cases h

/-! ### One command, one accepted word, one step -/

/-- Everything a command other than CLEAR can do: nothing in ERROR, raise an error, or take effect in a legal phase. -/
theorem exec_cases {i : Instr} {s t : State} (hi : i ≠ .clear) (h : exec i s = .next t) :
    (s.blk.phase = .error ∧ t = s) ∨
    (s.blk.phase ≠ .error ∧ ∃ r, r.code ≠ .none ∧ t = raiseError r s) ∨
    (s.blk.phase ≠ .error ∧ legal i s.blk.phase = true ∧ ∃ b, bodyOf s i s.blk = .commit b ∧ t = s.withBlk b) := by
  rw [exec_eq_runCommand hi] at h
  rcases runCommand_next h with he | ⟨hp, -, ht⟩ | ⟨hp, hl, hb | ⟨r, hr, ht⟩⟩
  · exact .inl he
  · exact .inr (.inl ⟨hp, _, by simp, ht⟩)
  · exact .inr (.inr ⟨hp, hl, hb⟩)
  · exact .inr (.inl ⟨hp, r, bodyOf_raise_code hr, ht⟩)

/-- Everything the accepted word can do: clear the pipeline, nothing in ERROR, raise an error, or take effect. -/
theorem execute_cases {s t : State} (h : execute s = .next t) :
    (decode s.blk.latCmd = .ok .clear ∧ t = s.withBlk (clearPipeline s.blk)) ∨
    (s.blk.phase = .error ∧ t = s) ∨
    (s.blk.phase ≠ .error ∧ ∃ r, r.code ≠ .none ∧ t = raiseError r s) ∨
    (s.blk.phase ≠ .error ∧ ∃ i, i ≠ .clear ∧ decode s.blk.latCmd = .ok i ∧ legal i s.blk.phase = true ∧
      ∃ b, bodyOf s i s.blk = .commit b ∧ t = s.withBlk b) := by
  rcases execute_next h with ⟨i, hd, hx⟩ | ⟨e, -, rfl⟩
  · by_cases hi : i = .clear
    · subst hi
      rw [exec_clear] at hx
      cases hx
      exact .inl ⟨hd, rfl⟩
    · rcases exec_cases hi hx with he | hr | ⟨hp, hl, hb⟩
      · exact .inr (.inl he)
      · exact .inr (.inr (.inl hr))
      · exact .inr (.inr (.inr ⟨hp, i, hi, hd, hl, hb⟩))
  · unfold illegalCommand
    split
    · exact .inr (.inl ⟨‹_›, rfl⟩)
    · exact .inr (.inr (.inl ⟨‹_›, _, by simp, rfl⟩))

/-- What one step can do to S, with the agent that does it (spec/20_memory.md R52). -/
theorem step_agent_cases {s t : State} (h : step s = .next t) :
    t.blk = s.blk ∨
    (nextAgent s = .host ∧ ∃ off v, t.blk = writeWord off v s.blk) ∨
    (nextAgent s = .engine ∧ s.blk.busy = true ∧ ∃ u, execute (turn s) = .next u ∧ t.blk = finish u.blk) ∨
    (nextAgent s = .platform ∧ t.blk = Block.reset) := by
  unfold step at h
  cases ha : nextAgent s with
  | host =>
    rw [ha] at h
    obtain ⟨-, -, hb | ⟨off, v, -, hb⟩⟩ := hostStep_next h
    · exact .inl hb
    · exact .inr (.inl ⟨rfl, off, v, hb⟩)
  | engine =>
    rw [ha] at h
    simp only [agentStep, engineStep, turn_blk] at h
    split at h
    · obtain ⟨u, hu, rfl⟩ := complete_next h
      exact .inr (.inr (.inl ⟨rfl, ‹_›, u, hu, rfl⟩))
    · cases h; exact .inl rfl
  | platform =>
    rw [ha] at h
    cases h
    exact .inr (.inr (.inr ⟨rfl, rfl⟩))

/-- A host write moves neither the phase nor a flag (spec/20_memory.md R46). -/
theorem writeWord_flags (off : Nat) (v : Word) (b : Block) :
    (writeWord off v b).phase = b.phase ∧ (writeWord off v b).treeValid = b.treeValid
      ∧ (writeWord off v b).codesValid = b.codesValid := by
  unfold writeWord
  split
  · exact ⟨rfl, rfl, rfl⟩
  split
  · split <;> exact ⟨rfl, rfl, rfl⟩
  split
  · split <;> simp
  split <;> exact ⟨rfl, rfl, rfl⟩

end Sys2Proof.Machine
end

section
/-! PROOFS. The invariant of S is kept by every command, every completion and every step (spec/10_state.md R43), and holds
after reset (R44). -/

namespace Sys2Proof.Machine

/-- A command that takes effect in a legal phase keeps the invariant. -/
theorem BlockInv.bodyOf_commit {s : State} {i : Instr} {b t : Block} (hc : s.cfg.wf = true) (h : BlockInv s.cfg b)
    (hl : legal i b.phase = true) (ht : bodyOf s i b = .commit t) : BlockInv s.cfg t := by
  cases i with
  | nop => cases ht; exact h
  | clear => cases ht; exact h.clearPipeline
  | feedBytes nb =>
    have hp : b.phase = .accum := of_decide_eq_true hl
    have hf := ofExcept_eq_commit.1 ht
    obtain ⟨htable, hopen⟩ := feedBits_ok h.table (h.openOnes hp) hf
    exact h.analyzed hp (feedBits_frame hf) htable hopen
  | feedRun =>
    have hp : b.phase = .accum := of_decide_eq_true hl
    obtain ⟨harg, hf⟩ := bodyOf_feedRun_commit ht
    obtain ⟨hframe, htable, -, -⟩ := emit_ok h.table harg hf
    exact h.analyzed hp (by rw [hframe]) htable (by rw [hframe]; exact h.openOnes hp)
  | flush => exact (flushInput_keeps h (of_decide_eq_true hl) (ofExcept_eq_commit.1 ht)).1
  | buildTree =>
    rcases buildTree_keeps hc h (of_decide_eq_true hl) with ⟨u, hu, hinv, -⟩ | hr
    · obtain rfl := Effect.commit.inj (hu.symm.trans ht)
      exact hinv
    · cases hr.symm.trans ht
  | genCodes =>
    rcases genCodes_keeps hc h (of_decide_eq_true hl) with ⟨u, hu, hinv, -⟩ | hr
    · obtain rfl := Effect.commit.inj (hu.symm.trans ht)
      exact hinv
    · cases hr.symm.trans ht

/-- Executing the accepted word keeps the invariant. -/
theorem Inv.blockInv_of_execute {s t : State} (hs : Inv s) (h : execute s = .next t) : BlockInv s.cfg t.blk := by
  rcases execute_cases h with ⟨-, rfl⟩ | ⟨-, rfl⟩ | ⟨-, r, hr, rfl⟩ | ⟨-, i, -, -, hl, b, hb, rfl⟩
  · exact hs.block.clearPipeline
  · exact hs.block
  · exact hs.block.errorEntry r hr
  · exact hs.block.bodyOf_commit hs.config hl hb

/-- Settles O57: each of the ways in which a step changes S keeps its invariant, and no step changes the configuration. -/
theorem stepKeepsInvariant : Obligations.StepKeepsInvariant := by
  intro s t hs h
  obtain ⟨hcfg, hblk⟩ := step_cases h
  refine ⟨hcfg ▸ hs.config, ?_⟩
  rw [hcfg]
  rcases hblk with hb | ⟨off, v, -, hb⟩ | ⟨-, u, hu, hb⟩ | hb <;> rw [hb]
  · exact hs.block
  · exact hs.block.writeWord off v
  · have hturn : Inv (turn s) := ⟨hs.config, hs.block⟩
    exact (hturn.blockInv_of_execute hu).finish
  · exact BlockInv_reset _

/-- Settles O58: the example configuration is legal, and S meets its invariant after reset. -/
theorem resetMeetsInvariant : Obligations.ResetMeetsInvariant := by
  intro prog sched
  exact ⟨(by decide : Config.example256.wf = true), BlockInv_reset _⟩

end Sys2Proof.Machine
end

section
/-! PROOFS. How the phase and the two valid flags move (spec/10_state.md R18, R20; spec/40_command_cycle.md R76). -/

namespace Sys2Proof.Machine

/-- The commands that move the phase when they take effect in a legal phase (R76). -/
theorem phaseAfter_moves {i : Instr} {p : Phase} (hi : i ≠ .clear) (hl : legal i p = true) (h : phaseAfter i p ≠ p) :
    (i = .flush ∧ p = .accum ∧ phaseAfter i p = .frozen) ∨ (i = .buildTree ∧ p = .frozen ∧ phaseAfter i p = .tree)
      ∨ (i = .genCodes ∧ p = .tree ∧ phaseAfter i p = .coded) := by
  cases i with
  | clear => contradiction
  | nop | feedBytes _ | feedRun => exact absurd rfl h
  | flush | buildTree | genCodes => simpa [legal, phaseAfter] using hl

/-- A completion ends in ERROR or in the phase that execution left (R72). -/
theorem finish_phase_eq (b : Block) : (finish b).phase = .error ∨ (finish b).phase = b.phase := by
  rw [finish_phase]
  split
  · exact .inl rfl
  · exact .inr rfl

/-- A completion that moves the phase ends in ERROR, or its word is CLEAR, FLUSH, BUILD_TREE or GEN_CODES (R76). -/
theorem finish_execute_phase {s u : State} (h : execute s = .next u) (hne : (finish u.blk).phase ≠ s.blk.phase) :
    (finish u.blk).phase = .error
    ∨ (decode s.blk.latCmd = .ok .clear ∧ (finish u.blk).phase = .accum)
    ∨ (decode s.blk.latCmd = .ok .flush ∧ s.blk.phase = .accum ∧ (finish u.blk).phase = .frozen)
    ∨ (decode s.blk.latCmd = .ok .buildTree ∧ s.blk.phase = .frozen ∧ (finish u.blk).phase = .tree)
    ∨ (decode s.blk.latCmd = .ok .genCodes ∧ s.blk.phase = .tree ∧ (finish u.blk).phase = .coded) := by
  rcases finish_phase_eq u.blk with he | he
  · exact .inl he
  rw [he] at hne ⊢
  rcases execute_cases h with ⟨hd, rfl⟩ | ⟨-, rfl⟩ | ⟨-, r, -, rfl⟩ | ⟨-, i, hi, hd, hl, b, hb, rfl⟩
  · exact .inr (.inl ⟨hd, rfl⟩)
  · contradiction
  · exact .inl rfl
  · obtain ⟨hphase, -, -⟩ := bodyOf_commit_flags hi hb
    rw [withBlk_blk, hphase] at hne ⊢
    rcases phaseAfter_moves hi hl hne with ⟨rfl, hm⟩ | ⟨rfl, hm⟩ | ⟨rfl, hm⟩
    · exact .inr (.inr (.inl ⟨hd, hm⟩))
    · exact .inr (.inr (.inr (.inl ⟨hd, hm⟩)))
    · exact .inr (.inr (.inr (.inr ⟨hd, hm⟩)))

/-- Outside ERROR before and after, a command other than CLEAR was legal and left its phase of R76. -/
theorem exec_phaseAfter {i : Instr} {s t : State} (hi : i ≠ .clear) (h : exec i s = .next t)
    (hs : s.blk.phase ≠ .error) (ht : t.blk.phase ≠ .error) :
    legal i s.blk.phase = true ∧ t.blk.phase = phaseAfter i s.blk.phase := by
  rcases exec_cases hi h with ⟨he, -⟩ | ⟨-, r, -, rfl⟩ | ⟨-, hl, b, hb, rfl⟩
  · contradiction
  · exact absurd rfl ht
  · exact ⟨hl, (bodyOf_commit_flags hi hb).1⟩

theorem exec_clear_phase {s t : State} (h : exec .clear s = .next t) : t.blk.phase = .accum := by
  rw [exec_clear] at h; cases h; rfl

/-- Settles O26: the phase moves by reset, or by a completion as `finish_execute_phase` says. -/
theorem phaseMovesOnlyAsTheTable : Obligations.PhaseMovesOnlyAsTheTable := by
  refine ⟨fun i s t h hs ht => ?_, fun _ _ => exec_clear_phase, fun s t h hne => ?_⟩
  · by_cases hi : i = .clear
    · subst hi; exact exec_clear_phase h
    · obtain ⟨hl, hp⟩ := exec_phaseAfter hi h hs ht
      cases i with
      | nop => exact hp
      | clear => contradiction
      | feedBytes _ | feedRun =>
        have hacc : s.blk.phase = .accum := of_decide_eq_true hl
        exact ⟨hacc, hp.trans hacc⟩
      | flush | buildTree | genCodes => exact ⟨of_decide_eq_true hl, hp⟩
  · rcases step_agent_cases h with hb | ⟨-, off, v, hb⟩ | ⟨ha, hbusy, u, hu, hb⟩ | ⟨ha, hb⟩ <;> rw [hb] at hne ⊢
    · contradiction
    · exact absurd (writeWord_flags off v s.blk).1 hne
    · exact .inr ⟨ha, hbusy, finish_execute_phase (s := turn s) hu hne⟩
    · exact .inl ⟨ha, rfl⟩

/-- A completion clears both flags (CLEAR), sets one (BUILD_TREE from FROZEN, GEN_CODES from TREE), or leaves both (R20). -/
theorem finish_execute_flags {s u : State} (h : execute s = .next u) :
    (decode s.blk.latCmd = .ok .clear ∧ (finish u.blk).treeValid = false ∧ (finish u.blk).codesValid = false)
    ∨ (decode s.blk.latCmd = .ok .buildTree ∧ s.blk.phase = .frozen ∧ (finish u.blk).treeValid = true
        ∧ (finish u.blk).codesValid = s.blk.codesValid)
    ∨ (decode s.blk.latCmd = .ok .genCodes ∧ s.blk.phase = .tree ∧ (finish u.blk).treeValid = s.blk.treeValid
        ∧ (finish u.blk).codesValid = true)
    ∨ ((finish u.blk).treeValid = s.blk.treeValid ∧ (finish u.blk).codesValid = s.blk.codesValid) := by
  rw [finish_treeValid, finish_codesValid]
  rcases execute_cases h with ⟨hd, rfl⟩ | ⟨-, rfl⟩ | ⟨-, r, -, rfl⟩ | ⟨-, i, hi, hd, hl, b, hb, rfl⟩
  · exact .inl ⟨hd, rfl, rfl⟩
  · exact .inr (.inr (.inr ⟨rfl, rfl⟩))
  · exact .inr (.inr (.inr ⟨rfl, rfl⟩))
  · obtain ⟨-, htree, hcodes⟩ := bodyOf_commit_flags hi hb
    rw [withBlk_blk, htree, hcodes]
    cases i with
    | clear => contradiction
    | buildTree => exact .inr (.inl ⟨hd, of_decide_eq_true hl, rfl, rfl⟩)
    | genCodes => exact .inr (.inr (.inl ⟨hd, of_decide_eq_true hl, rfl, rfl⟩))
    | nop | feedBytes _ | feedRun | flush => exact .inr (.inr (.inr ⟨rfl, rfl⟩))

/-- A command other than CLEAR that ends in ERROR leaves both flags (spec/60_exceptions.md R121). -/
theorem exec_error_flags {i : Instr} {s t : State} (hi : i ≠ .clear) (h : exec i s = .next t)
    (ht : t.blk.phase = .error) : t.blk.treeValid = s.blk.treeValid ∧ t.blk.codesValid = s.blk.codesValid := by
  rcases exec_cases hi h with ⟨-, rfl⟩ | ⟨-, r, -, rfl⟩ | ⟨hp, -, b, hb, rfl⟩
  · exact ⟨rfl, rfl⟩
  · exact ⟨rfl, rfl⟩
  · exact absurd ((bodyOf_commit_flags hi hb).1.symm.trans ht) (phaseAfter_ne_error hp)

/-- A command other than CLEAR that does not end in ERROR has set the flag it produces. -/
theorem exec_sets_flags {i : Instr} {s t : State} (hi : i ≠ .clear) (h : exec i s = .next t)
    (ht : t.blk.phase ≠ .error) :
    (i = .buildTree → t.blk.treeValid = true) ∧ (i = .genCodes → t.blk.codesValid = true) := by
  rcases exec_cases hi h with ⟨he, rfl⟩ | ⟨-, r, -, rfl⟩ | ⟨-, -, b, hb, rfl⟩
  · contradiction
  · exact absurd rfl ht
  · obtain ⟨-, htree, hcodes⟩ := bodyOf_commit_flags hi hb
    exact ⟨fun e => by rw [withBlk_blk, htree, if_pos e], fun e => by rw [withBlk_blk, hcodes, if_pos e]⟩

/-- Settles O30: reset clears both flags, a completion moves them as `finish_execute_flags` says, and the invariant
holds the phases they tell. -/
theorem validFlagsSetAndCleared : Obligations.ValidFlagsSetAndCleared := by
  refine ⟨fun s t h => ?_, fun _ _ _ h hi => exec_error_flags hi h,
    fun _ _ h ht => (exec_sets_flags (by simp) h (by simp [ht])).1 rfl,
    fun _ _ h ht => (exec_sets_flags (by simp) h (by simp [ht])).2 rfl,
    fun s hs hp => ⟨hs.block.treePhase hp, hs.block.codesPhase hp⟩⟩
  rcases step_agent_cases h with hb | ⟨-, off, v, hb⟩ | ⟨ha, hbusy, u, hu, hb⟩ | ⟨ha, hb⟩ <;> rw [hb]
  · exact ⟨fun hne => absurd rfl hne, fun hne => absurd rfl hne⟩
  · obtain ⟨-, htree, hcodes⟩ := writeWord_flags off v s.blk
    exact ⟨fun hne => absurd htree hne, fun hne => absurd hcodes hne⟩
  · rcases finish_execute_flags (s := turn s) hu with ⟨hd, htree, hcodes⟩ | ⟨hd, hp, htree, hcodes⟩ |
      ⟨hd, hp, htree, hcodes⟩ | ⟨htree, hcodes⟩
    · exact ⟨fun _ => .inl ⟨htree, .inr ⟨ha, hbusy, hd⟩⟩, fun _ => .inl ⟨hcodes, .inr ⟨ha, hbusy, hd⟩⟩⟩
    · exact ⟨fun _ => .inr ⟨htree, ha, hbusy, hd, hp⟩, fun hne => absurd hcodes hne⟩
    · exact ⟨fun hne => absurd htree hne, fun _ => .inr ⟨hcodes, ha, hbusy, hd, hp⟩⟩
    · exact ⟨fun hne => absurd htree hne, fun hne => absurd hcodes hne⟩
  · exact ⟨fun _ => .inl ⟨rfl, .inl ha⟩, fun _ => .inl ⟨rfl, .inl ha⟩⟩

end Sys2Proof.Machine
end

section
/-! PROOFS. What the host's window reads and writes (spec/10_state.md R22 to R40): the registers, the reserved space, the
SYM window and the NODE window. -/

namespace Sys2Proof.Machine

/-! ### Reads and writes that the window takes -/

/-- A 32-bit write that the window takes changes S as `writeWord` says (spec/20_memory.md R46). -/
theorem hostWrite_taken_blk {off : Nat} {v : Word} {s : State} (h : isBusError .b32 off = false) :
    (hostWrite .b32 off v s).blk = writeWord off v s.blk := by
  rw [hostWrite_taken h]; rfl

/-- A 32-bit write at an aligned offset of the window, from 0x18 on, changes nothing of S. -/
theorem hostWrite_readOnly {off : Nat} {v : Word} {s : State} (ha : off % 4 = 0) (hlo : 0x0018 ≤ off)
    (hhi : off < 0x30000) : (hostWrite .b32 off v s).blk = s.blk := by
  rw [hostWrite_taken_blk (isBusError_eq_false ha hhi)]
  exact writeWord_other (by omega) (by omega) (by omega) (by omega)

theorem portValue_eq_readWord {s : State} {off : Nat} (h : drawsFree s.blk off = false) :
    portValue s off = readWord s.cfg s.blk off := by simp [portValue, h]

theorem portValue_idle {s : State} (off : Nat) (h : s.blk.busy = false) :
    portValue s off = readWord s.cfg s.blk off := portValue_eq_readWord (by simp [drawsFree, h])

/-- Offsets below the result registers, and the reserved registers above them, draw no free value (R53). -/
theorem drawsFree_eq_false (b : Block) {off : Nat} (h : off < 0x0018 ∨ 0x0034 < off ∧ off < 0x10000) :
    drawsFree b off = false := by
  have hu : unspecifiedWhileBusy off = false := by
    simp only [unspecifiedWhileBusy, Bool.or_eq_false_iff, Bool.and_eq_false_iff, decide_eq_false_iff_not]
    omega
  rw [drawsFree, hu, Bool.and_false]

/-- ID to ARG read the same whether or not a command runs (R53). -/
theorem portValue_register (s : State) {off : Nat} (h : off < 0x0018) :
    portValue s off = registerWord s.cfg s.blk off := by
  rw [portValue_eq_readWord (drawsFree_eq_false _ (.inl h)), readWord_register _ _ (by omega)]

/-- The two halves of a 64-bit value, as the window reads them, are the value. -/
theorem halves_append (x : BitVec 64) : x.extractLsb' 32 32 ++ x.extractLsb' 0 32 = x :=
  (BitVec.extractLsb'_append_extractLsb'_eq_extractLsb' (start₁ := 0) rfl).trans BitVec.extractLsb'_eq_self

/-- A field of a word, bit by bit. -/
theorem extractLsb'_eq_of_getLsbD {n len start : Nat} {w : BitVec n} {x : BitVec len}
    (h : ∀ k, k < len → w.getLsbD (start + k) = x.getLsbD k) : w.extractLsb' start len = x := by
  apply BitVec.eq_of_getLsbD_eq
  intro k hk
  rw [BitVec.getLsbD_extractLsb', h k hk, decide_eq_true hk, Bool.true_and]

/-- A flag reads in bit 0 of its register, with 0 above it. -/
theorem ofBool_setWidth_fields (x : Bool) :
    ((BitVec.ofBool x).setWidth 32).getLsbD 0 = x ∧ ((BitVec.ofBool x).setWidth 32).extractLsb' 1 31 = 0 := by
  cases x <;> decide

/-! ### ID and CONFIG (R22, R23) -/

theorem portValue_id (s : State) : portValue s 0x0000 = 0x48554631 := by
  rw [portValue_register s (by decide)]; rfl

theorem portValue_config (s : State) : portValue s 0x0004 = configWord s.cfg := by
  rw [portValue_register s (by decide)]; rfl

/-- The fields of CONFIG (R23). -/
theorem configWord_fields (c : Config) :
    (configWord c).extractLsb' 0 12 = BitVec.ofNat 12 c.nSym ∧ (configWord c).extractLsb' 12 4 = 0
      ∧ (configWord c).extractLsb' 16 7 = BitVec.ofNat 7 c.lMax ∧ (configWord c).extractLsb' 23 9 = 0 := by
  refine ⟨?_, ?_, ?_, ?_⟩ <;> refine extractLsb'_eq_of_getLsbD fun k hk => ?_ <;> rw [configWord_getLsbD]
  all_goals simp (disch := omega) only [if_neg, Nat.zero_add, if_pos, Nat.add_sub_cancel_left, BitVec.ofNat_eq_ofNat,
    BitVec.getLsbD_zero]

/-- Settles O12: both words read as they stand in the register map, and every step keeps the configuration. -/
theorem identificationRegistersReportConfiguration : Obligations.IdentificationRegistersReportConfiguration := by
  refine ⟨portValue_id, fun s hs => ?_, fun s v => ?_, fun s t h => (step_cases h).1⟩
  · obtain ⟨hnSym, hlow, hlMax, hhigh⟩ := configWord_fields s.cfg
    have hwf : s.cfg.nSym ≤ 2048 ∧ s.cfg.lMax ≤ 64 := by simp [Config.wf] at hs; omega
    rw [portValue_config, hnSym, hlow, hlMax, hhigh, BitVec.toNat_ofNat, BitVec.toNat_ofNat]
    exact ⟨Nat.mod_eq_of_lt (by omega), rfl, Nat.mod_eq_of_lt (by omega), rfl⟩
  · exact ⟨hostWrite_taken_blk rfl, hostWrite_taken_blk rfl⟩

/-! ### STATUS (R25) -/

theorem portValue_status (s : State) : portValue s 0x000C = statusWord s.blk := by
  rw [portValue_register s (by decide)]; rfl

/-- The fields of STATUS (R25), reserved ones reading 0. -/
theorem statusWord_fields (b : Block) :
    (statusWord b).extractLsb' 4 3 = b.phase.code ∧ (statusWord b).extractLsb' 8 4 = b.errCode.code
      ∧ (statusWord b).extractLsb' 12 4 = 0 ∧ (statusWord b).extractLsb' 16 8 = b.errOp
      ∧ (statusWord b).extractLsb' 24 5 = b.errPos ∧ (statusWord b).extractLsb' 29 3 = 0 := by
  refine ⟨?_, ?_, ?_, ?_, ?_, ?_⟩ <;> refine extractLsb'_eq_of_getLsbD fun k hk => ?_ <;> rw [statusWord_getLsbD]
  all_goals simp (disch := omega) only [if_neg, if_pos, Nat.add_sub_cancel_left, BitVec.ofNat_eq_ofNat,
    BitVec.getLsbD_zero]

/-- The flags of STATUS (R25). -/
theorem statusWord_flags (b : Block) :
    (statusWord b).getLsbD 0 = b.busy ∧ (statusWord b).getLsbD 1 = b.done ∧ (statusWord b).getLsbD 2 = b.err
      ∧ (statusWord b).getLsbD 3 = b.treeValid ∧ (statusWord b).getLsbD 7 = b.codesValid := by
  refine ⟨?_, ?_, ?_, ?_, ?_⟩ <;> rw [statusWord_getLsbD] <;> rfl

/-- Settles O13: STATUS reads `statusWord`, whose bits are laid out as in R25, and a write may only clear DONE. -/
theorem statusFieldsReadAsLaidOut : Obligations.StatusFieldsReadAsLaidOut := by
  refine ⟨fun s w hw => ?_, ?_, fun s v => ?_⟩
  · subst hw
    obtain ⟨hbusy, hdone, herr, htree, hcodes⟩ := statusWord_flags s.blk
    obtain ⟨hphase, hcode, hrsv₁, hop, hpos, hrsv₂⟩ := statusWord_fields s.blk
    rw [portValue_status, herr, err_iff]
    exact ⟨hbusy, hdone, Iff.rfl, htree, hphase, hcodes, hcode, hrsv₁, hop, hpos, hrsv₂⟩
  · rw [portValue_status]; decide
  · rw [hostWrite_taken_blk rfl]
    by_cases hv : v.getLsbD 1 = true
    · rw [if_pos hv]; exact if_pos hv
    · rw [if_neg hv]; exact if_neg hv

/-! ### CTRL, CMD and ARG (R24, R26, R27) -/

theorem portValue_ctrl (s : State) : portValue s 0x0008 = (BitVec.ofBool s.blk.ie).setWidth 32 := by
  rw [portValue_register s (by decide)]; rfl

theorem portValue_arg (s : State) : portValue s 0x0014 = s.blk.arg := by
  rw [portValue_register s (by decide)]; rfl

theorem portValue_cmd (s : State) : portValue s 0x0010 = 0 := by
  rw [portValue_register s (by decide)]; exact registerWord_unnamed _ _ (by decide)

/-- Settles O14: the three registers read exactly whether or not a command runs, and each write has its one effect. -/
theorem controlAndOperandRegisters : Obligations.ControlAndOperandRegisters := by
  intro s v
  obtain ⟨hie, hrsv⟩ := ofBool_setWidth_fields s.blk.ie
  rw [portValue_ctrl, portValue_ctrl, portValue_arg, portValue_arg, portValue_cmd]
  exact ⟨hie, hrsv, hostWrite_taken_blk rfl, rfl, hostWrite_taken_blk rfl, rfl, rfl, rfl⟩

/-! ### The result registers (R28 to R34) -/

/-- A result register reads its word of the register map while no command runs. -/
theorem portValue_result {s : State} (h : s.blk.busy = false) {off : Nat} (hoff : off ≤ 0x0034) :
    portValue s off = registerWord s.cfg s.blk off := by
  rw [portValue_idle off h, readWord_register _ _ (by omega)]

/-- Every register of the results reads 0 after reset. -/
theorem registerWord_result_reset (c : Config) {off : Nat} (hlo : 0x0018 ≤ off) :
    registerWord c Block.reset off = 0 := by
  by_cases h : off ∈ namedOffsets
  · simp only [namedOffsets, List.mem_cons, List.not_mem_nil, or_false] at h
    have hres : off = 0x0018 ∨ off = 0x001C ∨ off = 0x0020 ∨ off = 0x0024 ∨ off = 0x0028 ∨ off = 0x002C ∨
        off = 0x0030 ∨ off = 0x0034 := by omega
    rcases hres with rfl | rfl | rfl | rfl | rfl | rfl | rfl | rfl <;> rfl
  · exact registerWord_unnamed _ _ h

/-- Settles O15: each register reads its component while no command runs, under its flag where it has one. -/
theorem resultRegistersRead : Obligations.ResultRegistersRead := by
  refine ⟨fun s hidle => ?_, fun s off v hlo hhi ha => ⟨hostWrite_readOnly ha hlo (by omega), ?_⟩⟩
  · have hread {off : Nat} (hoff : off ≤ 0x0034) := portValue_result hidle hoff
    obtain ⟨hbit, hrsv⟩ := ofBool_setWidth_fields s.blk.rleBit
    rw [hread (off := 0x0018) (by decide), hread (off := 0x001C) (by decide), hread (off := 0x0020) (by decide),
      hread (off := 0x0024) (by decide), hread (off := 0x0028) (by decide), hread (off := 0x002C) (by decide),
      hread (off := 0x0030) (by decide), hread (off := 0x0034) (by decide)]
    refine ⟨rfl, rfl, fun hs => hs.block.table.sum, rfl, hbit, hrsv, fun hv => ?_, fun hv => ?_, fun hv => ?_,
      fun hv => ?_, fun hv => ?_, fun hv => ?_⟩
    · simpa [registerWord, hv] using halves_append s.blk.total
    all_goals simp [registerWord, hv]
  · rw [portValue_result rfl hhi]
    exact registerWord_result_reset _ hlo

/-! ### Reserved registers (R35) -/

theorem portValue_reserved (s : State) {off : Nat} (hlo : 0x0038 ≤ off) (hhi : off < 0x10000) :
    portValue s off = 0 := by
  have hunnamed : off ∉ namedOffsets := by
    simp only [namedOffsets, List.mem_cons, List.not_mem_nil, or_false]
    omega
  rw [portValue_eq_readWord (drawsFree_eq_false _ (.inr ⟨by omega, hhi⟩)), readWord_register _ _ hhi,
    registerWord_unnamed _ _ hunnamed]

/-- Settles O18: a read there is no free draw and an access no bus error. -/
theorem reservedOffsetsReadZero : Obligations.ReservedOffsetsReadZero := by
  intro s off v hlo hhi ha
  have htaken : isBusError .b32 off = false := isBusError_eq_false ha (by omega)
  have hdraw : drawsFree s.blk off = false := drawsFree_eq_false _ (.inr ⟨by omega, by omega⟩)
  constructor
  · rw [hostRead_taken htaken, hdraw, portValue_reserved s hlo (by omega)]; rfl
  · rw [hostWrite_taken htaken, writeWord_other (by omega) (by omega) (by omega) (by omega)]; rfl

/-! ### The SYM window (R38) -/

theorem portValue_sym {s : State} (h : s.blk.busy = false) {i k : Nat} (hi : i < 2048) (hk : k < 8) :
    portValue s (0x10000 + 32 * i + 4 * k) = symWord s.blk i k := by
  rw [portValue_idle _ h, readWord_sym _ _ hi hk]

theorem symWord_unoccupied {b : Block} {i : Nat} (k : Nat) (h : b.n ≤ i) : symWord b i k = 0 := by
  simp [symWord, List.getElem?_eq_none h]

/-- The code words read 0 while CODES_VALID is off. -/
theorem symWord_noCode {b : Block} {i k : Nat} (hv : b.codesValid = false) (hk : 2 ≤ k) : symWord b i k = 0 := by
  unfold symWord
  split
  · rfl
  · rw [if_neg (by omega), if_neg (by omega), hv]

theorem symWord_reserved {b : Block} {i k : Nat} (hk : k = 3 ∨ k = 6 ∨ k = 7) : symWord b i k = 0 := by
  unfold symWord
  split
  · rfl
  rw [if_neg (by omega), if_neg (by omega)]
  split
  · rw [if_neg (by omega), if_neg (by omega), if_neg (by omega)]
  · rfl

/-- The code words of an occupied slot while CODES_VALID is on. -/
theorem symWord_code {b : Block} {i : Nat} {c : Code} (hi : i < b.n) (hv : b.codesValid = true)
    (hc : b.code[i]? = some c) :
    symWord b i 2 = c.len.setWidth 32 ∧ symWord b i 4 = c.bits.extractLsb' 0 32
      ∧ symWord b i 5 = c.bits.extractLsb' 32 32 := by
  simp [symWord, List.getElem?_eq_getElem hi, hv, hc]

/-- Settles O16: word by word through `symWord`; under the invariant no slot from N_SYM on is occupied. -/
theorem symWindowWords : Obligations.SymWindowWords := by
  intro s i k hi hk
  refine ⟨fun v => hostWrite_readOnly (by omega) (by omega) (by omega), fun hidle => ?_⟩
  have hread {m : Nat} (hm : m < 8) := portValue_sym hidle hi hm
  rw [hread hk]
  refine ⟨symWord_unoccupied k, fun slot hslot => ?_, fun c hn hv hc => ?_, symWord_noCode, symWord_reserved,
    fun hs hcap => symWord_unoccupied k (hs.block.table.fits.trans hcap)⟩
  · refine ⟨(hread (m := 0) (by decide)).trans ?_, (hread (m := 1) (by decide)).trans ?_⟩ <;> simp [symWord, hslot]
  · obtain ⟨hlen, hlo, hhi⟩ := symWord_code hn hv hc
    refine ⟨(hread (m := 2) (by decide)).trans hlen, ?_⟩
    rw [(hread (m := 5) (by decide)).trans hhi, (hread (m := 4) (by decide)).trans hlo]
    exact halves_append c.bits

/-! ### The NODE window (R40) -/

theorem portValue_node {s : State} (h : s.blk.busy = false) {j k : Nat} (hj : j < 4096) (hk : k < 4) :
    portValue s (0x20000 + 16 * j + 4 * k) = nodeWord s.blk j k := by
  rw [portValue_idle _ h, readWord_node _ _ hj hk]

/-- Entries read 0 while TREE_VALID is off, and past id 2n - 2. -/
theorem nodeWord_invalid {b : Block} {j : Nat} (k : Nat) (h : b.treeValid = false ∨ 2 * b.n < j + 2) :
    nodeWord b j k = 0 := by
  rw [nodeWord, if_neg]
  rintro hgate
  obtain ⟨hv, hj⟩ := Bool.and_eq_true_iff.1 hgate
  rcases h with h | h
  · rw [h] at hv; cases hv
  · have := of_decide_eq_true hj; omega

theorem nodeWord_valid {b : Block} {j : Nat} {x : Node} (k : Nat) (hv : b.treeValid = true) (hj : j + 2 ≤ 2 * b.n)
    (hx : b.node[j]? = some x) : nodeWord b j k = x.word k := by
  simp [nodeWord, hv, hj, hx]

/-- Settles O17: word by word through `nodeWord`; under the invariant no id reaches 2 N_SYM - 1. -/
theorem nodeWindowWords : Obligations.NodeWindowWords := by
  intro s j k hj hk
  refine ⟨fun v => hostWrite_readOnly (by omega) (by omega) (by omega), fun hidle => ?_⟩
  have hread {m : Nat} (hm : m < 4) := portValue_node hidle hj hm
  rw [hread hk]
  refine ⟨nodeWord_invalid k, fun hv hn => ?_, fun hs hcap => nodeWord_invalid k (.inr ?_)⟩
  · have hvalid {x : Node} (hx : s.blk.node[j]? = some x) {m : Nat} (hm : m < 4) :=
      (hread hm).trans (nodeWord_valid m hv hn hx)
    exact ⟨fun _ _ hx => ⟨hvalid hx (m := 0) (by decide), hvalid hx (m := 1) (by decide),
        hvalid hx (m := 2) (by decide), hvalid hx (m := 3) (by decide)⟩,
      fun _ _ _ hx => ⟨hvalid hx (m := 0) (by decide), hvalid hx (m := 1) (by decide),
        hvalid hx (m := 2) (by decide), hvalid hx (m := 3) (by decide)⟩⟩
  · have hfits := hs.block.table.fits
    omega

end Sys2Proof.Machine
end

section
/-! PROOFS. Writing ARG and CTRL commutes with a completion: a command reads the operand latched at its acceptance, and
no effect reads or writes the two registers (spec/10_state.md R24, R27; spec/70_reset_and_hazards.md R141). -/

namespace Sys2Proof.Machine

/-- S with ARG and IE written. -/
def Block.withPort (v : Word) (e : Bool) (b : Block) : Block := { b with arg := v, ie := e }

/-- The machine with ARG and IE written. -/
def State.withPort (v : Word) (e : Bool) (s : State) : State := s.withBlk (s.blk.withPort v e)

/-- The end of a command with its committed S changed by `f`. -/
def Effect.map (f : Block → Block) : Effect → Effect
  | .commit t => .commit (f t)
  | .raise r => .raise r
  | .stop x => .stop x

/-- An outcome with its next state changed by `f`. -/
def mapNext (f : State → State) : Host.Outcome State Fault Refusal → Host.Outcome State Fault Refusal
  | .next t => .next (f t)
  | .fault x => .fault x
  | .refused r => .refused r

theorem ofExcept_map (f : Block → Block) (e : Except Raise Block) :
    Effect.ofExcept (e.map f) = (Effect.ofExcept e).map f := by
  cases e <;> rfl

section
variable (v : Word) (e : Bool)

/-! ### The effects -/

theorem emit_withPort (c : Config) (x : Word) (op : Byte) (pos : Nat) (b : Block) :
    emit c x op pos (b.withPort v e) = (emit c x op pos b).map (Block.withPort v e) := by
  simp only [emit, apply_ite (Except.map _)]
  rfl

theorem rleStep_withPort (c : Config) (bit : Bool) (op : Byte) (pos : Nat) (b : Block) :
    rleStep c bit op pos (b.withPort v e) = (rleStep c bit op pos b).map (Block.withPort v e) := by
  have hemit := emit_withPort v e c b.rleLen op pos b
  simp only [rleStep, apply_ite (Except.map _)]
  rw [show (b.withPort v e).rleLen = b.rleLen from rfl, hemit]
  cases emit c b.rleLen op pos b <;> rfl

theorem feedBits_withPort (c : Config) (op : Byte) (bits : List Bool) (pos : Nat) (b : Block) :
    feedBits c op bits pos (b.withPort v e) = (feedBits c op bits pos b).map (Block.withPort v e) := by
  induction bits generalizing pos b with
  | nil => rfl
  | cons bit bits ih =>
    rw [feedBits, feedBits, rleStep_withPort]
    cases rleStep c bit op pos b with
    | ok t => exact ih (pos + 1) t
    | error r => rfl

theorem flushInput_withPort (c : Config) (b : Block) :
    flushInput c (b.withPort v e) = (flushInput c b).map (Block.withPort v e) := by
  have hemit := emit_withPort v e c b.rleLen 0x04 0 b
  simp only [flushInput, apply_ite (Except.map _)]
  rw [show (b.withPort v e).rleLen = b.rleLen from rfl, hemit]
  cases emit c b.rleLen 0x04 0 b <;> rfl

theorem buildTree_withPort (b : Block) : buildTree (b.withPort v e) = (buildTree b).map (Block.withPort v e) := by
  simp only [buildTree, apply_ite (Effect.map _)]
  rfl

theorem genCodes_withPort (c : Config) (b : Block) :
    genCodes c (b.withPort v e) = (genCodes c b).map (Block.withPort v e) := by
  unfold genCodes
  rw [show assignCodes (b.withPort v e).node c.lMax (b.withPort v e).root.toNat (b.withPort v e).n =
    assignCodes b.node c.lMax b.root.toNat b.n from rfl]
  cases assignCodes b.node c.lMax b.root.toNat b.n <;> rfl

/-- The effect of every command commutes with writing ARG and IE: it reads the latched operand (R64, R141). -/
theorem bodyOf_withPort (s : State) (i : Instr) (b : Block) :
    bodyOf (s.withPort v e) i (b.withPort v e) = (bodyOf s i b).map (Block.withPort v e) := by
  cases i with
  | nop | clear => rfl
  | feedBytes nb => exact (congrArg _ (feedBits_withPort v e s.cfg _ _ _ b)).trans (ofExcept_map _ _)
  | feedRun =>
    have hemit := (congrArg _ (emit_withPort v e s.cfg b.latArg 0x03 0 b)).trans (ofExcept_map _ _)
    simp only [bodyOf, apply_ite (Effect.map _)]
    exact congrArg (ite _ _) hemit
  | flush => exact (congrArg _ (flushInput_withPort v e s.cfg b)).trans (ofExcept_map _ _)
  | buildTree => exact buildTree_withPort v e b
  | genCodes => exact genCodes_withPort v e s.cfg b

/-! ### The command cycle -/

theorem exec_withPort (i : Instr) (s : State) : exec i (s.withPort v e) = mapNext (State.withPort v e) (exec i s) := by
  by_cases hi : i = .clear
  · subst hi; rfl
  rw [exec_eq_runCommand hi, exec_eq_runCommand hi]
  by_cases hp : s.blk.phase = .error
  · rw [runCommand_error hp, runCommand_error (s := s.withPort v e) hp]; rfl
  cases hl : legal i s.blk.phase with
  | false => rw [runCommand_sequence hp hl, runCommand_sequence (s := s.withPort v e) hp hl]; rfl
  | true =>
    rw [runCommand_legal hp hl, runCommand_legal (s := s.withPort v e) hp hl,
      show (s.withPort v e).blk = s.blk.withPort v e from rfl, bodyOf_withPort]
    cases bodyOf s i s.blk <;> rfl

theorem execute_withPort (s : State) : execute (s.withPort v e) = mapNext (State.withPort v e) (execute s) := by
  unfold execute
  rw [show fetchWord (s.withPort v e) = fetchWord s from rfl]
  cases decode (fetchWord s) with
  | ok i => exact exec_withPort v e i s
  | error _ =>
    simp only [illegalCommand, mapNext, apply_ite (State.withPort v e)]
    rfl

theorem finish_withPort (b : Block) : finish (b.withPort v e) = (finish b).withPort v e := by
  have htest : ((b.withPort v e).overrun && !(b.withPort v e).err) = (b.overrun && !b.err) := rfl
  unfold finish
  rw [htest]
  cases b.overrun && !b.err <;> rfl

theorem complete_withPort (s : State) : complete (s.withPort v e) = mapNext (State.withPort v e) (complete s) := by
  unfold complete
  rw [execute_withPort]
  cases execute s with
  | next t => exact congrArg (fun b => Host.Outcome.next (t.withBlk b)) (finish_withPort v e t.blk)
  | fault _ => rfl
  | refused _ => rfl

end

/-- Settles O31: a completion commutes with writing ARG and IE. -/
theorem operandLatchedAtAcceptance : Obligations.OperandLatchedAtAcceptance := by
  intro s t v e h
  exact (complete_withPort v e s).trans (congrArg (mapNext (State.withPort v e)) h)

end Sys2Proof.Machine
end

section
/-! PROOFS. The bits of a FEED_BYTES operand in consumption order (spec/20_memory.md R50, R51; spec/41_analyzer.md
R79). -/

namespace Sys2Proof.Machine

/-- The bits of lane k are the bits 8k to 8k+7 of the word, in that order (R50, R51). -/
theorem byteBits_lane (a : Word) (k : Nat) : byteBits (lane a k) = ((List.range 8).map (8 * k + ·)).map a.getLsbD := by
  have hbit {i : Nat} (hi : i < 8) : (lane a k).getLsbD i = a.getLsbD (8 * k + i) := by
    rw [lane, BitVec.getLsbD_extractLsb', decide_eq_true hi, Bool.true_and]
  calc byteBits (lane a k)
      = (List.range 8).map (lane a k).getLsbD := rfl
    _ = (List.range 8).map (fun i => a.getLsbD (8 * k + i)) :=
        List.map_congr_left fun _ hi => hbit (List.mem_range.1 hi)
    _ = ((List.range 8).map (8 * k + ·)).map a.getLsbD := List.map_map.symm

/-- The bits of the lowest m lanes are the lowest 8m bits of the word, in order (R79). -/
theorem bytesBits_lanes (a : Word) (m : Nat) :
    bytesBits ((List.range m).map (lane a)) = (List.range (8 * m)).map a.getLsbD := by
  induction m with
  | zero => rfl
  | succ m ih =>
    rw [bytesBits] at ih ⊢
    rw [List.range_succ, List.map_append, List.flatMap_append, ih, Nat.mul_succ, List.range_add, List.map_append,
      ← byteBits_lane]
    simp

/-- Settles O5: the operand's bytes are its lowest NB + 1 lanes. -/
theorem feedBytesOperandBitsInOrder : Obligations.FeedBytesOperandBitsInOrder :=
  fun nb a => bytesBits_lanes a (nb.toNat + 1)

end Sys2Proof.Machine
end

section
/-! PROOFS. What a host access does at each offset (spec/20_memory.md R45 to R53): bus errors, the one effect of a write,
and reads while a command runs. -/

namespace Sys2Proof.Machine

/-! ### Bus errors (R48) -/

/-- The three causes of a bus error (R48). -/
theorem isBusError_iff {size : Size} {off : Nat} :
    isBusError size off = true ↔ size ≠ .b32 ∨ off % 4 ≠ 0 ∨ 0x30000 ≤ off := by
  simp [isBusError, or_assoc]

theorem hostRead_busError {size : Size} {off : Nat} (s : State) (h : isBusError size off = true) :
    hostRead size off s = s.respond .busError := if_pos h

theorem hostWrite_busError {size : Size} {off : Nat} (v : Word) (s : State) (h : isBusError size off = true) :
    hostWrite size off v s = s.respond .busError := if_pos h

/-- Settles O7: each cause makes the access a bus error, which only answers the host. -/
theorem busErrorsChangeNothing : Obligations.BusErrorsChangeNothing := by
  intro s size off v h
  have herr : isBusError size off = true := isBusError_iff.2 h
  exact ⟨hostRead_busError s herr, hostWrite_busError v s herr⟩

/-! ### The one effect of a write (R46) -/

/-- A write to STATUS clears DONE if bit 1 of the value is set. -/
theorem writeWord_status (v : Word) (b : Block) :
    writeWord 0x000C v b = { b with done := if v.getLsbD 1 then false else b.done } := by
  by_cases hv : v.getLsbD 1 = true
  · rw [if_pos hv]; exact if_pos hv
  · rw [if_neg hv]; exact if_neg hv

/-- Settles O8: a taken write has the effect that `writeWord` gives its offset. -/
theorem writesHaveOneEffect : Obligations.WritesHaveOneEffect := by
  intro s off v
  refine ⟨fun h => ?_, fun h => ?_, fun h => ?_, fun h => ?_, fun h => ?_, fun ha hw h₁ h₂ h₃ h₄ => ?_⟩
  · exact hostWrite_busError v s (isBusError_iff.2 (.inr h))
  · subst h; exact hostWrite_taken rfl
  · subst h; rw [hostWrite_taken rfl, writeWord_status]; rfl
  · subst h; exact hostWrite_taken rfl
  · subst h; exact hostWrite_taken rfl
  · rw [hostWrite_taken (isBusError_eq_false ha hw), writeWord_other h₁ h₂ h₃ h₄]; rfl

/-! ### Reads while a command runs (R53) -/

/-- A taken read that draws no free value returns the word of the window, and changes nothing. -/
theorem hostRead_exact {off : Nat} {s : State} (h : isBusError .b32 off = false) (hd : drawsFree s.blk off = false) :
    hostRead .b32 off s = s.respond (.readData (readWord s.cfg s.blk off)) := by
  rw [hostRead_taken h, portValue_eq_readWord hd, hd]; rfl

/-- A taken read that draws a free value returns the next one, and uses it up. -/
theorem hostRead_free {off : Nat} {s : State} (h : isBusError .b32 off = false) (hd : drawsFree s.blk off = true) :
    hostRead .b32 off s = { s.respond (.readData (Config.freeWord s.draws)) with draws := s.draws + 1 } := by
  rw [hostRead_taken h, portValue, if_pos hd, if_pos hd]

/-- While a command runs, the result registers and the two windows draw free values. -/
theorem drawsFree_busy {b : Block} {off : Nat} (hb : b.busy = true)
    (h : 0x0018 ≤ off ∧ off ≤ 0x0034 ∨ 0x10000 ≤ off) : drawsFree b off = true := by
  simpa [drawsFree, hb, unspecifiedWhileBusy] using h

theorem readWord_status (c : Config) (b : Block) : readWord c b 0x000C = statusWord b := by rfl

/-- A host write leaves the error record alone (R46). -/
theorem writeWord_errorRecord (off : Nat) (v : Word) (b : Block) :
    (writeWord off v b).errCode = b.errCode ∧ (writeWord off v b).errOp = b.errOp
      ∧ (writeWord off v b).errPos = b.errPos := by
  unfold writeWord
  split
  · exact ⟨rfl, rfl, rfl⟩
  split
  · split <;> exact ⟨rfl, rfl, rfl⟩
  split
  · split <;> simp
  split <;> exact ⟨rfl, rfl, rfl⟩

/-- Every field of STATUS but BUSY and DONE is told by the phase, the valid flags and the error record (R25). -/
theorem statusWord_upper_congr {b t : Block} (hphase : t.phase = b.phase) (htree : t.treeValid = b.treeValid)
    (hcodes : t.codesValid = b.codesValid) (hcode : t.errCode = b.errCode) (hop : t.errOp = b.errOp)
    (hpos : t.errPos = b.errPos) : (statusWord t).extractLsb' 2 30 = (statusWord b).extractLsb' 2 30 := by
  refine extractLsb'_eq_of_getLsbD fun k hk => ?_
  have hbusy : ¬ 2 + k < 1 := by omega
  have hdone : ¬ 2 + k < 2 := by omega
  rw [BitVec.getLsbD_extractLsb', decide_eq_true hk, Bool.true_and, statusWord_getLsbD, statusWord_getLsbD,
    if_neg hbusy, if_neg hdone, if_neg hbusy, if_neg hdone, Block.err, Block.err, hphase, htree, hcodes, hcode, hop, hpos]

/-- Settles O11: the offset decides whether a busy read draws a free value, the invariant gives BUSY and DONE, and no
write changes what the other fields of STATUS show. -/
theorem busyReadsAreExactOrFree : Obligations.BusyReadsAreExactOrFree := by
  refine ⟨fun s off hbusy ha hw => ?_, fun s hs hbusy => ?_, fun c b off v => ?_⟩
  · have htaken : isBusError .b32 off = false := isBusError_eq_false ha hw
    exact ⟨fun h => hostRead_exact htaken (drawsFree_eq_false _ (.inl (by omega))),
      fun h => hostRead_free htaken (drawsFree_busy hbusy h)⟩
  · obtain ⟨hb, hd, -, -, -⟩ := statusWord_flags s.blk
    rw [readWord_status]
    exact ⟨hb.trans hbusy, hd.trans (hs.block.busyDone hbusy)⟩
  · obtain ⟨hphase, htree, hcodes⟩ := writeWord_flags off v b
    obtain ⟨hcode, hop, hpos⟩ := writeWord_errorRecord off v b
    rw [readWord_status, readWord_status]
    exact statusWord_upper_congr hphase htree hcodes hcode hop hpos

end Sys2Proof.Machine
end

section
/-! PROOFS. The host's move and the three ways in which S changes (spec/20_memory.md R45, R49, R52, R54), and that no state
of the invariant stops. -/

namespace Sys2Proof.Machine

/-! ### The host's next operation -/

theorem step_host {s : State} (h : nextAgent s = .host) : step s = hostStep (turn s) := by rw [step, h]; rfl

theorem hostStep_nil {s : State} (h : s.prog = []) : hostStep s = .next s := by rw [hostStep, h]

theorem hostStep_cons {s : State} {op : HostOp} {rest : List HostOp} (h : s.prog = op :: rest) :
    hostStep s = hostOp { s with prog := rest } op := by rw [hostStep, h]

theorem hostOp_read (s : State) (size : Size) (off : Nat) :
    hostOp s (.read size (s.cfg.base + off)) = .next (hostRead size off s) := by
  simp [hostOp]

theorem hostOp_write (s : State) (size : Size) (off : Nat) (v : Word) :
    hostOp s (.write size (s.cfg.base + off) v) = .next (hostWrite size off v s) := by
  simp [hostOp]

theorem hostOp_read_below {s : State} (size : Size) {addr : Nat} (h : addr < s.cfg.base) :
    hostOp s (.read size addr) = .refused (.outsideWindow addr) := if_pos h

theorem hostOp_write_below {s : State} (size : Size) {addr : Nat} (v : Word) (h : addr < s.cfg.base) :
    hostOp s (.write size addr v) = .refused (.outsideWindow addr) := if_pos h

/-- Settles O6: the host's move takes its next operation off the program and performs it at its offset. -/
theorem hostOperationsReachTheWindow : Obligations.HostOperationsReachTheWindow := by
  intro s rest size off addr v hhost
  rw [step_host hhost]
  refine ⟨fun h => ?_, fun h => ?_, fun h => hostStep_nil h, hostRead_blk size off s, fun hs ha hw hidle => ?_,
    fun h hbelow => ?_⟩
  · rw [hostStep_cons (s := turn s) h]; exact hostOp_read _ size off
  · rw [hostStep_cons (s := turn s) h]; exact hostOp_write _ size off v
  · subst hs
    exact hostRead_exact (isBusError_eq_false ha hw) (by simp [drawsFree, hidle])
  · rcases h with h | h <;> rw [hostStep_cons (s := turn s) h]
    · exact hostOp_read_below size hbelow
    · exact hostOp_write_below size v hbelow

/-! ### The three ways in which S changes (R52) -/

/-- A host operation that changes S is a 32-bit write in the window, with the write's effect (R46). -/
theorem hostOp_changes_blk {s t : State} {op : HostOp} (h : hostOp s op = .next t) (hne : t.blk ≠ s.blk) :
    ∃ off v, op = .write .b32 (s.cfg.base + off) v ∧ off % 4 = 0 ∧ off < 0x30000 ∧ t.blk = writeWord off v s.blk := by
  cases op with
  | read size addr =>
    by_cases hbelow : addr < s.cfg.base
    · cases (hostOp_read_below size hbelow).symm.trans h
    · obtain ⟨off, rfl⟩ := Nat.exists_eq_add_of_le (not_lt.1 hbelow)
      cases (hostOp_read s size off).symm.trans h
      exact absurd (hostRead_blk size off s) hne
  | write size addr v =>
    by_cases hbelow : addr < s.cfg.base
    · cases (hostOp_write_below size v hbelow).symm.trans h
    · obtain ⟨off, rfl⟩ := Nat.exists_eq_add_of_le (not_lt.1 hbelow)
      cases (hostOp_write s size off v).symm.trans h
      by_cases herr : isBusError size off = true
      · rw [hostWrite_busError v s herr] at hne
        exact absurd rfl hne
      · have hwindow := mt isBusError_iff.2 herr
        push Not at hwindow
        obtain ⟨rfl, ha, hw⟩ := hwindow
        exact ⟨off, v, rfl, ha, hw, hostWrite_taken_blk (isBusError_eq_false ha hw)⟩
  | wait | waitIrq | checkNonempty =>
    simp only [hostOp] at h
    cases h
    exact absurd (by split <;> simp) hne

/-- Settles O22: the host changes S by its operation alone, an engine with nothing accepted leaves S, and the platform
resets it. -/
theorem stateChangesInThreeWays : Obligations.StateChangesInThreeWays := by
  intro s t h hne
  unfold step at h
  cases hagent : nextAgent s with
  | host =>
    rw [hagent] at h
    refine .inl ⟨rfl, ?_⟩
    cases hprog : s.prog with
    | nil =>
      cases (hostStep_nil (s := turn s) hprog).symm.trans h
      exact absurd rfl hne
    | cons op rest =>
      obtain ⟨off, v, rfl, ha, hw, hblk⟩ :=
        hostOp_changes_blk ((hostStep_cons (s := turn s) hprog).symm.trans h) hne
      exact ⟨off, v, rest, rfl, ha, hw, hblk⟩
  | engine =>
    rw [hagent] at h
    by_cases hbusy : s.blk.busy = true
    · exact .inr (.inl ⟨rfl, hbusy, (if_pos hbusy).symm.trans h⟩)
    · cases (if_neg hbusy).symm.trans h
      exact absurd rfl hne
  | platform =>
    rw [hagent] at h
    cases h
    exact .inr (.inr ⟨rfl, rfl⟩)

/-! ### No state of the invariant stops -/

/-- A program that keeps only operations of a routed one is routed. -/
theorem Routed.of_subset {s t : State} (h : Routed s) (hcfg : t.cfg = s.cfg) (hprog : t.prog ⊆ s.prog) : Routed t := by
  intro op hop
  rw [hcfg]
  exact h op (hprog hop)

/-- The host's move answers a next state with no new operation, or is refused because its program is not routed. -/
theorem hostStep_answers (s : State) :
    (∃ t, hostStep s = .next t ∧ t.cfg = s.cfg ∧ t.prog ⊆ s.prog) ∨ ¬ Routed s ∧ ∃ r, hostStep s = .refused r := by
  cases hprog : s.prog with
  | nil => exact .inl ⟨s, hostStep_nil hprog, rfl, by simp [hprog]⟩
  | cons op rest =>
    rw [hostStep_cons hprog]
    have hmem : op ∈ s.prog := by simp [hprog]
    cases op with
    | read size addr =>
      by_cases hbelow : addr < s.cfg.base
      · exact .inr ⟨fun hr => absurd (hr _ hmem) (not_le.2 hbelow), _, hostOp_read_below size hbelow⟩
      · exact .inl ⟨_, if_neg hbelow, by simp, by simp⟩
    | write size addr v =>
      by_cases hbelow : addr < s.cfg.base
      · exact .inr ⟨fun hr => absurd (hr _ hmem) (not_le.2 hbelow), _, hostOp_write_below size v hbelow⟩
      · exact .inl ⟨_, if_neg hbelow, by simp, by simp⟩
    | wait | waitIrq | checkNonempty =>
      refine .inl ⟨_, rfl, ?_⟩
      split <;> simp

/-- Committing and raising are no stop. -/
theorem ofExcept_ne_stop (e : Except Raise Block) (f : Fault) : Effect.ofExcept e ≠ .stop f := by
  cases e <;> simp [Effect.ofExcept]

/-- Where a command is legal, its effect on a state of the invariant is no stop: GEN_CODES finds a tree (R43 item 5). -/
theorem Inv.bodyOf_ne_stop {s : State} (hs : Inv s) {i : Instr} (hl : legal i s.blk.phase = true) (f : Fault) :
    bodyOf s i s.blk ≠ .stop f := by
  cases i with
  | nop | clear => simp [bodyOf]
  | feedBytes _ | flush => exact ofExcept_ne_stop _ f
  | feedRun =>
    simp only [bodyOf]
    split
    · simp
    · exact ofExcept_ne_stop _ f
  | buildTree =>
    rcases buildTree_keeps hs.config hs.block (of_decide_eq_true hl) with ⟨t, ht, -⟩ | hr
    · simp [bodyOf, ht]
    · simp [bodyOf, hr]
  | genCodes =>
    rcases genCodes_keeps hs.config hs.block (of_decide_eq_true hl) with ⟨t, ht, -⟩ | hr
    · simp [bodyOf, ht]
    · simp [bodyOf, hr]

theorem Inv.exec_answers {s : State} (hs : Inv s) (i : Instr) : ∃ t, exec i s = .next t := by
  by_cases hi : i = .clear
  · subst hi; exact ⟨_, exec_clear s⟩
  rw [exec_eq_runCommand hi]
  by_cases hp : s.blk.phase = .error
  · exact ⟨_, runCommand_error hp⟩
  cases hl : legal i s.blk.phase with
  | false => exact ⟨_, runCommand_sequence hp hl⟩
  | true =>
    rw [runCommand_legal hp hl]
    cases hb : bodyOf s i s.blk with
    | commit t => exact ⟨_, rfl⟩
    | raise r => exact ⟨_, rfl⟩
    | stop f => exact absurd hb (hs.bodyOf_ne_stop hl f)

/-- Every accepted word completes from a state of the invariant, and leaves everything outside S (R73). -/
theorem Inv.complete_answers {s : State} (hs : Inv s) : ∃ b, complete s = .next (s.withBlk b) := by
  have hexec : ∃ t, execute s = .next t := by
    unfold execute
    cases decode (fetchWord s) with
    | ok i => exact hs.exec_answers i
    | error e => exact ⟨_, rfl⟩
  obtain ⟨t, ht⟩ := hexec
  refine ⟨finish t.blk, ?_⟩
  rw [complete, ht, concludeCycle, execute_withBlk ht]
  rfl

/-- A step from a state of the invariant answers a next state with no new operation, or is refused because the program
is not routed. -/
theorem Inv.step_answers {s : State} (hs : Inv s) :
    (∃ t, step s = .next t ∧ t.cfg = s.cfg ∧ t.prog ⊆ s.prog) ∨ ¬ Routed s ∧ ∃ r, step s = .refused r := by
  unfold step
  cases nextAgent s with
  | host => exact hostStep_answers (turn s)
  | engine =>
    by_cases hbusy : s.blk.busy = true
    · have hturn : Inv (turn s) := ⟨hs.config, hs.block⟩
      obtain ⟨b, hb⟩ := hturn.complete_answers
      exact .inl ⟨_, (if_pos hbusy).trans hb, rfl, fun _ h => h⟩
    · exact .inl ⟨_, if_neg hbusy, rfl, fun _ h => h⟩
  | platform => exact .inl ⟨_, rfl, rfl, fun _ h => h⟩

/-- Settles O59: a step that is not refused for its routing answers a next state, whose program is part of the old one. -/
theorem invariantStatesNeverStop : Obligations.InvariantStatesNeverStop := by
  intro s hs
  rcases hs.step_answers with ⟨t, ht, hcfg, hprog⟩ | ⟨hr, r, href⟩
  · exact ⟨fun f hf => (by cases ht.symm.trans hf), fun hr => ⟨t, ht, hr.of_subset hcfg hprog⟩⟩
  · exact ⟨fun f hf => (by cases href.symm.trans hf), fun h => absurd h hr⟩

end Sys2Proof.Machine
end

section
/-! PROOFS. Decoding and encoding are inverse on the legal words, and the opcode map, the illegal words and their completion
follow (spec/30_encoding.md R60 to R66; spec/60_exceptions.md R110). -/

namespace Sys2Proof

/-! ### Words and instructions (R60, R66) -/

/-- The word of an instruction is selected by its row and has the instruction's fields. -/
theorem fitsTable (i : Instr) : Laws.FitsTable.Statement i := by
  cases i with
  | nop => exact Laws.FitsTable.nop
  | clear => exact Laws.FitsTable.clear
  | feedBytes nb => exact Laws.FitsTable.feedBytes nb
  | feedRun => exact Laws.FitsTable.feedRun
  | flush => exact Laws.FitsTable.flush
  | buildTree => exact Laws.FitsTable.buildTree
  | genCodes => exact Laws.FitsTable.genCodes

/-- The fields of a word tell what it decodes to: the converse of `decode_fields`. -/
theorem decode_eq_ok_iff_fields {w : Word} {i : Instr} :
    decode w = .ok i ↔ fieldRsv w = 0 ∧ fieldNb w = nbField i ∧ fieldOp w = opcode i := by
  refine ⟨decode_fields, fun ⟨hrsv, hnb, hop⟩ => ?_⟩
  cases i <;> simp [decode, hrsv, hnb, hop, nbField, opcode]

theorem decode_encode (i : Instr) : decode (encode i) = .ok i :=
  have ⟨_, hrsv, hop, hnb⟩ := fitsTable i
  decode_eq_ok_iff_fields.2 ⟨hrsv, hnb, hop⟩

/-- The words that decode to an instruction: its encoding alone. -/
theorem decode_eq_ok_iff {w : Word} {i : Instr} : decode w = .ok i ↔ w = encode i := by
  refine ⟨fun h => ?_, fun h => h ▸ decode_encode i⟩
  obtain ⟨hrsv, hnb, hop⟩ := decode_fields h
  obtain ⟨hrsv', hnb', hop'⟩ := decode_fields (decode_encode i)
  exact word_ext (hrsv.trans hrsv'.symm) (hnb.trans hnb'.symm) (hop.trans hop'.symm)

/-- Settles O2: an instruction's encoding is the one word that decodes to it. -/
theorem decodeInvertsEncode : Obligations.DecodeInvertsEncode :=
  ⟨decode_encode, fun _ _ h => (decode_eq_ok_iff.1 h).symm⟩

/-- Settles O1: each legal word is the encoding of its command, and the other seven are refused by the first test of R66
that they fail. -/
theorem writtenWordsDecode : Obligations.WrittenWordsDecode :=
  ⟨decode_encode .nop, decode_encode .clear, decode_encode (.feedBytes 0), decode_encode (.feedBytes 1),
    decode_encode (.feedBytes 2), decode_encode (.feedBytes 3), decode_encode .feedRun, decode_encode .flush,
    decode_encode .buildTree, decode_encode .genCodes, by decide⟩

/-! ### The opcode map (R62) -/

/-- The fields of a masked word are its masked fields. -/
theorem fields_and (w m : Word) :
    fieldRsv (w &&& m) = fieldRsv w &&& fieldRsv m ∧ fieldNb (w &&& m) = fieldNb w &&& fieldNb m
      ∧ fieldOp (w &&& m) = fieldOp w &&& fieldOp m :=
  ⟨BitVec.extractLsb'_and .., BitVec.extractLsb'_and .., BitVec.extractLsb'_and ..⟩

/-- A word decodes to an instruction exactly when the full mask leaves the instruction's encoding. -/
theorem decode_eq_ok_iff_and (w : Word) (i : Instr) : decode w = .ok i ↔ w &&& 0xFFFFFFFF = encode i := by
  have hfull : w &&& 0xFFFFFFFF = w := BitVec.and_allOnes
  rw [hfull, decode_eq_ok_iff]

/-- The mask of FEED_BYTES clears NB and keeps the other two fields. -/
theorem exists_decode_feedBytes_iff (w : Word) :
    (∃ nb, decode w = .ok (.feedBytes nb)) ↔ w &&& 0xFFFFFCFF = 0x00000002 := by
  have hmask : fieldRsv (w &&& 0xFFFFFCFF) = fieldRsv w ∧ fieldNb (w &&& 0xFFFFFCFF) = 0
      ∧ fieldOp (w &&& 0xFFFFFCFF) = fieldOp w := by
    obtain ⟨hrsv, hnb, hop⟩ := fields_and w 0xFFFFFCFF
    exact ⟨hrsv.trans BitVec.and_allOnes, hnb.trans BitVec.and_zero, hop.trans BitVec.and_allOnes⟩
  obtain ⟨hrsv, hnb, hop⟩ := hmask
  constructor
  · rintro ⟨nb, h⟩
    obtain ⟨hr, -, ho⟩ := decode_fields h
    exact word_ext (hrsv.trans hr) hnb (hop.trans ho)
  · intro h
    rw [h] at hrsv hop
    exact ⟨fieldNb w, decode_eq_ok_iff_fields.2 ⟨hrsv.symm, rfl, hop.symm⟩⟩

/-- Every row but that of FEED_BYTES is the encoding under the full mask. -/
theorem tableRow_cases (i : Instr) : (∃ nb, i = .feedBytes nb) ∨ tableRow i = ⟨encode i, 0xFFFFFFFF⟩ := by
  cases i with
  | feedBytes nb => exact .inl ⟨nb, rfl⟩
  | nop | clear | feedRun | flush | buildTree | genCodes => exact .inr rfl

/-- A word that selects a row decodes to a command of that row. -/
theorem exists_decode_of_selects {w : Word} {i : Instr} (h : (tableRow i).selects w = true) :
    ∃ j, decode w = .ok j ∧ tableRow j = tableRow i := by
  have h : w &&& (tableRow i).mask = (tableRow i).pattern := of_decide_eq_true h
  rcases tableRow_cases i with ⟨nb, rfl⟩ | hrow
  · obtain ⟨nb', hd⟩ := (exists_decode_feedBytes_iff w).2 h
    exact ⟨.feedBytes nb', hd, rfl⟩
  · rw [hrow] at h
    exact ⟨i, (decode_eq_ok_iff_and w i).2 h, rfl⟩

/-- Settles O3: each mask picks out the words of its row's command, and two rows that select a word are the row of what the
word decodes to. -/
theorem opcodeMapSelectsOneRow : Obligations.OpcodeMapSelectsOneRow := by
  refine ⟨fun w => ?_, fun w i j hi hj => ?_⟩
  · exact ⟨decode_eq_ok_iff_and w .nop, decode_eq_ok_iff_and w .clear, exists_decode_feedBytes_iff w,
      decode_eq_ok_iff_and w .feedRun, decode_eq_ok_iff_and w .flush, decode_eq_ok_iff_and w .buildTree,
      decode_eq_ok_iff_and w .genCodes⟩
  · obtain ⟨i', hdi, hrowi⟩ := exists_decode_of_selects hi
    obtain ⟨j', hdj, hrowj⟩ := exists_decode_of_selects hj
    obtain rfl : i' = j' := Except.ok.inj (hdi.symm.trans hdj)
    exact hrowi.symm.trans hrowj

/-! ### The illegal words (R65) -/

/-- The field values that some instruction has: an opcode of the map, and NB only with that of FEED_BYTES (R62, R63). -/
theorem exists_fields_iff {nb : BitVec 2} {op : Byte} :
    (∃ i, nb = nbField i ∧ op = opcode i) ↔ op.toNat < 0x07 ∧ (nb = 0 ∨ op = 0x02) := by
  constructor
  · rintro ⟨i, rfl, rfl⟩
    cases i <;> simp [nbField, opcode]
  · rintro ⟨hop, hnb⟩
    by_cases h : op = 0x02
    · exact ⟨.feedBytes nb, rfl, h⟩
    obtain rfl := hnb.resolve_right h
    have hcases : op = 0x00 ∨ op = 0x01 ∨ op = 0x03 ∨ op = 0x04 ∨ op = 0x05 ∨ op = 0x06 := by bv_omega
    rcases hcases with rfl | rfl | rfl | rfl | rfl | rfl
    · exact ⟨.nop, rfl, rfl⟩
    · exact ⟨.clear, rfl, rfl⟩
    · exact ⟨.feedRun, rfl, rfl⟩
    · exact ⟨.flush, rfl, rfl⟩
    · exact ⟨.buildTree, rfl, rfl⟩
    · exact ⟨.genCodes, rfl, rfl⟩

/-- The legal words (R65). -/
theorem exists_decode_iff {w : Word} :
    (∃ i, decode w = .ok i) ↔ fieldRsv w = 0 ∧ (fieldOp w).toNat < 0x07 ∧ (fieldNb w = 0 ∨ fieldOp w = 0x02) := by
  simp only [decode_eq_ok_iff_fields, exists_and_left, exists_fields_iff]

/-- A word is illegal exactly when it decodes to no instruction. -/
theorem exists_decode_error_iff {w : Word} : (∃ e, decode w = .error e) ↔ ¬ ∃ i, decode w = .ok i := by
  cases decode w <;> simp

namespace Machine

/-! ### The completion of an illegal word (R110) -/

theorem execute_illegal {s : State} {e : Illegal} (h : decode s.blk.latCmd = .error e) :
    execute s = .next (illegalCommand s.blk.latCmd s) := by
  rw [execute, fetchWord, h]

/-- In ERROR the end of a completion records no overrun: it only closes the handshake (spec/40_command_cycle.md R72). -/
theorem withBlk_finish_of_error {s : State} (h : s.blk.phase = .error) : s.withBlk (finish s.blk) = closed s := by
  have herr : (s.blk.overrun && !s.blk.err) = false := by simp [Block.err, h]
  rw [finish, herr]
  rfl

/-- Settles O4: the illegal words are those outside `exists_decode_iff`, and `illegalCommand` enters ERROR or finds it
entered. -/
theorem illegalWordsEndInIllegalCmd : Obligations.IllegalWordsEndInIllegalCmd := by
  refine ⟨fun w => ?_, fun s e he => ?_⟩
  · rw [exists_decode_error_iff, exists_decode_iff, fieldRsv, fieldOp, fieldNb, ← not_lt]
    tauto
  · have hfail (hp : s.blk.phase ≠ .error) :
        execute s = .next (failed .illegalCmd (s.blk.latCmd.extractLsb' 0 8) 0 s) := by
      rw [execute_illegal he, illegalCommand, if_neg hp]; rfl
    refine ⟨hfail, fun hp => ?_, fun hp => ?_⟩
    · rw [complete, hfail hp, concludeCycle, withBlk_finish_of_error (by rfl)]
    · rw [execute_illegal he, illegalCommand, if_pos hp]

end Machine
end Sys2Proof
end

section
/-! PROOFS. What the lines of a host program stand for (spec/30_encoding.md R67, R68; spec/70_reset_and_hazards.md
R139). -/

namespace Sys2Proof.Machine

/-! ### The waits and CHECK_NONEMPTY -/

/-- The host's move performs the operation at the head of its program. -/
theorem step_hostOp {s : State} {op : HostOp} {rest : List HostOp} (hhost : nextAgent s = .host)
    (h : s.prog = op :: rest) : step s = hostOp { turn s with prog := rest } op := by
  rw [step_host hhost, hostStep_cons (s := turn s) h]

/-- A wait reads STATUS and keeps its line exactly while BUSY = 1. -/
theorem hostOp_wait (s : State) :
    ∃ t, hostOp s .wait = .next t ∧ t.blk = s.blk ∧ t.prog = if s.blk.busy then .wait :: s.prog else s.prog := by
  have hbit : (portValue s (offsetOf .status)).getLsbD 0 = s.blk.busy := by
    rw [offsetOf, portValue_status, (statusWord_flags s.blk).1]
  refine ⟨_, rfl, ?_, ?_⟩ <;> rw [hbit] <;> split <;> simp

theorem hostOp_waitIrq (s : State) :
    hostOp s .waitIrq = .next { s with prog := if irq s.blk then s.prog else .waitIrq :: s.prog } := by
  cases h : irq s.blk <;> simp [hostOp, h]

/-- While no command runs NSYM reads 0 exactly on an empty table, since n is at most 2048. -/
theorem Inv.portValue_nsym_eq_zero {s : State} (hs : Inv s) (hidle : s.blk.busy = false) :
    portValue s (offsetOf .nsym) = 0 ↔ s.blk.n = 0 := by
  have hread : portValue s (offsetOf .nsym) = BitVec.ofNat 32 s.blk.n := portValue_result hidle (by decide)
  have hn : s.blk.n ≤ 2048 := by
    have hfits := hs.block.table.fits
    have hwf := hs.config
    simp [Config.wf] at hwf
    omega
  rw [hread, ← BitVec.toNat_inj, BitVec.toNat_ofNat, Nat.mod_eq_of_lt (by omega)]
  rfl

/-- CHECK_NONEMPTY reads NSYM and drops the rest of the program exactly on an empty table. -/
theorem Inv.hostOp_checkNonempty {s : State} (hs : Inv s) (hidle : s.blk.busy = false) :
    ∃ t, hostOp s .checkNonempty = .next t ∧ t.blk = s.blk ∧ t.prog = if s.blk.n = 0 then [] else s.prog := by
  refine ⟨_, rfl, ?_, ?_⟩ <;> simp only [hs.portValue_nsym_eq_zero hidle] <;> split <;> simp

/-! ### The operand of a FEED group (R68) -/

theorem packBytes_lt (xs : List Byte) : packBytes xs < 256 ^ xs.length := by
  induction xs with
  | nil => simp [packBytes]
  | cons x xs ih =>
    have hx := x.isLt
    rw [packBytes, List.length_cons, Nat.pow_succ]
    omega

/-- The base-256 digits of a packed group are its bytes, lane 0 first. -/
theorem packBytes_digit (xs : List Byte) {k : Nat} (hk : k < xs.length) :
    packBytes xs / 256 ^ k % 256 = (xs[k]).toNat := by
  induction xs generalizing k with
  | nil => simp at hk
  | cons x xs ih =>
    have hx := x.isLt
    rw [packBytes]
    cases k with
    | zero => simp; omega
    | succ k =>
      have htail : (x.toNat + 256 * packBytes xs) / 256 = packBytes xs := by omega
      rw [Nat.pow_succ', ← Nat.div_div_eq_div_mul, htail]
      exact ih (by simpa using hk)

/-- Lane k of a packed group of at most four bytes is its byte k. -/
theorem lane_packBytes {group : List Byte} (h : group.length ≤ 4) {k : Nat} (hk : k < group.length) :
    lane (BitVec.ofNat 32 (packBytes group)) k = group[k] := by
  have hlt : packBytes group < 2 ^ 32 :=
    calc packBytes group < 256 ^ group.length := packBytes_lt group
      _ ≤ 256 ^ 4 := Nat.pow_le_pow_right (by decide) h
  have hpow : 2 ^ (8 * k) = 256 ^ k := Nat.pow_mul 2 8 k
  apply BitVec.eq_of_toNat_eq
  rw [lane, BitVec.extractLsb'_toNat, BitVec.toNat_ofNat, Nat.mod_eq_of_lt hlt, Nat.shiftRight_eq_div_pow, hpow]
  exact packBytes_digit group hk

/-- The operand of a group's FEED_BYTES has the bytes of the group, in order. -/
theorem operandBytes_packBytes {group : List Byte} (h₁ : 1 ≤ group.length) (h₄ : group.length ≤ 4) :
    operandBytes (BitVec.ofNat 2 (group.length - 1)) (BitVec.ofNat 32 (packBytes group)) = group := by
  have hcount : (BitVec.ofNat 2 (group.length - 1)).toNat + 1 = group.length := by
    rw [BitVec.toNat_ofNat]; omega
  rw [operandBytes, hcount]
  refine List.ext_getElem (by simp) fun k _ hk => ?_
  rw [List.getElem_map, List.getElem_range, lane_packBytes h₄ hk]

/-! ### The groups of a FEED line (R68) -/

/-- A nonempty FEED line is a sequence of groups of 4 bytes and a last group of 1 to 4. -/
theorem feedLine_groups (c : Config) (bytes : List Byte) (h : bytes ≠ []) :
    ∃ (groups : List (List Byte)) (last : List Byte),
      bytes = groups.flatten ++ last ∧ (∀ g ∈ groups, g.length = 4) ∧ 1 ≤ last.length ∧ last.length ≤ 4
        ∧ feedLine c bytes = groups.flatMap (feedGroup c) ++ feedGroup c last := by
  induction bytes using feedLine.induct with
  | case1 => exact absurd rfl h
  | case2 b0 b1 b2 b3 rest ih =>
    by_cases hrest : rest = []
    · subst hrest
      exact ⟨[], [b0, b1, b2, b3], rfl, by simp, by simp, by simp, by simp [feedLine]⟩
    · obtain ⟨groups, last, hbytes, hfour, hone, hle, hline⟩ := ih hrest
      refine ⟨[b0, b1, b2, b3] :: groups, last, by simp [hbytes], ?_, hone, hle, ?_⟩
      · exact List.forall_mem_cons.2 ⟨rfl, hfour⟩
      · rw [feedLine, hline, List.flatMap_cons, List.append_assoc]
  | case3 b0 b1 b2 => exact ⟨[], [b0, b1, b2], rfl, by simp, by simp, by simp, rfl⟩
  | case4 b0 b1 => exact ⟨[], [b0, b1], rfl, by simp, by simp, by simp, rfl⟩
  | case5 b0 => exact ⟨[], [b0], rfl, by simp, by simp, by simp, rfl⟩

/-! ### The command lines (R67) -/

/-- The word of FEED_BYTES with NB = count - 1, as the opcode map has it (R62). -/
theorem encode_feedBytes_count {count : Nat} (h₁ : 1 ≤ count) (h₄ : count ≤ 4) :
    encode (.feedBytes (BitVec.ofNat 2 (count - 1))) = BitVec.ofNat 32 (0x2 + 0x100 * (count - 1)) := by
  obtain rfl | rfl | rfl | rfl : count = 1 ∨ count = 2 ∨ count = 3 ∨ count = 4 := by omega
  all_goals rfl

/-- Settles O60: the waits and CHECK_NONEMPTY decide on the value they read, FEED goes group by group, and the other lines
are written out in `expand`. -/
theorem hostProgramLines : Obligations.HostProgramLines := by
  refine ⟨fun s rest hhost => ⟨fun h => ?_, fun h => ?_, fun h hs hidle => ?_⟩, fun c group h₁ h₄ => ?_, feedLine_groups,
    fun c count v h₁ h₄ => ?_, fun c r v => ?_⟩
  · rw [step_hostOp hhost h]; exact hostOp_wait _
  · rw [step_hostOp hhost h]; exact hostOp_waitIrq _
  · rw [step_hostOp hhost h]
    exact Inv.hostOp_checkNonempty (s := { turn s with prog := rest }) ⟨hs.config, hs.block⟩ hidle
  · exact ⟨_, _, rfl, operandBytes_packBytes h₁ h₄⟩
  · rw [← encode_feedBytes_count h₁ h₄]; rfl
  · exact ⟨rfl, rfl, rfl, rfl, rfl, rfl, rfl, rfl, rfl, rfl, rfl⟩

end Sys2Proof.Machine
end

section
/-! PROOFS. The command cycle (spec/40_command_cycle.md R69 to R75): acceptance and dropped words, the engine's move, the
end of a completion, ERROR, and what a completion depends on. -/

namespace Sys2Proof.Machine

/-! ### CMD writes (R70, R71) -/

theorem hostWrite_cmd (s : State) (w : Word) :
    hostWrite .b32 0x0010 w s =
      (s.withBlk (if s.blk.busy then overrunWrite w s.blk else accept w s.blk)).respond .writeDone :=
  hostWrite_taken rfl

theorem overrunWrite_first {b : Block} (w : Word) (h : b.overrun = false) :
    overrunWrite w b = { b with overrun := true, overrunOp := fieldOp w } := by
  rw [overrunWrite, h]; rfl

theorem overrunWrite_later {b : Block} (w : Word) (h : b.overrun = true) : overrunWrite w b = b := if_pos h

/-- Settles O9: the CMD write of an idle block is `accept`. -/
theorem acceptanceLatchesCommandAndOperand : Obligations.AcceptanceLatchesCommandAndOperand := by
  intro s w hidle
  rw [hostWrite_cmd, hidle]
  rfl

/-- Settles O10: the CMD write of a busy block is `overrunWrite`. -/
theorem overrunRecordsFirstDroppedWord : Obligations.OverrunRecordsFirstDroppedWord := by
  intro s w hbusy
  rw [hostWrite_cmd, if_pos hbusy]
  refine ⟨fun h => ?_, fun h => ?_⟩
  · rw [overrunWrite_first w h]; rfl
  · rw [overrunWrite_later w h]; rfl

/-! ### Execution, and the end of a completion (R72, R75) -/

theorem execute_decoded {s : State} {i : Instr} (h : decode s.blk.latCmd = .ok i) : execute s = exec i s := by
  rw [execute, fetchWord, h]

theorem complete_of_execute {s t : State} (h : execute s = .next t) :
    complete s = .next (t.withBlk (finish t.blk)) := by
  rw [complete, h]; rfl

/-- A dropped word becomes CMD_OVERRUN outside ERROR, and the handshake closes (R72, spec/60_exceptions.md R118). -/
theorem withBlk_finish_of_overrun {t : State} (ho : t.blk.overrun = true) (hp : t.blk.phase ≠ .error) :
    t.withBlk (finish t.blk) = closed (failed .cmdOverrun t.blk.overrunOp 0 t) := by
  have htest : (t.blk.overrun && !t.blk.err) = true := by simp [Block.err, ho, hp]
  rw [finish, htest]
  rfl

/-- With no dropped word the end of a completion only closes the handshake (R72). -/
theorem withBlk_finish_of_no_overrun {t : State} (h : t.blk.overrun = false) :
    t.withBlk (finish t.blk) = closed t := by
  rw [finish, h]
  rfl

/-- No effect touches the overrun record (R72). -/
theorem bodyOf_commit_overrun {s : State} {i : Instr} {b t : Block} (h : bodyOf s i b = .commit t) :
    t.overrun = b.overrun ∧ t.overrunOp = b.overrunOp := by
  cases i with
  | nop | clear => cases h; exact ⟨rfl, rfl⟩
  | feedBytes nb => rw [feedBits_frame (ofExcept_eq_commit.1 h)]; exact ⟨rfl, rfl⟩
  | feedRun => rw [emit_frame (bodyOf_feedRun_commit h).2]; exact ⟨rfl, rfl⟩
  | flush => rw [flushInput_frame (ofExcept_eq_commit.1 h)]; exact ⟨rfl, rfl⟩
  | buildTree => rw [buildTree_frame h]; exact ⟨rfl, rfl⟩
  | genCodes => rw [genCodes_frame h]; exact ⟨rfl, rfl⟩

theorem execute_overrun {s t : State} (h : execute s = .next t) :
    t.blk.overrun = s.blk.overrun ∧ t.blk.overrunOp = s.blk.overrunOp := by
  rcases execute_cases h with ⟨-, rfl⟩ | ⟨-, rfl⟩ | ⟨-, r, -, rfl⟩ | ⟨-, i, -, -, -, b, hb, rfl⟩
  · exact ⟨rfl, rfl⟩
  · exact ⟨rfl, rfl⟩
  · exact ⟨rfl, rfl⟩
  · exact bodyOf_commit_overrun hb

/-- Settles O23: the completion is `finish` after execution, which keeps the overrun record. -/
theorem completionClosesTheHandshake : Obligations.CompletionClosesTheHandshake := by
  intro s t h
  rw [complete_of_execute h]
  refine ⟨fun ho hp => ?_, fun hclose => ?_, execute_overrun h⟩
  · rw [withBlk_finish_of_overrun ho hp]
  · rcases hclose with ho | hp
    · rw [withBlk_finish_of_no_overrun ho]
    · rw [withBlk_finish_of_error hp]

/-! ### ERROR (R77, spec/60_exceptions.md R123) -/

theorem exec_of_error {s : State} {i : Instr} (hp : s.blk.phase = .error) (hi : i ≠ .clear) : exec i s = .next s := by
  rw [exec_eq_runCommand hi, runCommand_error hp]

theorem execute_of_error {s : State} (hp : s.blk.phase = .error) (hd : decode s.blk.latCmd ≠ .ok .clear) :
    execute s = .next s := by
  cases hw : decode s.blk.latCmd with
  | ok i => rw [execute_decoded hw, exec_of_error hp (fun hi => hd (by rw [hw, hi]))]
  | error e => rw [execute_illegal hw, illegalCommand, if_pos hp]

/-- Settles O25: in ERROR execution leaves the state, so that the completion only closes the handshake. -/
theorem errorPhaseIsInert : Obligations.ErrorPhaseIsInert := by
  intro s hp
  refine ⟨fun i hi => exec_of_error hp hi, fun hd => ?_⟩
  have hexec := execute_of_error hp hd
  exact ⟨hexec, by rw [complete_of_execute hexec, withBlk_finish_of_error hp]⟩

/-- Settles O29: a host write keeps the error record, and a completion in ERROR keeps it unless its CLEAR has emptied
it and a dropped word brings the block back to ERROR. -/
theorem firstErrorIsKept : Obligations.FirstErrorIsKept := by
  intro s t h hs ht
  rcases step_agent_cases h with hb | ⟨-, off, v, hb⟩ | ⟨ha, hbusy, u, hu, hb⟩ | ⟨-, hb⟩ <;> rw [hb] at ht ⊢
  · exact .inl ⟨rfl, rfl, rfl⟩
  · exact .inl (writeWord_errorRecord off v s.blk)
  · rcases execute_cases hu with ⟨hd, rfl⟩ | ⟨-, rfl⟩ | ⟨hp, -⟩ | ⟨hp, -⟩
    · have ho : s.blk.overrun = true := by simpa [Block.err] using ht
      exact .inr ⟨ha, hbusy, hd, ho, by simp [Block.err, ho]⟩
    · exact .inl (by simp [Block.err, hs])
    · contradiction
    · contradiction
  · cases ht

/-! ### The engine's move (R69) -/

theorem step_engine_idle {s : State} (ha : nextAgent s = .engine) (hidle : s.blk.busy = false) :
    step s = .next (turn s) := by
  rw [step, ha, agentStep, engineStep, turn_blk, hidle]; rfl

theorem step_engine_busy {s : State} (ha : nextAgent s = .engine) (hbusy : s.blk.busy = true) :
    step s = complete (turn s) := by
  rw [step, ha, agentStep, engineStep, turn_blk, if_pos hbusy]

/-- Settles O21: the engine's move completes the accepted word, by `exec` or as the illegal word it is. -/
theorem stepRunsAcceptedCommand : Obligations.StepRunsAcceptedCommand := by
  intro s ha
  refine ⟨step_engine_idle ha, step_engine_busy ha, fun e hbusy he => ?_, fun i hbusy hi => ?_⟩ <;>
    rw [step_engine_busy ha hbusy]
  · obtain ⟨-, hfail, hinert⟩ := illegalWordsEndInIllegalCmd.2 (turn s) e he
    refine ⟨hfail, fun hp => ?_⟩
    rw [complete_of_execute (hinert hp), withBlk_finish_of_error (s := turn s) hp]
  · rw [complete, execute_decoded (s := turn s) hi]
    refine ⟨fun t ht => by rw [ht]; rfl, fun f hf => by rw [hf]; rfl, fun r => ?_⟩
    cases hx : exec i (turn s) with
    | next t => simp [concludeCycle]
    | fault f => simp [concludeCycle]
    | refused r' => exact absurd hx (exec_not_refused i (turn s) r')

/-! ### An accepted command completes (R73) -/

theorem run_succ_of_step (M : Host.Core) {s t : M.State} (k : Nat) (h : M.step s = .next t) :
    M.run (k + 1) s = M.run k t := by
  rw [Host.Core.run, h]

/-- A completion changes S alone, and leaves no command accepted (R72). -/
theorem complete_withBlk {s t : State} (h : complete s = .next t) : t = s.withBlk t.blk ∧ t.blk.busy = false := by
  obtain ⟨u, hu, rfl⟩ := complete_next h
  exact ⟨by rw [execute_withBlk hu]; rfl, rfl⟩

/-- Every step uses up one entry of the schedule (spec/20_memory.md R54). -/
theorem step_sched {s t : State} (h : step s = .next t) : t.sched = s.sched.tail := by
  cases ha : nextAgent s with
  | host => exact (hostStep_next ((step_host ha).symm.trans h)).2.1
  | engine =>
    cases hbusy : s.blk.busy with
    | false => cases (step_engine_idle ha hbusy).symm.trans h; rfl
    | true => rw [(complete_withBlk ((step_engine_busy ha hbusy).symm.trans h)).1]; rfl
  | platform => rw [step, ha] at h; cases h; rfl

/-- Once the schedule is used up, the next step completes the accepted command (R73). -/
theorem Inv.step_completes {s : State} (hs : Inv s) (hsched : s.sched = []) (hbusy : s.blk.busy = true) :
    ∃ t, step s = .next t ∧ t.blk.busy = false := by
  have ha : nextAgent s = .engine := by rw [nextAgent, hsched]; exact if_pos hbusy
  have hturn : Inv (turn s) := ⟨hs.config, hs.block⟩
  obtain ⟨b, hb⟩ := hturn.complete_answers
  exact ⟨_, (step_engine_busy ha hbusy).trans hb, (complete_withBlk hb).2⟩

/-- Settles O32, by induction on the schedule: each of its entries is one step, and once it is used up the engine
completes the command. -/
theorem acceptedCommandsComplete : Obligations.AcceptedCommandsComplete := by
  intro s hs hr hbusy
  induction hsched : s.sched generalizing s with
  | nil =>
    obtain ⟨t, ht, hidle⟩ := hs.step_completes hsched hbusy
    exact ⟨1, t, le_rfl, run_succ_of_step core 0 ht, hidle⟩
  | cons agent rest ih =>
    rcases hs.step_answers with ⟨t, ht, hcfg, hprog⟩ | ⟨hnot, -⟩
    · cases hb : t.blk.busy with
      | false => exact ⟨1, t, by omega, run_succ_of_step core 0 ht, hb⟩
      | true =>
        have hrest : t.sched = rest := by rw [step_sched ht, hsched, List.tail_cons]
        obtain ⟨k, u, hk, hrun, hidle⟩ := ih t (stepKeepsInvariant s t hs ht) (hr.of_subset hcfg hprog) hb hrest
        exact ⟨k + 1, u, Nat.succ_le_succ hk, (run_succ_of_step core k ht).trans hrun, hidle⟩
    · contradiction

/-! ### What a completion depends on (R74) -/

/-- The machine `s` with the block of `t`. -/
def State.takeBlk (s t : State) : State := s.withBlk t.blk

section
variable {s s' : State} (hblk : s'.blk = s.blk) (hcfg : s'.cfg = s.cfg)
include hblk

theorem takeBlk_self : s'.takeBlk s = s' := by rw [State.takeBlk, ← hblk]; rfl

theorem raiseError_takeBlk (r : Raise) : raiseError r s' = s'.takeBlk (raiseError r s) := by
  rw [raiseError, hblk]; rfl

theorem runCommand_takeBlk (i : Instr) (body : Block → Effect) :
    runCommand i body s' = mapNext s'.takeBlk (runCommand i body s) := by
  by_cases hp : s.blk.phase = .error
  · rw [runCommand_error hp, runCommand_error (hblk ▸ hp), mapNext, takeBlk_self hblk]
  cases hl : legal i s.blk.phase with
  | false =>
    rw [runCommand_sequence hp hl, runCommand_sequence (hblk ▸ hp) (hblk ▸ hl), mapNext, raiseError_takeBlk hblk]
  | true =>
    rw [runCommand_legal hp hl, runCommand_legal (hblk ▸ hp) (hblk ▸ hl), hblk]
    cases body s.blk with
    | commit b => rfl
    | raise r => rw [conclude, conclude, mapNext, raiseError_takeBlk hblk]
    | stop f => rfl

theorem illegalCommand_takeBlk (w : Word) : illegalCommand w s' = s'.takeBlk (illegalCommand w s) := by
  rw [illegalCommand, illegalCommand, hblk, apply_ite s'.takeBlk, takeBlk_self hblk, raiseError_takeBlk hblk]

include hcfg

theorem exec_takeBlk (i : Instr) : exec i s' = mapNext s'.takeBlk (exec i s) := by
  by_cases hi : i = .clear
  · subst hi; rw [exec_clear, exec_clear, hblk]; rfl
  have hbody : bodyOf s' i = bodyOf s i := by cases i <;> simp only [bodyOf, hcfg]
  rw [exec_eq_runCommand hi, exec_eq_runCommand hi, hbody, runCommand_takeBlk hblk]

theorem execute_takeBlk : execute s' = mapNext s'.takeBlk (execute s) := by
  have hword : s'.blk.latCmd = s.blk.latCmd := by rw [hblk]
  cases hd : decode s.blk.latCmd with
  | ok i => rw [execute_decoded hd, execute_decoded (hword ▸ hd), exec_takeBlk hblk hcfg]
  | error e =>
    rw [execute_illegal hd, execute_illegal (hword ▸ hd), hword, illegalCommand_takeBlk hblk, mapNext]

end

/-- Settles O33: execution on the same S and configuration leaves the same S, and what follows it reads S alone. -/
theorem completionDependsOnBlockOnly : Obligations.CompletionDependsOnBlockOnly := by
  intro s s' t hblk hcfg h
  obtain ⟨u, hu, rfl⟩ := complete_next h
  have hu' : execute s' = .next (s'.takeBlk u) := by rw [execute_takeBlk hblk.symm hcfg.symm, hu, mapNext]
  exact ⟨_, complete_of_execute hu', rfl⟩

end Sys2Proof.Machine
end

section
/-! PROOFS. The runs of a bit sequence: the runs closed so far and the open run, against the maximal runs of the whole
(spec/41_analyzer.md R80 to R82, R87, R89). -/

namespace Sys2Proof.Machine

/-! ### Closed runs and the open run (R80, R82) -/

/-- The run that closing an open run of that length counts: none for length 0 (R82). -/
def closing (len : Nat) : List Nat := if len = 0 then [] else [len]

theorem closing_of_ne_zero {len : Nat} (h : len ≠ 0) : closing len = [len] := if_neg h

theorem sum_closing (len : Nat) : (closing len).sum = len := by
  unfold closing; split <;> simp [*]

theorem closedRuns_same (bit : Bool) (len : Nat) (xs : List Bool) :
    closedRuns bit len (bit :: xs) = closedRuns bit (len + 1) xs := if_pos rfl

theorem openRun_same (bit : Bool) (len : Nat) (xs : List Bool) :
    openRun bit len (bit :: xs) = openRun bit (len + 1) xs := if_pos rfl

theorem closedRuns_differ {bit x : Bool} (h : x ≠ bit) (len : Nat) (xs : List Bool) :
    closedRuns bit len (x :: xs) = closing len ++ closedRuns x 1 xs := by
  rw [closedRuns, if_neg h, closing]; split <;> rfl

theorem openRun_differ {bit x : Bool} (h : x ≠ bit) (len : Nat) (xs : List Bool) :
    openRun bit len (x :: xs) = openRun x 1 xs := if_neg h

/-- Before any bit the leading 0 has no length, so the first bit opens a run of its own value (R81). -/
theorem closedRuns_start (x : Bool) (xs : List Bool) : closedRuns false 0 (x :: xs) = closedRuns x 1 xs := by
  cases x <;> rfl

theorem openRun_start (x : Bool) (xs : List Bool) : openRun false 0 (x :: xs) = openRun x 1 xs := by
  cases x <;> rfl

theorem openRun_append (bit : Bool) (len : Nat) (xs ys : List Bool) :
    openRun bit len (xs ++ ys) = openRun (openRun bit len xs).1 (openRun bit len xs).2 ys := by
  induction xs generalizing bit len with
  | nil => rfl
  | cons x xs ih =>
    rw [List.cons_append]
    by_cases hx : x = bit
    · subst hx; rw [openRun_same, openRun_same, ih]
    · rw [openRun_differ hx, openRun_differ hx, ih]

theorem closedRuns_append (bit : Bool) (len : Nat) (xs ys : List Bool) :
    closedRuns bit len (xs ++ ys)
      = closedRuns bit len xs ++ closedRuns (openRun bit len xs).1 (openRun bit len xs).2 ys := by
  induction xs generalizing bit len with
  | nil => rfl
  | cons x xs ih =>
    rw [List.cons_append]
    by_cases hx : x = bit
    · subst hx; rw [closedRuns_same, closedRuns_same, openRun_same, ih]
    · rw [closedRuns_differ hx, closedRuns_differ hx, openRun_differ hx, ih, List.append_assoc]

theorem openRun_pos {len : Nat} (bit : Bool) (bits : List Bool) (h : 0 < len) : 0 < (openRun bit len bits).2 := by
  induction bits generalizing bit len with
  | nil => exact h
  | cons x xs ih =>
    by_cases hx : x = bit
    · subst hx; rw [openRun_same]; exact ih _ (Nat.succ_pos len)
    · rw [openRun_differ hx]; exact ih _ Nat.one_pos

/-- The open run is empty exactly before the first bit (R81, spec/10_state.md R43 item 4). -/
theorem openRun_start_eq_zero_iff (bits : List Bool) : (openRun false 0 bits).2 = 0 ↔ bits = [] := by
  cases bits with
  | nil => simp [openRun]
  | cons x xs => simpa [openRun_start] using (openRun_pos x xs Nat.one_pos).ne'

/-- Every bit is in a closed run or in the open run (R89 item 2). -/
theorem sum_closedRuns (bit : Bool) (len : Nat) (bits : List Bool) :
    (closedRuns bit len bits).sum + (openRun bit len bits).2 = len + bits.length := by
  induction bits generalizing bit len with
  | nil => simp [closedRuns, openRun]
  | cons x xs ih =>
    rw [List.length_cons]
    by_cases hx : x = bit
    · subst hx
      rw [closedRuns_same, openRun_same, ih]
      omega
    · rw [closedRuns_differ hx, openRun_differ hx, List.sum_append, sum_closing, Nat.add_assoc, ih]
      omega

/-- An open run with a length closes once per change of the bit (R89 item 3). -/
theorem length_closedRuns {len : Nat} (bit : Bool) (bits : List Bool) (h : len ≠ 0) :
    (closedRuns bit len bits).length = changes (bit :: bits) := by
  induction bits generalizing bit len with
  | nil => rfl
  | cons x xs ih =>
    rw [changes]
    by_cases hx : x = bit
    · subst hx
      rw [closedRuns_same, ih _ len.succ_ne_zero, if_pos rfl, Nat.zero_add]
    · rw [closedRuns_differ hx, closing_of_ne_zero h, List.length_append, ih _ one_ne_zero, if_neg (Ne.symm hx)]
      rfl

/-! ### Maximal runs (spec/00_scope.md R14) -/

theorem maximalRuns_replicate (bit : Bool) (k : Nat) : maximalRuns (List.replicate (k + 1) bit) = [k + 1] := by
  have hchain : (List.replicate (k + 1) bit).IsChain (fun x y => x == y) :=
    List.isChain_replicate_of_rel _ (beq_self_eq_true bit)
  rw [maximalRuns, List.splitBy_of_isChain (by simp) hchain, List.map_singleton, List.length_replicate]

theorem maximalRuns_replicate_append (bit : Bool) (k : Nat) (bits : List Bool) :
    maximalRuns (List.replicate (k + 1) bit ++ bits)
      = closedRuns bit (k + 1) bits ++ closing (openRun bit (k + 1) bits).2 := by
  induction bits generalizing bit k with
  | nil => rw [List.append_nil, maximalRuns_replicate]; rfl
  | cons x xs ih =>
    by_cases hx : x = bit
    · subst hx
      rw [closedRuns_same, openRun_same, ← ih, List.replicate_succ' (n := k + 1), List.append_assoc,
        List.singleton_append]
    · have hsplit : maximalRuns (List.replicate (k + 1) bit ++ x :: xs)
          = maximalRuns (List.replicate (k + 1) bit) ++ maximalRuns (x :: xs) := by
        rw [maximalRuns, List.splitBy_append_cons, List.map_append]
        · rfl
        · simpa [List.getLast?_replicate] using Ne.symm hx
      have hrest := ih x 0
      rw [hsplit, maximalRuns_replicate, closedRuns_differ hx, openRun_differ hx,
        closing_of_ne_zero k.succ_ne_zero, List.append_assoc]
      exact congrArg _ hrest

/-- From the leading 0, the runs closed by the bits and then the open run are the maximal runs (R87). -/
theorem maximalRuns_eq (bits : List Bool) :
    maximalRuns bits = closedRuns false 0 bits ++ closing (openRun false 0 bits).2 := by
  cases bits with
  | nil => rfl
  | cons x xs => rw [closedRuns_start, openRun_start]; exact maximalRuns_replicate_append x 0 xs

theorem sum_maximalRuns (bits : List Bool) : (maximalRuns bits).sum = bits.length := by
  rw [maximalRuns, ← List.length_flatten, List.flatten_splitBy]

theorem length_maximalRuns {bits : List Bool} (h : bits ≠ []) : (maximalRuns bits).length = 1 + changes bits := by
  cases bits with
  | nil => contradiction
  | cons x xs =>
    have hopen := (openRun_pos x xs Nat.one_pos).ne'
    rw [maximalRuns_eq, closedRuns_start, openRun_start, closing_of_ne_zero hopen, List.length_append,
      length_closedRuns x xs one_ne_zero, Nat.add_comm]
    rfl

end Sys2Proof.Machine
end

section
/-! PROOFS. Counting one run (spec/41_analyzer.md R83), and the three input commands that count: FEED_RUN, FLUSH and
FEED_BYTES complete where the table has room (R84 to R86). -/

namespace Sys2Proof.Machine

/-! ### Counting one run (R83) -/

/-- A run is counted when NRUNS is below its maximum and the table holds the value or has a free slot (R83). -/
theorem emit_completes {c : Config} {v : Word} {b : Block} (op : Byte) (pos : Nat) (hn : b.nruns ≠ maxWord)
    (hfit : v ∈ b.sym.map Slot.value ∨ b.n < c.nSym) :
    ∃ sym', emit c v op pos b = .ok { b with sym := sym', nruns := b.nruns + 1 }
      ∧ sym'.length = if v ∈ b.sym.map Slot.value then b.n else b.n + 1 := by
  by_cases hmem : v ∈ b.sym.map Slot.value
  · exact ⟨_, emit_held hn (holdsValue_iff.2 hmem), by rw [if_pos hmem, bumpCount_length]⟩
  · have hnew : holdsValue v b.sym = false := Bool.eq_false_iff.2 (mt holdsValue_iff.1 hmem)
    exact ⟨_, emit_new hn hnew (hfit.resolve_left hmem), by rw [if_neg hmem, insertSlot_length]⟩

/-- In ACCUM a command that is legal there takes effect when its effect commits (R75, R76). -/
theorem exec_accum_of_commit {i : Instr} {s : State} {t : Block} (hi : i ≠ .clear) (hl : legal i .accum = true)
    (hp : s.blk.phase = .accum) (hb : bodyOf s i s.blk = .commit t) : exec i s = .next (s.withBlk t) := by
  rw [exec_eq_runCommand hi, runCommand_legal (by simp [hp]) (hp ▸ hl), hb, conclude]

/-- Settles O38: FEED_RUN commits the count of its operand. -/
theorem feedRunCountsOneRun : Obligations.FeedRunCountsOneRun := by
  intro s htable hp harg hn hfit
  obtain ⟨sym', hemit, hlength⟩ := emit_completes (c := s.cfg) (v := s.blk.latArg) 0x03 0 hn hfit
  obtain ⟨-, htable', -, hcount⟩ := emit_ok htable harg hemit
  have hbody : bodyOf s .feedRun s.blk = .commit { s.blk with sym := sym', nruns := s.blk.nruns + 1 } := by
    simp only [bodyOf, if_neg harg, ofExcept_eq_commit, hemit]
  exact ⟨sym', exec_accum_of_commit (by simp) rfl hp hbody, htable'.ascending,
    fun u hu => (htable'.positive u hu).2, hlength, hcount⟩

/-- Settles O39: FLUSH commits at once with no open run, and else with the count of the open run's length. -/
theorem flushClosesInput : Obligations.FlushClosesInput := by
  intro s htable hp
  have hexec {t : Block} (h : flushInput s.cfg s.blk = .ok t) : exec .flush s = .next (s.withBlk t) :=
    exec_accum_of_commit (by simp) rfl hp (ofExcept_eq_commit.2 h)
  refine ⟨fun hlen => hexec (by rw [flushInput, if_pos hlen]), fun hlen hn hfit => ?_⟩
  obtain ⟨sym', hemit, -⟩ := emit_completes (c := s.cfg) (v := s.blk.rleLen) 0x04 0 hn hfit
  obtain ⟨-, htable', -, hcount⟩ := emit_ok htable hlen hemit
  exact ⟨sym', hexec (by rw [flushInput, if_neg hlen, hemit]), htable'.ascending,
    fun u hu => (htable'.positive u hu).2, hcount⟩

/-! ### Which values a table holds -/

/-- With positive counts, the values of the slots are the values that have been counted. -/
theorem mem_values_iff {sym : List Slot} (hpos : ∀ t ∈ sym, t.value ≠ 0 ∧ t.count ≠ 0) {x : Nat} :
    x ∈ sym.map (fun t => t.value.toNat) ↔ countIn sym x ≠ 0 := by
  induction sym with
  | nil => simp
  | cons t ts ih =>
    have hcount : t.count.toNat ≠ 0 := fun e => (hpos t (by simp)).2 (BitVec.eq_of_toNat_eq e)
    rw [List.map_cons, List.mem_cons, ih fun u hu => hpos u (by simp [hu]), countIn_cons]
    by_cases hx : t.value.toNat = x
    · simp [hx, hcount]
    · simp [hx, Ne.symm hx]

/-- Counting a run moves its value from the runs still to come into the table. -/
theorem toFinset_values_of_counted {sym sym' : List Slot} {v : Nat} {runs : List Nat}
    (hpos : ∀ t ∈ sym, t.value ≠ 0 ∧ t.count ≠ 0) (hpos' : ∀ t ∈ sym', t.value ≠ 0 ∧ t.count ≠ 0)
    (hcount : ∀ x, countIn sym' x = countIn sym x + if v = x then 1 else 0) :
    (sym'.map (fun t => t.value.toNat) ++ runs).toFinset
      = (sym.map (fun t => t.value.toNat) ++ v :: runs).toFinset := by
  ext x
  simp only [List.mem_toFinset, List.mem_append, List.mem_cons, mem_values_iff hpos, mem_values_iff hpos', hcount]
  by_cases hx : v = x
  · simp [hx]
  · simp [hx, Ne.symm hx]

theorem Ascending.nodup_values {sym : List Slot} (h : Ascending sym) :
    (sym.map (fun t => t.value.toNat)).Nodup :=
  List.pairwise_map.2 (h.imp fun hlt => (BitVec.lt_def.1 hlt).ne)

/-- A table whose values, with a value v among others, number at most N_SYM holds v or has a free slot (R116). -/
theorem TableOk.holds_or_room {c : Config} {b : Block} (h : TableOk c b) {v : Word} {runs : List Nat}
    (hcard : (b.sym.map (fun t => t.value.toNat) ++ v.toNat :: runs).toFinset.card ≤ c.nSym) :
    v ∈ b.sym.map Slot.value ∨ b.n < c.nSym := by
  by_cases hmem : v.toNat ∈ b.sym.map (fun t => t.value.toNat)
  · obtain ⟨t, ht, hv⟩ := List.mem_map.1 hmem
    exact .inl (List.mem_map.2 ⟨t, ht, BitVec.eq_of_toNat_eq hv⟩)
  · refine .inr (lt_of_lt_of_le ?_ hcard)
    have hcount := List.toFinset_card_of_nodup (List.nodup_cons.2 ⟨hmem, h.ascending.nodup_values⟩)
    have hsub : (v.toNat :: b.sym.map (fun t => t.value.toNat)).toFinset
        ⊆ (b.sym.map (fun t => t.value.toNat) ++ v.toNat :: runs).toFinset := by
      intro x hx
      simp only [List.mem_toFinset, List.mem_cons, List.mem_append] at hx ⊢
      tauto
    have hle := Finset.card_le_card hsub
    rw [hcount, List.length_cons, List.length_map] at hle
    exact hle

/-! ### FEED_BYTES (R84) -/

/-- An open run is no longer than the run it becomes, closed or left open (R80). -/
theorem openLength_lt {bit : Bool} {len bound : Nat} {bits : List Bool} (hruns : ∀ r ∈ closedRuns bit len bits, r < bound)
    (hlast : (openRun bit len bits).2 < bound) : len < bound := by
  induction bits generalizing bit len with
  | nil => exact hlast
  | cons x xs ih =>
    by_cases hx : x = bit
    · subst hx
      rw [closedRuns_same] at hruns
      rw [openRun_same] at hlast
      exact Nat.lt_of_succ_lt (ih hruns hlast)
    · rw [closedRuns_differ hx] at hruns
      rw [openRun_differ hx] at hlast
      by_cases h0 : len = 0
      · have hone := ih (fun r hr => hruns r (List.mem_append_right _ hr)) hlast
        omega
      · exact hruns len (by simp [closing_of_ne_zero h0])

/-- The bits exceed no run length, no run count and no table capacity (spec/60_exceptions.md R114 to R116). -/
structure RoomFor (c : Config) (b : Block) (bits : List Bool) : Prop where
  lengths : ∀ r ∈ closedRuns b.rleBit b.rleLen.toNat bits, r < 2 ^ 32
  last    : (openRun b.rleBit b.rleLen.toNat bits).2 < 2 ^ 32
  runs    : b.nruns.toNat + (closedRuns b.rleBit b.rleLen.toNat bits).length < 2 ^ 32
  values  : (b.sym.map (fun t => t.value.toNat) ++ closedRuns b.rleBit b.rleLen.toNat bits).toFinset.card ≤ c.nSym

/-- With room for the bits the first of them takes effect and leaves room for the rest. -/
theorem RoomFor.rleStep_completes {c : Config} {b : Block} {x : Bool} {xs : List Bool} (op : Byte) (pos : Nat)
    (htable : TableOk c b) (h : RoomFor c b (x :: xs)) : ∃ t, rleStep c x op pos b = .ok t ∧ RoomFor c t xs := by
  obtain ⟨hlengths, hlast, hruns, hvalues⟩ := h
  by_cases hx : x = b.rleBit
  · subst hx
    rw [closedRuns_same] at hlengths hruns hvalues
    rw [openRun_same] at hlast
    have hlen : b.rleLen ≠ maxWord := fun e => by
      have hlt := openLength_lt hlengths hlast
      rw [e, maxWord_toNat] at hlt
      omega
    rw [← toNat_add_one_of_ne_max hlen] at hlengths hlast hruns hvalues
    exact ⟨_, by rw [rleStep, if_pos rfl, if_neg hlen], hlengths, hlast, hruns, hvalues⟩
  rw [closedRuns_differ hx] at hlengths hruns hvalues
  rw [openRun_differ hx] at hlast
  by_cases h0 : b.rleLen = 0
  · have hnone : closing b.rleLen.toNat = [] := by rw [h0]; rfl
    rw [hnone, List.nil_append] at hlengths hruns hvalues
    exact ⟨_, by rw [rleStep, if_neg hx, if_pos h0], hlengths, hlast, hruns, hvalues⟩
  · rw [closing_of_ne_zero fun e => h0 (BitVec.eq_of_toNat_eq e), List.singleton_append] at hlengths hruns hvalues
    have hn : b.nruns ≠ maxWord := fun e => by
      rw [e, maxWord_toNat, List.length_cons] at hruns
      omega
    obtain ⟨sym', hemit, -⟩ := emit_completes op pos hn (htable.holds_or_room hvalues)
    obtain ⟨-, htable', -, hcount⟩ := emit_ok htable h0 hemit
    have hruns' : (b.nruns + 1).toNat + (closedRuns x 1 xs).length < 2 ^ 32 := by
      rw [toNat_add_one_of_ne_max hn, Nat.add_assoc, Nat.add_comm 1]
      exact hruns
    rw [← toFinset_values_of_counted htable.positive htable'.positive hcount] at hvalues
    exact ⟨_, by rw [rleStep, if_neg hx, if_neg h0, hemit], fun r hr => hlengths r (List.mem_cons_of_mem _ hr), hlast,
      hruns', hvalues⟩

/-- The loop keeps the table well formed, whatever run was open before it. -/
theorem feedBits_tableOk {c : Config} {op : Byte} {bits : List Bool} {pos : Nat} {b t : Block} (htable : TableOk c b)
    (h : feedBits c op bits pos b = .ok t) : TableOk c t := by
  induction bits generalizing b pos with
  | nil => exact Except.ok.inj h ▸ htable
  | cons x xs ih =>
    rw [feedBits] at h
    split at h
    · exact ih (rleStep_ok htable ‹_›).1 h
    · cases h

theorem feedBits_completes {c : Config} {b : Block} {bits : List Bool} (op : Byte) (pos : Nat) (htable : TableOk c b)
    (h : RoomFor c b bits) : ∃ t, feedBits c op bits pos b = .ok t := by
  induction bits generalizing b pos with
  | nil => exact ⟨b, rfl⟩
  | cons x xs ih =>
    obtain ⟨m, hm, hroom⟩ := h.rleStep_completes op pos htable
    rw [feedBits, hm]
    exact ih (pos + 1) (rleStep_ok htable hm).1 hroom

/-- Settles O36: with room for its bits FEED_BYTES commits the loop's block, which counts the closed runs. -/
theorem feedBytesCountsClosedRuns : Obligations.FeedBytesCountsClosedRuns := by
  rintro s nb bits runs last htable hp rfl rfl rfl hlengths hlast hruns hvalues
  obtain ⟨t, hfeed⟩ := feedBits_completes 0x02 0 htable ⟨hlengths, hlast, hruns, hvalues⟩
  have htable' := feedBits_tableOk htable hfeed
  obtain ⟨hbit, hlen, hnruns, hcount⟩ := feedBits_runs htable hfeed
  have hexec : exec (.feedBytes nb) s = .next (s.withBlk t) :=
    exec_accum_of_commit (by simp) rfl hp (ofExcept_eq_commit.2 hfeed)
  refine ⟨t.sym, t.nruns, ?_, hnruns, htable'.ascending, fun u hu => (htable'.positive u hu).2, htable'.sum.symm, hcount⟩
  rw [← hbit, ← hlen, BitVec.ofNat_toNat, BitVec.setWidth_eq, hexec, State.withBlk]
  exact congrArg (fun b => Host.Outcome.next { s with blk := b }) (feedBits_frame hfeed)

end Sys2Proof.Machine
end

section
/-! PROOFS. What the frequency table holds after any input from a fresh analyzer, before and after FLUSH
(spec/41_analyzer.md R87 to R89). -/

namespace Sys2Proof.Machine

/-! ### The table as a multiset of runs -/

/-- The runs that a table has counted, in slot order. -/
def tableRuns (sym : List Slot) : List Nat := sym.flatMap fun t => List.replicate t.count.toNat t.value.toNat

theorem tableRuns_cons (t : Slot) (ts : List Slot) :
    tableRuns (t :: ts) = List.replicate t.count.toNat t.value.toNat ++ tableRuns ts := rfl

theorem count_tableRuns (sym : List Slot) (v : Nat) : (tableRuns sym).count v = countIn sym v := by
  induction sym with
  | nil => rfl
  | cons t ts ih => simp [tableRuns_cons, ih, List.count_replicate]

theorem length_tableRuns (sym : List Slot) : (tableRuns sym).length = countSum sym := by
  induction sym with
  | nil => rfl
  | cons t ts ih => simp [tableRuns_cons, ih]

theorem sum_tableRuns (sym : List Slot) : (tableRuns sym).sum = weightedSum sym := by
  induction sym with
  | nil => rfl
  | cons t ts ih => simp [tableRuns_cons, ih, Nat.mul_comm]

theorem countIn_of_mem {sym : List Slot} {t : Slot} (ha : Ascending sym) (ht : t ∈ sym) :
    countIn sym t.value.toNat = t.count.toNat := by
  induction sym with
  | nil => simp at ht
  | cons u us ih =>
    obtain ⟨hlt, hus⟩ := List.pairwise_cons.1 ha
    rcases List.mem_cons.1 ht with rfl | ht
    · have hrest : countIn us t.value.toNat = 0 := by
        rw [← count_tableRuns, List.count_eq_zero]
        intro hmem
        obtain ⟨w, hw, hval⟩ := List.mem_flatMap.1 hmem
        exact (BitVec.lt_def.1 (hlt w hw)).ne (List.eq_of_mem_replicate hval)
      simp [hrest]
    · have hne : u.value.toNat ≠ t.value.toNat := (BitVec.lt_def.1 (hlt t ht)).ne
      simp [hne, ih hus ht]

theorem TableOk.mem_of_countIn_eq {c c' : Config} {b b' : Block} (h : TableOk c b) (h' : TableOk c' b')
    (hcount : ∀ v, countIn b.sym v = countIn b'.sym v) {t : Slot} (ht : t ∈ b.sym) : t ∈ b'.sym := by
  have hval : t.value.toNat ∈ b'.sym.map (fun u => u.value.toNat) := by
    rw [mem_values_iff h'.positive, ← hcount, ← mem_values_iff h.positive]
    exact List.mem_map.2 ⟨t, ht, rfl⟩
  obtain ⟨u, hu, huv⟩ := List.mem_map.1 hval
  have huc : u.count.toNat = t.count.toNat := by
    rw [← countIn_of_mem h'.ascending hu, huv, ← hcount, countIn_of_mem h.ascending ht]
  have hut : u = t := by
    cases u; cases t
    exact congrArg₂ Slot.mk (BitVec.eq_of_toNat_eq huv) (BitVec.eq_of_toNat_eq huc)
  exact hut ▸ hu

/-- Sorting makes the slots independent of the order of arrival: the counts determine the table (R88). -/
theorem TableOk.sym_eq_of_countIn_eq {c c' : Config} {b b' : Block} (h : TableOk c b) (h' : TableOk c' b')
    (hcount : ∀ v, countIn b.sym v = countIn b'.sym v) : b.sym = b'.sym := by
  have nodup {c : Config} {b : Block} (h : TableOk c b) : b.sym.Nodup := h.ascending.nodup_values.of_map
  have hperm : b.sym.Perm b'.sym := (List.perm_ext_iff_of_nodup (nodup h) (nodup h')).2 fun t =>
    ⟨h.mem_of_countIn_eq h' hcount, h'.mem_of_countIn_eq h fun v => (hcount v).symm⟩
  refine hperm.eq_of_pairwise (fun t u _ _ htu hut => ?_) h.ascending h'.ascending
  exact absurd (BitVec.lt_def.1 htu) (BitVec.lt_def.1 hut).asymm

/-- A well-formed table that has counted exactly the given runs. -/
structure Counted (c : Config) (b : Block) (runs : List Nat) : Prop where
  table  : TableOk c b
  counts : ∀ v, countIn b.sym v = runs.count v

theorem Counted.perm {c : Config} {b : Block} {runs runs' : List Nat} (h : Counted c b runs) (hp : runs.Perm runs') :
    Counted c b runs' := ⟨h.table, fun v => (h.counts v).trans (hp.count_eq v)⟩

theorem Counted.congr {c : Config} {b t : Block} {runs : List Nat} (h : Counted c b runs) (h₁ : t.sym = b.sym)
    (h₂ : t.nruns = b.nruns) : Counted c t runs := ⟨h.table.congr h₁ h₂, h₁ ▸ h.counts⟩

theorem Counted.emit {c : Config} {b t : Block} {runs : List Nat} {v : Word} {op : Byte} {pos : Nat}
    (h : Counted c b runs) (hv : v ≠ 0) (he : emit c v op pos b = .ok t) : Counted c t (v.toNat :: runs) := by
  obtain ⟨-, htable, -, hcount⟩ := emit_ok h.table hv he
  exact ⟨htable, fun x => by rw [hcount, h.counts, List.count_cons]; simp⟩

theorem Counted.tableRuns_perm {c : Config} {b : Block} {runs : List Nat} (h : Counted c b runs) :
    (tableRuns b.sym).Perm runs :=
  List.perm_iff_count.2 fun v => (count_tableRuns b.sym v).trans (h.counts v)

/-- NRUNS is the number of runs counted (R89 item 1). -/
theorem Counted.nruns_eq {c : Config} {b : Block} {runs : List Nat} (h : Counted c b runs) :
    b.nruns.toNat = runs.length := by
  rw [h.table.sum, ← length_tableRuns, h.tableRuns_perm.length_eq]

theorem Counted.weightedSum_eq {c : Config} {b : Block} {runs : List Nat} (h : Counted c b runs) :
    weightedSum b.sym = runs.sum := by
  rw [← sum_tableRuns, h.tableRuns_perm.sum_eq]

/-- The table and NRUNS depend on the multiset of the runs alone (R88). -/
theorem Counted.unique {c c' : Config} {b b' : Block} {runs runs' : List Nat} (h : Counted c b runs)
    (h' : Counted c' b' runs') (hp : runs.Perm runs') : b.sym = b'.sym ∧ b.nruns = b'.nruns := by
  refine ⟨h.table.sym_eq_of_countIn_eq h'.table fun v => ?_, BitVec.eq_of_toNat_eq ?_⟩
  · rw [h.counts, h'.counts, hp.count_eq]
  · rw [h.nruns_eq, h'.nruns_eq, hp.length_eq]

/-! ### The commands of an input -/

/-- A command other than CLEAR that does not end in ERROR was legal and took effect (R75, R76). -/
theorem exec_commits {i : Instr} {s t : State} (hi : i ≠ .clear) (h : exec i s = .next t) (ht : t.blk.phase ≠ .error) :
    legal i s.blk.phase = true ∧ ∃ b, bodyOf s i s.blk = .commit b ∧ t = s.withBlk b := by
  rcases exec_cases hi h with ⟨he, rfl⟩ | ⟨-, r, -, rfl⟩ | ⟨-, hl, hb⟩
  · contradiction
  · exact absurd rfl ht
  · exact ⟨hl, hb⟩

theorem exec_answers_of_ne_stop {i : Instr} {s : State} (hi : i ≠ .clear) (h : ∀ f, bodyOf s i s.blk ≠ .stop f) :
    ∃ t, exec i s = .next t := by
  rw [exec_eq_runCommand hi, runCommand]
  split
  · exact ⟨_, rfl⟩
  split
  · cases hb : bodyOf s i s.blk with
    | commit t => exact ⟨_, rfl⟩
    | raise r => exact ⟨_, rfl⟩
    | stop f => exact absurd hb (h f)
  · exact ⟨_, rfl⟩

/-- The command of an input and its operand. -/
def Input.instr : Input → Instr
  | .bytes nb _ => .feedBytes nb
  | .run _ => .feedRun

def Input.operand : Input → Word
  | .bytes _ a => a
  | .run v => v

theorem Input.instr_ne_clear (i : Input) : i.instr ≠ .clear := by cases i <;> simp [Input.instr]

theorem Input.legal_instr (i : Input) (p : Phase) : legal i.instr p = decide (p = .accum) := by cases i <;> rfl

theorem feedOne_eq (s : State) (i : Input) :
    feedOne s i = exec i.instr (s.withBlk { s.blk with latArg := i.operand }) := by cases i <;> rfl

theorem Input.bodyOf_ne_stop (s : State) (i : Input) (b : Block) (f : Fault) : bodyOf s i.instr b ≠ .stop f := by
  cases i with
  | bytes nb a => exact ofExcept_ne_stop _ f
  | run v =>
    simp only [Input.instr, bodyOf]
    split
    · simp
    · exact ofExcept_ne_stop _ f

theorem feedOne_answers (s : State) (i : Input) : ∃ t, feedOne s i = .next t := by
  rw [feedOne_eq]
  exact exec_answers_of_ne_stop i.instr_ne_clear (i.bodyOf_ne_stop _ _)

/-- An input command that ends in ACCUM began there and took effect (R76, R77). -/
theorem feedOne_commits {s t : State} {i : Input} (h : feedOne s i = .next t) (hp : t.blk.phase = .accum) :
    s.blk.phase = .accum ∧ ∃ b, bodyOf s i.instr { s.blk with latArg := i.operand } = .commit b ∧ t = s.withBlk b := by
  rw [feedOne_eq] at h
  obtain ⟨hl, b, hb, ht⟩ := exec_commits i.instr_ne_clear h (by simp [hp])
  rw [i.legal_instr] at hl
  exact ⟨of_decide_eq_true hl, b, hb, ht⟩

theorem feedAll_cons {s t : State} {i : Input} (h : feedOne s i = .next t) (rest : List Input) :
    feedAll s (i :: rest) = feedAll t rest := by rw [feedAll, h]

/-- Input that ends in ACCUM began there: no input command leads back to ACCUM (R76, R77). -/
theorem feedAll_accum {s : State} {input : List Input} (hp : (feedAll s input).blk.phase = .accum) :
    s.blk.phase = .accum := by
  induction input generalizing s with
  | nil => exact hp
  | cons i rest ih =>
    obtain ⟨t, ht⟩ := feedOne_answers s i
    rw [feedAll_cons ht] at hp
    exact (feedOne_commits ht (ih hp)).1

/-! ### The analyzer after an input -/

/-- The analyzer after the bits and the FEED_RUN operands, from the leading 0 and an empty table (R80, R81). -/
structure Analyzed (c : Config) (b : Block) (bits : List Bool) (runs : List Nat) : Prop where
  counted : Counted c b (closedRuns false 0 bits ++ runs)
  openBit : b.rleBit = (openRun false 0 bits).1
  openLen : b.rleLen.toNat = (openRun false 0 bits).2

theorem Analyzed.latch {c : Config} {b : Block} {bits : List Bool} {runs : List Nat} (h : Analyzed c b bits runs)
    (a : Word) : Analyzed c { b with latArg := a } bits runs := ⟨h.counted.congr rfl rfl, h.openBit, h.openLen⟩

theorem Analyzed.feedBits {c : Config} {b t : Block} {bits xs : List Bool} {runs : List Nat} {op : Byte} {pos : Nat}
    (h : Analyzed c b bits runs) (hf : feedBits c op xs pos b = .ok t) : Analyzed c t (bits ++ xs) runs := by
  obtain ⟨hbit, hlen, -, hcount⟩ := feedBits_runs h.counted.table hf
  rw [h.openBit, h.openLen] at hbit hlen
  refine ⟨⟨feedBits_tableOk h.counted.table hf, fun v => ?_⟩, by rw [openRun_append, hbit], by rw [openRun_append, hlen]⟩
  rw [hcount, h.counted.counts, h.openBit, h.openLen, closedRuns_append]
  simp only [List.count_append]
  omega

theorem Analyzed.emit {c : Config} {b t : Block} {bits : List Bool} {runs : List Nat} {v : Word} {op : Byte} {pos : Nat}
    (h : Analyzed c b bits runs) (hv : v ≠ 0) (he : emit c v op pos b = .ok t) :
    Analyzed c t bits (runs ++ [v.toNat]) := by
  have hframe := emit_frame he
  refine ⟨(h.counted.emit hv he).perm ?_, by rw [hframe]; exact h.openBit, by rw [hframe]; exact h.openLen⟩
  rw [← List.append_assoc]
  exact (List.perm_append_singleton _ _).symm

/-- FLUSH counts the open run, which completes the maximal runs of the bits (R86, R87). -/
theorem Analyzed.flush {c : Config} {b t : Block} {bits : List Bool} {runs : List Nat} (h : Analyzed c b bits runs)
    (hf : flushInput c b = .ok t) : Counted c t (maximalRuns bits ++ runs) ∧ t.rleLen = 0 := by
  rw [maximalRuns_eq, ← h.openLen]
  unfold flushInput at hf
  split at hf
  · rename_i hlen
    obtain rfl := Except.ok.inj hf
    have hnone : closing b.rleLen.toNat = [] := by rw [hlen]; rfl
    rw [hnone, List.append_nil]
    exact ⟨h.counted.congr rfl rfl, hlen⟩
  · rename_i hlen
    split at hf
    · rename_i m hm
      obtain rfl := Except.ok.inj hf
      refine ⟨((h.counted.emit hlen hm).perm ?_).congr rfl rfl, rfl⟩
      rw [closing_of_ne_zero fun e => hlen (BitVec.eq_of_toNat_eq e), List.append_assoc]
      exact List.perm_middle.symm
    · cases hf

theorem Analyzed.feedOne {s t : State} {bits : List Bool} {runs : List Nat} {i : Input}
    (h : Analyzed s.cfg s.blk bits runs) (hf : feedOne s i = .next t) (hp : t.blk.phase = .accum) :
    Analyzed t.cfg t.blk (bits ++ inputBits [i]) (runs ++ inputRuns [i]) := by
  obtain ⟨-, b, hb, rfl⟩ := feedOne_commits hf hp
  cases i with
  | bytes nb a =>
    rw [show inputRuns [.bytes nb a] = [] from rfl, List.append_nil, inputBits, inputBits, List.append_nil]
    exact (h.latch a).feedBits (ofExcept_eq_commit.1 hb)
  | run v =>
    obtain ⟨hv, he⟩ := bodyOf_feedRun_commit hb
    rw [show inputBits [.run v] = [] from rfl, List.append_nil]
    exact (h.latch v).emit hv he

theorem inputBits_cons (i : Input) (rest : List Input) : inputBits (i :: rest) = inputBits [i] ++ inputBits rest := by
  cases i <;> simp [inputBits]

theorem inputRuns_cons (i : Input) (rest : List Input) : inputRuns (i :: rest) = inputRuns [i] ++ inputRuns rest := by
  cases i <;> simp [inputRuns]

theorem Analyzed.feedAll {s : State} {bits : List Bool} {runs : List Nat} {input : List Input}
    (h : Analyzed s.cfg s.blk bits runs) (hp : (feedAll s input).blk.phase = .accum) :
    Analyzed (feedAll s input).cfg (feedAll s input).blk (bits ++ inputBits input) (runs ++ inputRuns input) := by
  induction input generalizing s bits runs with
  | nil =>
    rw [inputBits, inputRuns, List.append_nil, List.append_nil]
    exact h
  | cons i rest ih =>
    obtain ⟨t, ht⟩ := feedOne_answers s i
    rw [feedAll_cons ht] at hp ⊢
    rw [inputBits_cons, inputRuns_cons, ← List.append_assoc, ← List.append_assoc]
    exact ih (h.feedOne ht (feedAll_accum hp)) hp

theorem Fresh.analyzed {s : State} (h : Fresh s) : Analyzed s.cfg s.blk [] [] := by
  obtain ⟨-, hbit, hlen, hsym, hnruns⟩ := h
  refine ⟨⟨⟨?_, ?_, ?_, ?_⟩, fun v => ?_⟩, hbit, ?_⟩
  · rw [Block.n, hsym]; exact Nat.zero_le _
  · simp [hsym, Ascending]
  · simp [hsym]
  · simp [hsym, hnruns]
  · simp [hsym, closedRuns]
  · simp [hlen, openRun]

theorem Fresh.fed {s : State} {input : List Input} (h : Fresh s) (hp : (feedAll s input).blk.phase = .accum) :
    Analyzed (feedAll s input).cfg (feedAll s input).blk (inputBits input) (inputRuns input) := h.analyzed.feedAll hp

theorem Fresh.flushed {s u : State} {input : List Input} (h : Fresh s) (hx : exec .flush (feedAll s input) = .next u)
    (hp : u.blk.phase = .frozen) :
    Counted u.cfg u.blk (maximalRuns (inputBits input) ++ inputRuns input) ∧ u.blk.rleLen = 0 := by
  obtain ⟨hl, b, hb, rfl⟩ := exec_commits (by simp) hx (by simp [hp])
  exact (h.fed (of_decide_eq_true hl)).flush (ofExcept_eq_commit.1 hb)

/-! ### The statements about an input -/

/-- Settles O41: the flushed table has counted the maximal runs and the FEED_RUN operands. -/
theorem flushedTableCountsMaximalRuns : Obligations.FlushedTableCountsMaximalRuns := by
  intro s u input hs hx hp v
  rw [(hs.flushed hx hp).1.counts, List.count_append]

/-- Settles O42: both inputs count the same multiset of runs, before and after FLUSH. -/
theorem tableIndependentOfSplit : Obligations.TableIndependentOfSplit := by
  intro s u u' input input' hs hbits hruns
  refine ⟨fun hp hp' => (hs.fed hp).counted.unique (hs.fed hp').counted ?_,
    fun hx hx' hp hp' => (hs.flushed hx hp).1.unique (hs.flushed hx' hp').1 ?_⟩
  · rw [hbits]; exact hruns.append_left _
  · rw [hbits]; exact hruns.append_left _

/-- Settles O44: the open run is the one the bits leave, and FLUSH empties it. -/
theorem openRunIsEmptyOnlyBeforeInput : Obligations.OpenRunIsEmptyOnlyBeforeInput := by
  intro s u input hs
  refine ⟨fun hp => ?_, fun hx hp => (hs.flushed hx hp).2⟩
  rw [← openRun_start_eq_zero_iff, ← (hs.fed hp).openLen, BitVec.toNat_eq]
  rfl

/-- Eight bits for each byte (R79). -/
theorem length_inputBits (input : List Input) : (inputBits input).length
    = 8 * (input.map (fun i => match i with | .bytes nb _ => nb.toNat + 1 | .run _ => 0)).sum := by
  induction input with
  | nil => rfl
  | cons i rest ih =>
    rw [inputBits_cons, List.length_append, ih, List.map_cons, List.sum_cons, Nat.mul_add]
    cases i with
    | bytes nb a => simp [inputBits, feedBytesOperandBitsInOrder nb a]
    | run v => simp [inputBits]

/-- Settles O43: the sums of the runs counted, which are the closed runs before FLUSH and the maximal runs after it. -/
theorem runSumsAccountForEveryBit : Obligations.RunSumsAccountForEveryBit := by
  intro s u input hs
  refine ⟨fun hp => (hs.fed hp).counted.table.sum, fun hx hp => (hs.flushed hx hp).1.table.sum, length_inputBits input,
    fun hruns => ⟨fun hp => ?_, fun hx hp => ?_⟩⟩
  · have hfed := hs.fed hp
    rw [hfed.counted.weightedSum_eq, hfed.openLen, hruns, List.append_nil, sum_closedRuns, Nat.zero_add]
  · have hflushed := (hs.flushed hx hp).1
    rw [hruns, List.append_nil] at hflushed
    exact ⟨by rw [hflushed.weightedSum_eq, sum_maximalRuns],
      fun hne => by rw [hflushed.nruns_eq, length_maximalRuns hne]⟩

end Sys2Proof.Machine
end

section
/-! PROOFS. BUILD_TREE leaves the Huffman tree of the table (spec/42_tree_builder.md R90 to R95), and the laws of that tree
(R96). -/

namespace Sys2Proof.Machine

/-! ### BUILD_TREE on a table that is not empty (R94) -/

/-- S after BUILD_TREE on a table that is not empty. -/
def builtTree (b : Block) : Block :=
  { b with
    node := (huffman b.sym).1, root := BitVec.ofNat 12 ((huffman b.sym).2.headD 0), treeValid := true, phase := .tree }

theorem buildTree_of_ne {b : Block} (h : b.n ≠ 0) : buildTree b = .commit (builtTree b) := by
  rw [buildTree, if_neg h]; rfl

theorem buildTree_commit {b t : Block} (h : buildTree b = .commit t) : b.n ≠ 0 ∧ t = builtTree b := by
  by_cases hn : b.n = 0
  · rw [buildTree, if_pos hn] at h; cases h
  · rw [buildTree_of_ne hn] at h; cases h; exact ⟨hn, rfl⟩

theorem exec_buildTree_frozen {s : State} (hp : s.blk.phase = .frozen) (hn : s.blk.n ≠ 0) :
    exec .buildTree s = .next (s.withBlk (builtTree s.blk)) := by
  rw [exec_eq_runCommand (by simp), runCommand_legal (by simp [hp]) (by simp [hp, legal])]
  change conclude s (buildTree s.blk) = _
  rw [buildTree_of_ne hn]
  rfl

/-- A BUILD_TREE that ends in TREE ran in FROZEN on a table that is not empty. -/
theorem exec_buildTree_tree {s t : State} (h : exec .buildTree s = .next t) (ht : t.blk.phase = .tree) :
    s.blk.phase = .frozen ∧ s.blk.n ≠ 0 ∧ t = s.withBlk (builtTree s.blk) := by
  obtain ⟨hl, b, hb, rfl⟩ := exec_commits (by simp) h (by simp [ht])
  obtain ⟨hn, rfl⟩ := buildTree_commit hb
  exact ⟨of_decide_eq_true hl, hn, rfl⟩

theorem Inv.builtTree_treeOk {s : State} (hs : Inv s) (hp : s.blk.phase = .frozen) (hn : s.blk.n ≠ 0) :
    TreeOk s.blk.sym (builtTree s.blk).node (builtTree s.blk).root.toNat s.blk.nruns.toNat := by
  rcases buildTree_keeps hs.config hs.block hp with ⟨t, hc, ht, -⟩ | hr
  · obtain ⟨-, rfl⟩ := buildTree_commit hc
    exact ht.tree rfl
  · rw [buildTree_of_ne hn] at hr; cases hr

/-- Settles O45: the builder's arena and root, which meet `TreeOk` because BUILD_TREE keeps the invariant. -/
theorem buildTreeBuildsHuffmanTree : Obligations.BuildTreeBuildsHuffmanTree := by
  intro s hs hp hn
  have hne : s.blk.n ≠ 0 := Nat.one_le_iff_ne_zero.1 hn
  exact ⟨_, _, exec_buildTree_frozen hp hne, hs.builtTree_treeOk hp hne⟩

/-! ### A table of one slot (R95) -/

theorem huffman_singleton (slot : Slot) : huffman [slot] = ([.leaf slot.count slot.value], [0]) := by rfl

theorem registerWord_root {c : Config} {b : Block} (h : b.treeValid = true) :
    registerWord c b 0x0030 = b.root.setWidth 32 := if_pos h

/-- Settles O47: no merge is made for one slot, and the window gates the ids above 2n - 2 = 0. -/
theorem singleLeafTree : Obligations.SingleLeafTree := by
  intro s slot hp hsym
  have hn : (builtTree s.blk).n = 1 := by simp [builtTree, Block.n, hsym]
  have hnode : (builtTree s.blk).node = [.leaf slot.count slot.value] := by
    simp only [builtTree, hsym, huffman_singleton]
  have hroot : (builtTree s.blk).root = 0 := by simp [builtTree, hsym, huffman_singleton]
  have hread {j : Nat} (hj : j < 4096) :
      readWord s.cfg (builtTree s.blk) (0x20000 + 16 * j) = nodeWord (builtTree s.blk) j 0 :=
    readWord_node s.cfg _ hj (k := 0) (by decide)
  refine ⟨_, exec_buildTree_frozen hp (by simp [hsym]), hnode, hroot, ?_, ?_, fun j hj hlt => ?_⟩
  · rw [withBlk_cfg, withBlk_blk, readWord_register _ _ (by decide), registerWord_root rfl, hroot]; rfl
  · have hleaf : (builtTree s.blk).node[0]? = some (.leaf slot.count slot.value) := by rw [hnode]; rfl
    exact (hread (j := 0) (by decide)).trans (nodeWord_valid (j := 0) 0 rfl (by omega) hleaf)
  · exact (hread hlt).trans (nodeWord_invalid 0 (.inr (by omega)))

end Sys2Proof.Machine
end

section
/-! PROOFS. The laws of a finished tree (spec/42_tree_builder.md R96): which nodes are leaves, who owns whom, and how the
weights lie. -/

namespace Sys2Proof.Machine

section
variable {sym : List Slot} {arena : List Node} {root total : Nat}

/-! ### Leaves and internal nodes (R96 item 1) -/

/-- Below n the arena holds leaves only, from n on internal nodes only; so it holds n leaves. -/
theorem TreeOk.countP_leaves (h : TreeOk sym arena root total) {p : Node → Bool} (hleaf : ∀ w v, p (.leaf w v) = true)
    (hint : ∀ w l r, p (.internal w l r) = false) : arena.countP p = sym.length := by
  have hfirst : (leavesOf sym).countP p = (leavesOf sym).length := by
    rw [List.countP_eq_length]
    rintro x hx
    obtain ⟨t, -, rfl⟩ := List.mem_map.1 hx
    exact hleaf _ _
  have hrest : (arena.drop sym.length).countP p = 0 := by
    rw [List.countP_eq_zero]
    intro x hx
    obtain ⟨i, hi, rfl⟩ := List.getElem_of_mem hx
    rw [List.length_drop] at hi
    obtain ⟨w, l, r, hnode, -, -⟩ := h.merges (sym.length + i) (by omega) (by omega)
    rw [List.getElem_drop, (List.getElem?_eq_some_iff.1 hnode).2, hint]
    simp
  rw [← List.take_append_drop sym.length arena, List.countP_append, hrest, h.leaves, hfirst]
  simp [leavesOf]

theorem TreeOk.countP_internals (h : TreeOk sym arena root total) {p : Node → Bool}
    (hleaf : ∀ w v, p (.leaf w v) = false) (hint : ∀ w l r, p (.internal w l r) = true) :
    arena.countP p = sym.length - 1 := by
  have hsplit := List.length_eq_countP_add_countP p (l := arena)
  rw [h.countP_leaves (p := fun x => decide (¬p x = true)) (by simp [hleaf]) (by simp [hint])] at hsplit
  have hsize := h.size
  omega

/-! ### Owners (R96 item 2) -/

theorem TreeOk.count_childIds (h : TreeOk sym arena root total) (j : Nat) :
    (childIds arena).count j = if j < 2 * sym.length - 2 then 1 else 0 := by
  rw [h.owned.count_eq, List.count_range]

/-! ### Weights (R96 items 3 to 5) -/

theorem weightAt_of_getElem? {j : Nat} {x : Node} (h : arena[j]? = some x) : weightAt arena j = weightOf x := by
  simp [weightAt, h]

theorem weight_le_of_before {j k : Nat} (h : before arena j k = true) :
    (weightAt arena j).toNat ≤ (weightAt arena k).toNat := by
  rw [before_iff] at h; omega

/-- What an internal node is: a merge, made of two smaller ids. -/
theorem TreeOk.internal (h : TreeOk sym arena root total) {j : Nat} {w l r : Word}
    (hnode : arena[j]? = some (.internal w l r)) :
    (sym.length ≤ j ∧ j < arena.length) ∧ (l.toNat < j ∧ r.toNat < j)
      ∧ Selected arena (poolAt arena j) l.toNat r.toNat
      ∧ (weightAt arena j).toNat = (weightAt arena l.toNat).toNat + (weightAt arena r.toNat).toNat := by
  obtain ⟨hn, hl, hr⟩ := internal_children h.leaves h.merges hnode
  have hj := (List.getElem?_eq_some_iff.1 hnode).1
  obtain ⟨w', l', r', hnode', hsel, hw⟩ := h.merges j hn hj
  rw [weightAt_of_getElem? hnode]
  rw [hnode] at hnode'
  cases hnode'
  exact ⟨⟨hn, hj⟩, ⟨hl, hr⟩, hsel, hw⟩

theorem Selected.weight_le {pool : List Nat} {x y : Nat} (h : Selected arena pool x y) :
    (weightAt arena x).toNat ≤ (weightAt arena y).toNat := weight_le_of_before (h.first y h.memY h.ne.symm)

/-- A child has a smaller id than its parent and weighs no more. -/
theorem TreeOk.child (h : TreeOk sym arena root total) {j : Nat} {w l r : Word}
    (hnode : arena[j]? = some (.internal w l r)) (bit : Bool) :
    (if bit then r else l).toNat < j
      ∧ (weightAt arena (if bit then r else l).toNat).toNat ≤ (weightAt arena j).toNat := by
  obtain ⟨-, ⟨hl, hr⟩, -, hw⟩ := h.internal hnode
  cases bit with
  | false => exact ⟨hl, hw ▸ Nat.le_add_right _ _⟩
  | true => exact ⟨hr, hw ▸ Nat.le_add_left _ _⟩

/-- Down a path the weights never grow. -/
theorem TreeOk.weight_le_of_follow (h : TreeOk sym arena root total) {path : List Bool} {j k : Nat}
    (hf : follow arena j path = some k) : (weightAt arena k).toNat ≤ (weightAt arena j).toNat := by
  induction path generalizing j with
  | nil => rw [follow_nil] at hf; cases hf; exact le_rfl
  | cons bit path ih =>
    obtain ⟨w, l, r, hnode, hrest⟩ := follow_cons hf
    exact (ih hrest).trans (h.child hnode bit).2

theorem TreeOk.weight_le_total (h : TreeOk sym arena root total) (j : Nat) : (weightAt arena j).toNat ≤ total := by
  by_cases hj : j < arena.length
  · obtain ⟨path, hpath⟩ := h.follow_exists hj
    exact (h.weight_le_of_follow hpath).trans_eq h.rootWeight
  · simp [weightAt, List.getElem?_eq_none (not_lt.1 hj)]

/-! ### The order in which nodes are made (R96 item 6) -/

theorem childIds_take_succ {j : Nat} {w l r : Word} (hnode : arena[j]? = some (.internal w l r)) :
    childIds (arena.take (j + 1)) = childIds (arena.take j) ++ [l.toNat, r.toNat] := by
  rw [List.take_add_one, hnode, childIds_append]
  rfl

/-- After a merge the pool holds the new node and what the merge left. -/
theorem poolAt_succ {j z : Nat} {w l r : Word} (hnode : arena[j]? = some (.internal w l r))
    (hz : z ∈ poolAt arena (j + 1)) : z = j ∨ z ∈ poolAt arena j ∧ z ≠ l.toNat ∧ z ≠ r.toNat := by
  rw [mem_poolAt, childIds_take_succ hnode] at hz
  obtain ⟨hlt, hfree⟩ := hz
  simp only [List.mem_append, List.mem_cons, List.not_mem_nil, or_false, not_or] at hfree
  obtain ⟨hfree, hl, hr⟩ := hfree
  rcases Nat.lt_succ_iff_lt_or_eq.1 hlt with hlt | rfl
  · exact .inr ⟨mem_poolAt.2 ⟨hlt, hfree⟩, hl, hr⟩
  · exact .inl rfl

/-- A merge weighs no less than the merge before it: each of its children is that merge, or was left by it and so weighs
no less than its second selection. -/
theorem TreeOk.weight_le_succ (h : TreeOk sym arena root total) {j : Nat} (hn : sym.length ≤ j)
    (hj : j + 1 < arena.length) : (weightAt arena j).toNat ≤ (weightAt arena (j + 1)).toNat := by
  obtain ⟨w, l, r, hnode, -⟩ := h.merges j hn (by omega)
  obtain ⟨w', l', r', hnode', -⟩ := h.merges (j + 1) (by omega) hj
  obtain ⟨-, -, hsel, hw⟩ := h.internal hnode
  obtain ⟨-, -, hsel', hw'⟩ := h.internal hnode'
  have hleft {z : Nat} (hz : z ∈ poolAt arena (j + 1)) (hzj : z ≠ j) :
      (weightAt arena r.toNat).toNat ≤ (weightAt arena z).toNat := by
    obtain ⟨hmem, hzl, hzr⟩ := (poolAt_succ hnode hz).resolve_left hzj
    exact weight_le_of_before (hsel.second z hmem hzl hzr)
  by_cases hl : l'.toNat = j
  · rw [hl] at hw'; omega
  by_cases hr : r'.toNat = j
  · rw [hr] at hw'; omega
  have hwl := hleft hsel'.memX hl
  have hwr := hleft hsel'.memY hr
  have hlr := hsel.weight_le
  omega

theorem TreeOk.weight_mono (h : TreeOk sym arena root total) {i j : Nat} (hn : sym.length ≤ i) (hij : i ≤ j)
    (hj : j < arena.length) : (weightAt arena i).toNat ≤ (weightAt arena j).toNat := by
  induction j, hij using Nat.le_induction with
  | base => exact le_rfl
  | succ j hij ih => exact (ih (by omega)).trans (h.weight_le_succ (by omega) hj)

end

/-- Settles O48: the laws of `TreeOk`, and the arena and the root are functions of the table. -/
theorem builtTreeLaws : Obligations.BuiltTreeLaws := by
  intro s t hs hx ht
  obtain ⟨hp, hn, rfl⟩ := exec_buildTree_tree hx ht
  have h := hs.builtTree_treeOk hp hn
  refine ⟨⟨h.countP_leaves (fun _ _ => rfl) fun _ _ _ => rfl, h.countP_internals (fun _ _ => rfl) fun _ _ _ => rfl⟩,
    ⟨h.rootId, fun j hj => (h.count_childIds j).trans (if_pos hj),
      fun j hj => (h.count_childIds j).trans (if_neg (not_lt.2 hj))⟩,
    fun j w l r hnode => ?_, BitVec.eq_of_toNat_eq h.rootWeight, h.weight_le_total, fun i j => h.weight_mono, ?_⟩
  · obtain ⟨-, ⟨hl, hr⟩, hsel, hw⟩ := h.internal hnode
    rw [withBlk_blk] at hnode
    rw [weightAt_of_getElem? hnode] at hw
    exact ⟨hl, hr, hw, hsel.weight_le⟩
  · intro s' t' _ hsym hx' ht'
    obtain ⟨-, -, rfl⟩ := exec_buildTree_tree hx' ht'
    simp [builtTree, hsym]

end Sys2Proof.Machine
end

section
/-! PROOFS. The lengths of the codes: they are the depths of the leaves, and a heavier leaf lies no deeper than a lighter one
and so has no longer a code (spec/43_code_generator.md R97, R103). -/

namespace Sys2Proof.Machine

section
variable {sym : List Slot} {arena : List Node} {root total : Nat}

/-! ### The weight of a leaf (spec/42_tree_builder.md R90) -/

theorem TreeOk.weightAt_leaf (h : TreeOk sym arena root total) {j : Nat} {t : Slot} (ht : sym[j]? = some t) :
    weightAt arena j = t.count := by
  obtain ⟨hj, rfl⟩ := List.getElem?_eq_some_iff.1 ht
  exact weightAt_of_getElem? (leaf_of_take h.leaves hj)

/-! ### The order in which nodes are merged (R103) -/

theorem before_asymm {j k : Nat} (h : before arena j k = true) : ¬ before arena k j = true := by
  rw [before_iff] at *; omega

theorem Selected.before_of_mem {pool : List Nat} {x y z : Nat} (h : Selected arena pool x y) (hz : z ∈ pool)
    (hx : z ≠ x) (hy : z ≠ y) (bit : Bool) : before arena (if bit then y else x) z = true := by
  cases bit with
  | false => exact h.first z hz hx
  | true => exact h.second z hz hx hy

/-- Whoever owns a child of the first j nodes is one of them. -/
theorem exists_parent_of_mem_childIds_take {j z : Nat} (h : z ∈ childIds (arena.take j)) :
    ∃ (m : Nat) (w l r : Word) (bit : Bool),
      m < j ∧ arena[m]? = some (.internal w l r) ∧ (if bit then r else l).toNat = z := by
  obtain ⟨m, w, l, r, hm, hz⟩ := mem_childIds.1 h
  rw [List.getElem?_take] at hm
  obtain ⟨hmj, hnode⟩ := Option.ite_none_right_eq_some.1 hm
  rcases hz with rfl | rfl
  · exact ⟨m, w, l, r, false, hmj, hnode, rfl⟩
  · exact ⟨m, w, l, r, true, hmj, hnode, rfl⟩

/-- A child made before node j is in the pool when j is made, unless its parent was made before j. -/
theorem TreeOk.child_mem_poolAt (h : TreeOk sym arena root total) {i j : Nat} {w l r : Word} {bit : Bool}
    (hi : arena[i]? = some (.internal w l r)) (hlt : (if bit then r else l).toNat < j) (hji : j ≤ i) :
    (if bit then r else l).toNat ∈ poolAt arena j := by
  refine mem_poolAt.2 ⟨hlt, fun hc => ?_⟩
  obtain ⟨m, w', l', r', bit', hm, hnode, he⟩ := exists_parent_of_mem_childIds_take hc
  obtain ⟨rfl, -⟩ := h.parent_unique hnode hi he
  omega

/-- A node that comes before another is merged no later: while it is in the pool, the other is not selected without it;
and a node not yet made weighs no less than a merge made before it. -/
theorem TreeOk.parent_le (h : TreeOk sym arena root total) {i j : Nat} {w l r w' l' r' : Word} {bit bit' : Bool}
    (hi : arena[i]? = some (.internal w l r)) (hj : arena[j]? = some (.internal w' l' r'))
    (hb : before arena (if bit then r else l).toNat (if bit' then r' else l').toNat = true) : i ≤ j := by
  by_contra hlt
  obtain ⟨⟨hnj, -⟩, -, hsel, -⟩ := h.internal hj
  by_cases hmade : (if bit then r else l).toNat < j
  · have hother (bit₂ : Bool) : (if bit then r else l).toNat ≠ (if bit₂ then r' else l').toNat :=
      fun e => hlt (h.parent_unique hi hj e).1.le
    have hfirst := hsel.before_of_mem (h.child_mem_poolAt hi hmade (not_le.1 hlt).le) (hother false) (hother true) bit'
    rw [← apply_ite BitVec.toNat] at hfirst
    exact before_asymm hb hfirst
  · obtain ⟨hsmall, hwj⟩ := h.child hj bit'
    have hmono := h.weight_mono hnj (not_lt.1 hmade) ((h.child hi bit).1.trans (List.getElem?_eq_some_iff.1 hi).1)
    rw [before_iff] at hb
    omega

/-- The last edge of a path that is not empty. -/
theorem follow_append_singleton {j k : Nat} {path : List Bool} {bit : Bool}
    (h : follow arena j (path ++ [bit]) = some k) :
    ∃ i w l r, follow arena j path = some i ∧ arena[i]? = some (.internal w l r) ∧ (if bit then r else l).toNat = k := by
  rw [follow_append] at h
  obtain ⟨i, hi, hlast⟩ := Option.bind_eq_some_iff.1 h
  obtain ⟨w, l, r, hnode, hk⟩ := follow_cons hlast
  rw [follow_nil] at hk
  exact ⟨i, w, l, r, hi, hnode, Option.some.inj hk⟩

theorem follow_append_child {j k : Nat} {path : List Bool} {w l r : Word} (hpath : follow arena j path = some k)
    (hnode : arena[k]? = some (.internal w l r)) (bit : Bool) :
    follow arena j (path ++ [bit]) = some (if bit then r else l).toNat := by
  rw [follow_append, hpath]; exact follow_internal hnode bit []

/-- A node that comes before another lies no higher in the tree: so do their parents, until one of them is the root, which
nothing comes after. -/
theorem TreeOk.depth_le_of_before (h : TreeOk sym arena root total) {p q : List Bool} {j k : Nat}
    (hp : follow arena root p = some j) (hq : follow arena root q = some k) (hb : before arena j k = true) :
    q.length ≤ p.length := by
  induction q using List.reverseRecOn generalizing p j k with
  | nil => exact Nat.zero_le _
  | append_singleton q bit' ih =>
    cases p using List.reverseRecOn with
    | nil =>
      rw [follow_nil] at hp
      cases hp
      have hw := h.weight_le_of_follow hq
      have hid := h.follow_le hq
      rw [before_iff] at hb
      omega
    | append_singleton p bit =>
      obtain ⟨i, w, l, r, hpi, hi, rfl⟩ := follow_append_singleton hp
      obtain ⟨m, w', l', r', hqm, hm, rfl⟩ := follow_append_singleton hq
      simp only [List.length_append, List.length_singleton, Nat.add_le_add_iff_right]
      rcases (h.parent_le hi hm hb).eq_or_lt with rfl | hlt
      · rw [h.follow_unique hpi hqm]
      · refine ih hpi hqm (before_iff.2 ?_)
        have hmono := h.weight_mono (h.internal hi).1.1 hlt.le (h.internal hm).1.2
        omega

end

/-! ### Lengths and depths (R97) -/

section
variable {c : Config} {b : Block}

theorem TreeOk.leafPath_exists (h : TreeOk b.sym b.node b.root.toNat b.nruns.toNat) {j : Nat} (hj : j < b.n) :
    ∃ path, LeafPath b j path := by
  have hsize : b.node.length = 2 * b.n - 1 := h.size
  obtain ⟨path, hpath⟩ := h.follow_exists (k := j) (by omega)
  exact ⟨path, hj, hpath⟩

theorem CodesOk.len_eq (h : CodesOk c b) (hc : c.wf = true) (hn : 2 ≤ b.n) {j : Nat}
    {path : List Bool} {e : Code} (hpath : LeafPath b j path) (he : b.code[j]? = some e) :
    e.len.toNat = path.length := by
  obtain ⟨hcode, hlen⟩ := h.paths hn j path hpath
  rw [he] at hcode
  cases hcode
  exact codeOf_len_toNat (hlen.trans (lMax_le_of_wf hc))

end

/-- Settles O54: the lighter leaf comes before the heavier one, so it lies no higher. -/
theorem codeLengthsAreMonotone : Obligations.CodeLengthsAreMonotone := by
  intro s i k t u c d hs hv hi hk hc hd hlt
  have htree := hs.block.tree (hs.block.codesTree hv)
  have hcodes := hs.block.codes hv
  have hin : i < s.blk.n := (List.getElem?_eq_some_iff.1 hi).1
  have hkn : k < s.blk.n := (List.getElem?_eq_some_iff.1 hk).1
  have hb : before s.blk.node k i = true := by
    rw [before_iff, htree.weightAt_leaf hi, htree.weightAt_leaf hk]
    exact .inl hlt
  have hne : i ≠ k := by
    rintro rfl
    exact before_asymm hb hb
  obtain ⟨p, hp⟩ := htree.leafPath_exists hin
  obtain ⟨q, hq⟩ := htree.leafPath_exists hkn
  rw [BitVec.le_def, hcodes.len_eq hs.config (by omega) hp hc, hcodes.len_eq hs.config (by omega) hq hd]
  exact htree.depth_le_of_before hq.2 hp.2 hb

end Sys2Proof.Machine
end

section
/-! PROOFS. The codes fill the tree (spec/43_code_generator.md R105): Kraft's sum over the leaves below a node, the code
table as the codes of the leaves, and the bounds of the lengths. -/

namespace Sys2Proof.Machine

section
variable {sym : List Slot} {arena : List Node} {root total : Nat}

/-! ### The leaves below a node -/

/-- Kraft's sum over the leaves below a node: each internal node halves its share between its two children. -/
theorem TreeOk.kraft_leavesBelow (h : TreeOk sym arena root total) {fuel j : Nat} {path : List Bool} (hfuel : j < fuel)
    (hj : j < arena.length) :
    ((leavesBelow arena fuel j path).map (fun p => ((1 : ℚ) / 2) ^ p.2.length)).sum = (1 / 2) ^ path.length := by
  induction fuel generalizing j path with
  | zero => omega
  | succ fuel ih =>
    rcases h.kind hj with ⟨-, w, v, hnode⟩ | ⟨-, w, l, r, hnode, hl, hr⟩
    · simp [leavesBelow_leaf hnode]
    · rw [leavesBelow_internal hnode, List.map_append, List.sum_append, ih (by omega) (by omega),
        ih (by omega) (by omega), List.length_append, List.length_append, List.length_singleton, List.length_singleton,
        pow_succ]
      ring

/-- No leaf lies below a node twice: one below both children would have two paths from the root. -/
theorem TreeOk.leavesBelow_nodup (h : TreeOk sym arena root total) {fuel j : Nat} {path : List Bool} (hfuel : j < fuel)
    (hj : j < arena.length) (hpath : follow arena root path = some j) :
    ((leavesBelow arena fuel j path).map Prod.fst).Nodup := by
  induction fuel generalizing j path with
  | zero => omega
  | succ fuel ih =>
    rcases h.kind hj with ⟨-, w, v, hnode⟩ | ⟨-, w, l, r, hnode, hl, hr⟩
    · simp [leavesBelow_leaf hnode]
    · have hleft : follow arena root (path ++ [false]) = some l.toNat := follow_append_child hpath hnode false
      have hright : follow arena root (path ++ [true]) = some r.toNat := follow_append_child hpath hnode true
      rw [leavesBelow_internal hnode, List.map_append]
      refine List.nodup_append'.2 ⟨ih (by omega) (by omega) hleft, ih (by omega) (by omega) hright, fun k hkl hkr => ?_⟩
      obtain ⟨⟨_, p⟩, hp, rfl⟩ := List.mem_map.1 hkl
      obtain ⟨⟨_, q⟩, hq, rfl⟩ := List.mem_map.1 hkr
      obtain ⟨p, -, -, hp⟩ := (mem_leavesBelow h (by omega) (by omega)).1 hp
      obtain ⟨q, -, -, hq⟩ := (mem_leavesBelow h (by omega) (by omega)).1 hq
      have htwo : path ++ [false] ++ p = path ++ [true] ++ q :=
        h.follow_unique (by rw [follow_append, hleft]; exact hp) (by rw [follow_append, hright]; exact hq)
      simp at htwo

/-- The leaves below the root are the n slots, each once. -/
theorem TreeOk.leavesBelow_perm (h : TreeOk sym arena root total) :
    ((leavesBelow arena arena.length root []).map Prod.fst).Perm (List.range sym.length) := by
  refine (List.perm_ext_iff_of_nodup (h.leavesBelow_nodup h.root_lt h.root_lt (follow_nil _ _)) List.nodup_range).2
    fun k => ?_
  rw [List.mem_range, List.mem_map]
  constructor
  · rintro ⟨⟨_, p⟩, hp, rfl⟩
    obtain ⟨-, -, hk, -⟩ := (mem_leavesBelow h h.root_lt h.root_lt).1 hp
    exact hk
  · intro hk
    obtain ⟨path, hpath⟩ := h.follow_exists (k := k) (by have := h.size; omega)
    exact ⟨(k, path), (mem_leavesBelow h h.root_lt h.root_lt).2 ⟨path, rfl, hk, hpath⟩, rfl⟩

/-- The internal nodes of a path have distinct ids from n on. -/
theorem TreeOk.length_le_of_follow (h : TreeOk sym arena root total) {path : List Bool} {j k : Nat}
    (hf : follow arena j path = some k) : path.length ≤ j + 1 - sym.length := by
  induction path generalizing j with
  | nil => exact Nat.zero_le _
  | cons bit path ih =>
    obtain ⟨w, l, r, hnode, hrest⟩ := follow_cons hf
    have hn := (h.internal hnode).1.1
    have hchild := (h.child hnode bit).1
    have hlen := ih hrest
    rw [List.length_cons]
    omega

end

/-! ### The code table -/

theorem map_range_getElem? {α : Type} (l : List α) : (List.range l.length).map (l[·]?) = l.map some :=
  List.ext_getElem (by simp) (by simp)

section
variable {c : Config} {b : Block}

/-- The code table holds, in some order, the codes of the leaves below the root. -/
theorem CodesOk.perm_leavesBelow (h : CodesOk c b) (ht : TreeOk b.sym b.node b.root.toNat b.nruns.toNat)
    (hn : 2 ≤ b.n) :
    ((leavesBelow b.node b.node.length b.root.toNat []).map (fun p => codeOf p.2)).Perm b.code := by
  have hread := ht.leavesBelow_perm.map (b.code[·]?)
  have hsize : b.code.length = b.sym.length := h.size
  rw [← hsize, map_range_getElem?, List.map_map] at hread
  refine (List.map_perm_map_iff (Option.some_injective _)).1 ?_
  rw [List.map_map]
  refine List.Perm.trans (List.Perm.of_eq (List.map_congr_left ?_)) hread
  rintro ⟨j, p⟩ hp
  obtain ⟨path, rfl, hj, hpath⟩ := (mem_leavesBelow ht ht.root_lt ht.root_lt).1 hp
  exact ((h.paths hn j p ⟨hj, hpath⟩).1).symm

theorem CodesOk.exists_leafPath (h : CodesOk c b) (hc : c.wf = true)
    (ht : TreeOk b.sym b.node b.root.toNat b.nruns.toNat) (hn : 2 ≤ b.n) {e : Code} (he : e ∈ b.code) :
    ∃ j path, LeafPath b j path ∧ e.len.toNat = path.length := by
  obtain ⟨j, hj, rfl⟩ := List.getElem_of_mem he
  obtain ⟨path, hpath⟩ := ht.leafPath_exists (h.size ▸ hj)
  exact ⟨j, path, hpath, h.len_eq hc hn hpath (List.getElem?_eq_getElem hj)⟩

theorem CodesOk.kraft (h : CodesOk c b) (hc : c.wf = true)
    (ht : TreeOk b.sym b.node b.root.toNat b.nruns.toNat) (hn : 2 ≤ b.n) :
    (b.code.map (fun e => ((1 : ℚ) / 2) ^ e.len.toNat)).sum = 1 := by
  have hroot := ht.kraft_leavesBelow ht.root_lt ht.root_lt (path := [])
  rw [List.length_nil, pow_zero] at hroot
  rw [← ((h.perm_leavesBelow ht hn).map _).sum_eq, List.map_map]
  refine Eq.trans (congrArg List.sum (List.map_congr_left ?_)) hroot
  rintro ⟨j, p⟩ hp
  obtain ⟨path, rfl, hj, hpath⟩ := (mem_leavesBelow ht ht.root_lt ht.root_lt).1 hp
  have hlen := (h.paths hn j p ⟨hj, hpath⟩).2
  exact congrArg _ (codeOf_len_toNat (hlen.trans (lMax_le_of_wf hc)))

theorem CodesOk.len_le (h : CodesOk c b) (hc : c.wf = true)
    (ht : TreeOk b.sym b.node b.root.toNat b.nruns.toNat) {e : Code} (he : e ∈ b.code) :
    e.len.toNat ≤ max 1 (b.n - 1) := by
  rcases Nat.lt_or_ge b.n 2 with hn | hn
  · have hone : b.n = 1 := le_antisymm (Nat.le_of_lt_succ hn) ht.nonempty
    rw [h.single hone, List.mem_singleton] at he
    simp [he]
  · obtain ⟨j, path, ⟨-, hpath⟩, hlen⟩ := h.exists_leafPath hc ht hn he
    have hbound : path.length ≤ b.root.toNat + 1 - b.n := ht.length_le_of_follow hpath
    have hroot : b.root.toNat = 2 * b.n - 2 := ht.rootId
    omega

end

/-- Settles O56: Kraft's sum below the root, and the internal nodes that a path can pass. -/
theorem codeLengthsFillTheTree : Obligations.CodeLengthsFillTheTree := by
  intro s hs hv
  have htree := hs.block.tree (hs.block.codesTree hv)
  have hcodes := hs.block.codes hv
  have hle {e : Code} (he : e ∈ s.blk.code) := hcodes.len_le hs.config htree he
  refine ⟨fun hn => ⟨hcodes.kraft hs.config htree hn, fun e he => ⟨(hcodes.lens e he).1, ?_⟩⟩,
    fun hn => by rw [hcodes.single hn]; rfl, hcodes.maxlen.trans_le (maxLenOf_le fun e he => hle he)⟩
  have hmax := hle he
  omega

end Sys2Proof.Machine
end

section
/-! PROOFS. GEN_CODES on a tree no leaf of which lies too deep (spec/43_code_generator.md R97, R98, R100, R101), and the
bit sequences that the code table stores: how they are stored (R99) and that none begins another (R102). -/

namespace Sys2Proof.Machine

/-! ### GEN_CODES (R101) -/

/-- S after GEN_CODES has assigned these codes. -/
def codedBlock (codes : List Code) (b : Block) : Block :=
  { b with
    code := codes, total := BitVec.ofNat 64 (totalOf codes b.sym), maxlen := BitVec.ofNat 7 (maxLenOf codes)
    codesValid := true, phase := .coded }

theorem genCodes_of_done {c : Config} {b : Block} {codes : List Code}
    (h : assignCodes b.node c.lMax b.root.toNat b.n = .done codes) : genCodes c b = .commit (codedBlock codes b) := by
  rw [genCodes, h]; rfl

theorem Inv.treeOk {s : State} (hs : Inv s) (hp : s.blk.phase = .tree) :
    TreeOk s.blk.sym s.blk.node s.blk.root.toNat s.blk.nruns.toNat :=
  hs.block.tree ((hs.block.treePhase (by simp [hp])).2 (.inl hp))

/-- With no leaf too deep GEN_CODES commits a code table that meets the invariant. -/
theorem Inv.genCodes_commits {s : State} (hs : Inv s) (hp : s.blk.phase = .tree)
    (hdeep : ∀ j path, LeafPath s.blk j path → path.length ≤ s.cfg.lMax) :
    ∃ codes, genCodes s.cfg s.blk = .commit (codedBlock codes s.blk) ∧ CodesOk s.cfg (codedBlock codes s.blk) := by
  rcases assignCodes_spec (lMax := s.cfg.lMax) (hs.treeOk hp) with
    ⟨-, j, path, hj, hpath, hlt⟩ | ⟨codes, hdone, -⟩
  · exact absurd (hdeep j path ⟨hj, hpath⟩) (not_le.2 hlt)
  · have hgen := genCodes_of_done hdone
    refine ⟨codes, hgen, ?_⟩
    rcases genCodes_keeps hs.config hs.block hp with ⟨t, hcommit, ht, -⟩ | hraise
    · rw [hgen] at hcommit
      cases hcommit
      exact ht.codes rfl
    · rw [hgen] at hraise
      cases hraise

theorem exec_genCodes_commit {s : State} {t : Block} (hp : s.blk.phase = .tree) (h : genCodes s.cfg s.blk = .commit t) :
    exec .genCodes s = .next (s.withBlk t) := by
  rw [exec_eq_runCommand (by simp), runCommand_legal (by simp [hp]) (by simp [hp, legal])]
  exact congrArg (conclude s) h

/-- Settles O49: GEN_CODES commits, and the code table, TOTAL and MAXLEN it leaves are those of the invariant. -/
theorem genCodesAssignsPaths : Obligations.GenCodesAssignsPaths := by
  intro s hs hp hdeep
  obtain ⟨codes, hgen, hok⟩ := hs.genCodes_commits hp hdeep
  have htree := hs.treeOk hp
  have hsize : codes.length = s.blk.n := hok.size
  have hmax : (codedBlock codes s.blk).maxlen.toNat = maxLenOf codes := hok.maxlen
  have hne : codes ≠ [] := List.ne_nil_of_length_pos (hsize ▸ htree.nonempty)
  obtain ⟨e, he, hlen⟩ := exists_len_eq_maxLenOf hne
  exact ⟨codes, _, _, exec_genCodes_commit hp hgen, hsize, hok.single,
    fun hn j path hpath => (hok.paths hn j path hpath).1, fun j => htree.leafPath_exists, hok.total,
    fun c hc => (len_le_maxLenOf hc).trans_eq hmax.symm, e, he, BitVec.eq_of_toNat_eq (hlen.trans hmax.symm)⟩

/-! ### The stored bits of a code (R99) -/

theorem testBit_pathBits (path : List Bool) (k : Nat) : (pathBits path).testBit k = path.getD k false := by
  induction path generalizing k with
  | nil => simp [pathBits]
  | cons bit path ih =>
    have hbit : pathBits (bit :: path) = Nat.bit bit (pathBits path) := by rw [pathBits, Nat.bit_val, Nat.add_comm]
    rw [hbit]
    cases k with
    | zero => simp
    | succ k => rw [Nat.testBit_bit_succ, ih]; rfl

theorem codeOf_bits_getLsbD {path : List Bool} (h : path.length ≤ 64) (k : Nat) :
    (codeOf path).bits.getLsbD k = path.getD k false := by
  rw [codeOf, BitVec.getLsbD_ofNat, testBit_pathBits]
  by_cases hk : k < 64
  · simp [hk]
  · rw [List.getD_eq_default _ _ (by omega), Bool.and_false]

theorem codePath_codeOf {path : List Bool} (h : path.length ≤ 64) : codePath (codeOf path) = path := by
  refine List.ext_getElem (by simp [codePath, codeOf_len_toNat h]) fun k _ hk => ?_
  simp [codePath, codeOf_bits_getLsbD h, hk]

/-- Settles O51: the stored code is `codeOf` of the path, whose length fits in the 64 bits. -/
theorem storedCodesAreLsbFirst : Obligations.StoredCodesAreLsbFirst := by
  intro s hs hv
  have hcodes := hs.block.codes hv
  refine ⟨hcodes.single, fun hn j path hpath => ?_⟩
  obtain ⟨hcode, hlen⟩ := hcodes.paths hn j path hpath
  have h64 := hlen.trans (lMax_le_of_wf hs.config)
  exact ⟨_, hcode, codeOf_len_toNat h64, codeOf_bits_getLsbD h64⟩

/-! ### No code begins another (R102) -/

/-- A path that starts with the path to a leaf ends there. -/
theorem TreeOk.eq_of_prefix {sym : List Slot} {arena : List Node} {root total : Nat} (h : TreeOk sym arena root total)
    {p q : List Bool} {i j : Nat} (hi : i < sym.length) (hp : follow arena root p = some i)
    (hq : follow arena root q = some j) (hpq : p <+: q) : i = j := by
  obtain ⟨rest, rfl⟩ := hpq
  rw [follow_append, hp] at hq
  cases rest with
  | nil => exact Option.some.inj hq
  | cons bit rest => cases (follow_leaf (leaf_of_take h.leaves hi) bit rest).symm.trans hq

/-- The stored code of a slot reads back as the path to its leaf. -/
theorem CodesOk.codePath_eq {c : Config} {b : Block} (h : CodesOk c b) (hc : c.wf = true) (hn : 2 ≤ b.n) {j : Nat}
    {path : List Bool} {e : Code} (hpath : LeafPath b j path) (he : b.code[j]? = some e) : codePath e = path := by
  obtain ⟨hcode, hlen⟩ := h.paths hn j path hpath
  rw [he] at hcode
  cases hcode
  exact codePath_codeOf (hlen.trans (lMax_le_of_wf hc))

theorem CodesOk.prefixFree {c : Config} {b : Block} (h : CodesOk c b) (hc : c.wf = true)
    (ht : TreeOk b.sym b.node b.root.toNat b.nruns.toNat) (hn : 2 ≤ b.n) : PrefixFree (b.code.map codePath) := by
  refine List.pairwise_map.2 (List.pairwise_iff_getElem.2 fun i j hi hj hij => ?_)
  obtain ⟨p, hp⟩ := ht.leafPath_exists (h.size ▸ hi)
  obtain ⟨q, hq⟩ := ht.leafPath_exists (h.size ▸ hj)
  rw [h.codePath_eq hc hn hp (List.getElem?_eq_getElem hi), h.codePath_eq hc hn hq (List.getElem?_eq_getElem hj)]
  exact ⟨fun hpq => hij.ne (ht.eq_of_prefix hp.1 hp.2 hq.2 hpq),
    fun hqp => hij.ne' (ht.eq_of_prefix hq.1 hq.2 hp.2 hqp)⟩

/-- Settles O53: a lone code has no other beside it, and the codes of more slots are the paths to distinct leaves. -/
theorem codesArePrefixFree : Obligations.CodesArePrefixFree := by
  intro s hs hv
  have htree := hs.block.tree (hs.block.codesTree hv)
  have hcodes := hs.block.codes hv
  rcases htree.nonempty.eq_or_lt with hone | htwo
  · rw [hcodes.single hone.symm]
    exact List.pairwise_singleton _ _
  · exact hcodes.prefixFree hs.config htree htwo

end Sys2Proof.Machine
end

section
/-! PROOFS. The combinatorics behind optimality (spec/43_code_generator.md R104): Kraft's inequality for words that meet
`PrefixFree`, and how lengths that meet it are merged at the two lightest items, as the tree builder merges nodes
(spec/42_tree_builder.md R91, R92). -/

namespace Sys2Proof.Machine

/-! ### Kraft's inequality for words none of which begins another (R102) -/

theorem PrefixFree.nodup {words : List (List Bool)} (h : PrefixFree words) : words.Nodup :=
  List.Pairwise.imp (by rintro u _ hpre rfl; exact hpre.1 List.prefix_rfl) h

theorem PrefixFree.eq_of_prefix {words : List (List Bool)} (h : PrefixFree words) {u v : List Bool} (hu : u ∈ words)
    (hv : v ∈ words) (hpre : u <+: v) : u = v := by
  have hsymm : Std.Symm fun u v : List Bool => ¬ u <+: v ∧ ¬ v <+: u := ⟨fun _ _ h => h.symm⟩
  by_contra hne
  exact (List.Pairwise.forall h hu hv hne).1 hpre

theorem PrefixFree.nil_notMem {words : List (List Bool)} (h : PrefixFree words) (hn : 2 ≤ words.length) :
    [] ∉ words := by
  intro hnil
  have hall : ∀ u ∈ words, u = [] := fun u hu => (h.eq_of_prefix hnil hu List.nil_prefix).symm
  have hone : words.length ≤ 1 := List.nodup_replicate.1 (List.eq_replicate_of_mem hall ▸ h.nodup)
  omega

/-- A sequence of words is read back from the left: of two words that start the same bits, one begins
the other. -/
theorem PrefixFree.uniquelyDecodable {words : List (List Bool)} (h : PrefixFree words) (hn : 2 ≤ words.length) :
    InformationTheory.UniquelyDecodable {u | u ∈ words} := by
  have hnil {u : List Bool} (hu : u ∈ words) : u ≠ [] := fun e => h.nil_notMem hn (e ▸ hu)
  intro us
  induction us with
  | nil =>
    intro vs _ hvs hflat
    cases vs with
    | nil => rfl
    | cons v vs => exact absurd (List.append_eq_nil_iff.1 hflat.symm).1 (hnil (hvs v List.mem_cons_self))
  | cons u us ih =>
    intro vs hus hvs hflat
    have hu : u ∈ words := hus u List.mem_cons_self
    cases vs with
    | nil => exact absurd (List.append_eq_nil_iff.1 hflat).1 (hnil hu)
    | cons v vs =>
      have hv : v ∈ words := hvs v List.mem_cons_self
      rw [List.flatten_cons, List.flatten_cons] at hflat
      have huv : u = v := by
        have hv' : v <+: u ++ us.flatten := hflat ▸ List.prefix_append v vs.flatten
        rcases List.prefix_or_prefix_of_prefix (List.prefix_append u us.flatten) hv' with hpre | hpre
        · exact h.eq_of_prefix hu hv hpre
        · exact (h.eq_of_prefix hv hu hpre).symm
      subst huv
      rw [ih vs (fun w hw => hus w (List.mem_cons_of_mem u hw)) (fun w hw => hvs w (List.mem_cons_of_mem u hw))
        (List.append_cancel_left hflat)]

theorem PrefixFree.kraft {words : List (List Bool)} (h : PrefixFree words) (hn : 2 ≤ words.length) :
    (words.map fun u => ((1 : ℝ) / 2) ^ u.length).sum ≤ 1 := by
  have hud : InformationTheory.UniquelyDecodable (words.toFinset : Set (List Bool)) := by
    rw [List.coe_toFinset]; exact h.uniquelyDecodable hn
  have hk := InformationTheory.kraft_mcmillan_inequality hud
  rwa [Fintype.card_bool, Nat.cast_ofNat, List.sum_toFinset _ h.nodup] at hk

/-! ### Lengths of items -/

/-- The items of P can have codes of these lengths (Kraft's inequality). -/
def KraftOn (P : Finset Nat) (len : Nat → Nat) : Prop := ∑ z ∈ P, ((1 : ℝ) / 2) ^ len z ≤ 1

/-- The total `Σ len · weight` over the items of P. -/
def costOn (P : Finset Nat) (weight len : Nat → Nat) : Nat := ∑ z ∈ P, len z * weight z

/-- A sum over P, with two of its items taken out. -/
theorem sum_eq_add_add_sum_erase {M : Type} [AddCommMonoid M] {P : Finset Nat} {x y : Nat} (hx : x ∈ P) (hy : y ∈ P)
    (hne : x ≠ y) (f : Nat → M) : ∑ z ∈ P, f z = f x + (f y + ∑ z ∈ (P.erase x).erase y, f z) := by
  rw [Finset.add_sum_erase _ f (Finset.mem_erase.2 ⟨hne.symm, hy⟩), Finset.add_sum_erase _ f hx]

theorem costOn_eq_add_add {P : Finset Nat} {x y : Nat} (hx : x ∈ P) (hy : y ∈ P) (hne : x ≠ y)
    (weight len : Nat → Nat) :
    costOn P weight len = len x * weight x + (len y * weight y + costOn ((P.erase x).erase y) weight len) :=
  sum_eq_add_add_sum_erase hx hy hne _

/-! ### Exchange -/

section
variable {P : Finset Nat} {weight len : Nat → Nat} {x y : Nat}

theorem KraftOn.swap (h : KraftOn P len) (hx : x ∈ P) (hy : y ∈ P) : KraftOn P (len ∘ Equiv.swap x y) := by
  refine le_of_eq_of_le (Equiv.Perm.sum_comp _ P (fun z => ((1 : ℝ) / 2) ^ len z) fun z hz => ?_) h
  rcases (Equiv.swap_apply_ne_self_iff.1 hz).2 with rfl | rfl <;> assumption

/-- Giving the shorter length to the heavier of two items does not raise the total. -/
theorem costOn_swap_le (hx : x ∈ P) (hy : y ∈ P) (hw : weight x ≤ weight y) (hl : len x ≤ len y) :
    costOn P weight (len ∘ Equiv.swap x y) ≤ costOn P weight len := by
  rcases eq_or_ne x y with rfl | hne
  · simp
  have hrest : costOn ((P.erase x).erase y) weight (len ∘ Equiv.swap x y)
      = costOn ((P.erase x).erase y) weight len := by
    refine Finset.sum_congr rfl fun z hz => ?_
    obtain ⟨hzy, hz⟩ := Finset.mem_erase.1 hz
    rw [Function.comp_apply, Equiv.swap_apply_of_ne_of_ne (Finset.ne_of_mem_erase hz) hzy]
  have hpair := mul_add_mul_le_mul_add_mul hl hw
  rw [costOn_eq_add_add hx hy hne, costOn_eq_add_add hx hy hne, hrest]
  simp only [Function.comp_apply, Equiv.swap_apply_left, Equiv.swap_apply_right]
  omega

/-- The lightest of the items S can have the greatest length among them: exchange it with the item that has. -/
theorem KraftOn.exists_longest {S : Finset Nat} (h : KraftOn P len) (hS : S ⊆ P) (hx : x ∈ S)
    (hmin : ∀ z ∈ S, weight x ≤ weight z) :
    ∃ a ∈ S, (∀ z ∈ S, (len ∘ Equiv.swap x a) z ≤ (len ∘ Equiv.swap x a) x)
      ∧ KraftOn P (len ∘ Equiv.swap x a)
      ∧ costOn P weight (len ∘ Equiv.swap x a) ≤ costOn P weight len := by
  obtain ⟨a, ha, hmax⟩ := S.exists_max_image len ⟨x, hx⟩
  refine ⟨a, ha, fun z hz => ?_, h.swap (hS hx) (hS ha), costOn_swap_le (hS hx) (hS ha) (hmin a ha) (hmax x hx)⟩
  rw [Function.comp_apply, Function.comp_apply, Equiv.swap_apply_left]
  refine hmax _ ?_
  rw [Equiv.swap_apply_def]
  split_ifs <;> assumption

/-- Lengths can be exchanged so that the two lightest items have the greatest ones. -/
theorem KraftOn.exists_sorted (h : KraftOn P len) (hx : x ∈ P) (hy : y ∈ P) (hne : x ≠ y)
    (hwx : ∀ z ∈ P, weight x ≤ weight z) (hwy : ∀ z ∈ P, z ≠ x → weight y ≤ weight z) :
    ∃ len', KraftOn P len' ∧ costOn P weight len' ≤ costOn P weight len
      ∧ len' y ≤ len' x ∧ ∀ z ∈ P, z ≠ x → len' z ≤ len' y := by
  obtain ⟨a, -, hlong, hk, hcost⟩ := h.exists_longest subset_rfl hx hwx
  generalize len ∘ Equiv.swap x a = len₁ at *
  obtain ⟨b, hb, hlong', hk', hcost'⟩ := hk.exists_longest (P.erase_subset x) (Finset.mem_erase.2 ⟨hne.symm, hy⟩)
    fun z hz => hwy z (Finset.mem_of_mem_erase hz) (Finset.ne_of_mem_erase hz)
  refine ⟨_, hk', hcost'.trans hcost, ?_, fun z hz hzx => hlong' z (Finset.mem_erase.2 ⟨hzx, hz⟩)⟩
  rw [Function.comp_apply, Function.comp_apply, Equiv.swap_apply_left,
    Equiv.swap_apply_of_ne_of_ne hne (Finset.ne_of_mem_erase hb).symm]
  exact hlong b (Finset.mem_of_mem_erase hb)

/-! ### Merging -/

/-- In units of 2^(-m) the shares of lengths up to m are whole numbers, so a share of 2^(-m) left over beside a strict
inequality can be doubled. -/
theorem half_pow_pred_le {m : Nat} (hm : ∀ z ∈ P, len z ≤ m + 1)
    (h : ∑ z ∈ P, ((1 : ℝ) / 2) ^ len z + (1 / 2) ^ (m + 1) < 1) :
    ∑ z ∈ P, ((1 : ℝ) / 2) ^ len z + (1 / 2) ^ m ≤ 1 := by
  have hunits : ∑ z ∈ P, ((1 : ℝ) / 2) ^ len z
      = ((∑ z ∈ P, 2 ^ (m + 1 - len z) : ℕ) : ℝ) * (1 / 2) ^ (m + 1) := by
    rw [Nat.cast_sum, Finset.sum_mul]
    refine Finset.sum_congr rfl fun z hz => ?_
    obtain ⟨d, hd⟩ := Nat.exists_eq_add_of_le (hm z hz)
    rw [hd, Nat.add_sub_cancel_left, Nat.cast_pow, Nat.cast_ofNat, pow_add, mul_left_comm, ← mul_pow]
    norm_num
  have hunit : ((2 : ℝ) ^ (m + 1)) * (1 / 2) ^ (m + 1) = 1 := by rw [← mul_pow]; norm_num
  have hpos : (0 : ℝ) < (1 / 2) ^ (m + 1) := by positivity
  rw [hunits] at h ⊢
  generalize ∑ z ∈ P, 2 ^ (m + 1 - len z) = units at *
  have hlt : units + 1 < 2 ^ (m + 1) := by
    have : ((units : ℝ) + 1) * (1 / 2) ^ (m + 1) < 2 ^ (m + 1) * (1 / 2) ^ (m + 1) := by rw [hunit]; linarith
    exact_mod_cast lt_of_mul_lt_mul_right this hpos.le
  have hle : (units : ℝ) + 2 ≤ 2 ^ (m + 1) := by exact_mod_cast hlt
  calc (units : ℝ) * (1 / 2) ^ (m + 1) + (1 / 2) ^ m = (units + 2) * (1 / 2) ^ (m + 1) := by ring
    _ ≤ 2 ^ (m + 1) * (1 / 2) ^ (m + 1) := mul_le_mul_of_nonneg_right hle hpos.le
    _ = 1 := hunit

/-- The second greatest length is positive, and there is room for one length less by one in place of the two greatest. -/
theorem KraftOn.merge_longest (h : KraftOn P len) (hx : x ∈ P) (hy : y ∈ P) (hne : x ≠ y)
    (hmax : ∀ z ∈ P, z ≠ x → len z ≤ len y) :
    ∃ m, len y = m + 1 ∧ (1 / 2) ^ m + ∑ z ∈ (P.erase x).erase y, ((1 : ℝ) / 2) ^ len z ≤ 1 := by
  rw [KraftOn, sum_eq_add_add_sum_erase hx hy hne] at h
  have hposx : (0 : ℝ) < (1 / 2) ^ len x := by positivity
  cases hm : len y with
  | zero =>
    have hsum : (0 : ℝ) ≤ ∑ z ∈ (P.erase x).erase y, (1 / 2) ^ len z := Finset.sum_nonneg fun z _ => by positivity
    rw [hm, pow_zero] at h
    linarith
  | succ m =>
    rw [hm] at h hmax
    refine ⟨m, rfl, ?_⟩
    rw [add_comm]
    refine half_pow_pred_le (fun z hz => ?_) (by linarith)
    obtain ⟨hzx, hz⟩ := Finset.mem_erase.1 (Finset.mem_of_mem_erase hz)
    exact hmax z hz hzx

/-- A sum over items does not see a length given to another item. -/
theorem sum_update_of_notMem {M : Type} [AddCommMonoid M] {j : Nat} (hj : j ∉ P) (m : Nat) (f : Nat → Nat → M) :
    ∑ z ∈ P, f z (Function.update len j m z) = ∑ z ∈ P, f z (len z) :=
  Finset.sum_congr rfl fun z hz => by rw [Function.update_of_ne (ne_of_mem_of_not_mem hz hj)]

theorem kraftOn_insert_update {j : Nat} (hj : j ∉ P) (m : Nat) :
    KraftOn (insert j P) (Function.update len j m) ↔ (1 / 2) ^ m + ∑ z ∈ P, ((1 : ℝ) / 2) ^ len z ≤ 1 := by
  rw [KraftOn, Finset.sum_insert hj, Function.update_self, sum_update_of_notMem hj m fun _ l => ((1 : ℝ) / 2) ^ l]

theorem costOn_insert_update {j : Nat} (hj : j ∉ P) (m : Nat) :
    costOn (insert j P) weight (Function.update len j m) = m * weight j + costOn P weight len := by
  rw [costOn, Finset.sum_insert hj, Function.update_self, sum_update_of_notMem hj m fun z l => l * weight z, costOn]

/-- The merge step of Huffman's argument: if lengths meet Kraft's inequality on P, then on P with its two lightest items
merged into j there are lengths that meet it with a total less by at least the weight of j. -/
theorem KraftOn.exists_merged {j : Nat} (h : KraftOn P len) (hx : x ∈ P) (hy : y ∈ P) (hne : x ≠ y)
    (hwx : ∀ z ∈ P, weight x ≤ weight z) (hwy : ∀ z ∈ P, z ≠ x → weight y ≤ weight z) (hj : j ∉ P)
    (hwj : weight j = weight x + weight y) :
    ∃ len', KraftOn (insert j ((P.erase x).erase y)) len'
      ∧ costOn (insert j ((P.erase x).erase y)) weight len' + weight j ≤ costOn P weight len := by
  obtain ⟨len, hk, hcost, hyx, hmax⟩ := h.exists_sorted hx hy hne hwx hwy
  obtain ⟨m, hm, hk⟩ := hk.merge_longest hx hy hne hmax
  have hj : j ∉ (P.erase x).erase y := fun hz => hj (Finset.mem_of_mem_erase (Finset.mem_of_mem_erase hz))
  refine ⟨Function.update len j m, (kraftOn_insert_update hj m).2 hk, le_trans ?_ hcost⟩
  rw [hm] at hyx
  have hlong : (m + 1) * weight x ≤ len x * weight x := Nat.mul_le_mul_right _ hyx
  calc costOn _ weight (Function.update len j m) + weight j
      = (m + 1) * weight x + ((m + 1) * weight y + costOn ((P.erase x).erase y) weight len) := by
        rw [costOn_insert_update hj, hwj]; ring
    _ ≤ len x * weight x + ((m + 1) * weight y + costOn ((P.erase x).erase y) weight len) :=
        Nat.add_le_add_right hlong _
    _ = costOn P weight len := by rw [← hm, ← costOn_eq_add_add hx hy hne]

end

end Sys2Proof.Machine
end

section
/-! PROOFS. TOTAL is the least total of any code that meets `PrefixFree` (spec/43_code_generator.md R104): at every
stage of the tree builder the depths of the pool's nodes are the cheapest lengths that meet Kraft's inequality. -/

namespace Sys2Proof.Machine

section
variable {sym : List Slot} {arena : List Node} {root total : Nat}

/-! ### The depth of a node (R97) -/

/-- `depth` gives every node the length of its path from the root. -/
def IsDepth (arena : List Node) (root : Nat) (depth : Nat → Nat) : Prop :=
  ∀ k path, follow arena root path = some k → depth k = path.length

theorem TreeOk.exists_isDepth (h : TreeOk sym arena root total) : ∃ depth, IsDepth arena root depth := by
  have hone (k : Nat) : ∃ m, ∀ path, follow arena root path = some k → m = path.length := by
    by_cases hk : ∃ path, follow arena root path = some k
    · obtain ⟨p, hp⟩ := hk
      exact ⟨p.length, fun q hq => congrArg _ (h.follow_unique hp hq)⟩
    · exact ⟨0, fun path hpath => absurd ⟨path, hpath⟩ hk⟩
  choose depth hdepth using hone
  exact ⟨depth, hdepth⟩

theorem IsDepth.root_eq_zero {depth : Nat → Nat} (hd : IsDepth arena root depth) : depth root = 0 :=
  hd root [] (follow_nil _ _)

theorem TreeOk.depth_child (h : TreeOk sym arena root total) {depth : Nat → Nat} (hd : IsDepth arena root depth)
    {j : Nat} {w l r : Word} (hnode : arena[j]? = some (.internal w l r)) (bit : Bool) :
    depth (if bit then r else l).toNat = depth j + 1 := by
  obtain ⟨path, hpath⟩ := h.follow_exists (h.internal hnode).1.2
  rw [hd _ _ (follow_append_child hpath hnode bit), hd _ _ hpath, List.length_append, List.length_singleton]

/-! ### The pool at each stage of the builder (spec/42_tree_builder.md R92) -/

/-- The ids of the pool when node j is made, as a set. -/
def poolSet (arena : List Node) (j : Nat) : Finset Nat := (poolAt arena j).toFinset

theorem mem_poolSet {j z : Nat} : z ∈ poolSet arena j ↔ z ∈ poolAt arena j := List.mem_toFinset

theorem notMem_poolSet_self (j : Nat) : j ∉ poolSet arena j := fun h => (mem_poolAt.1 (mem_poolSet.1 h)).1.ne rfl

theorem TreeOk.poolSet_leaves (h : TreeOk sym arena root total) : poolSet arena sym.length = Finset.range sym.length := by
  ext z
  rw [mem_poolSet, mem_poolAt, h.leaves, childIds_leavesOf, Finset.mem_range]
  simp

theorem TreeOk.poolSet_last (h : TreeOk sym arena root total) : poolSet arena arena.length = {root} := by
  have hn := h.nonempty
  have hsize := h.size
  have hroot := h.rootId
  ext z
  rw [mem_poolSet, mem_poolAt, List.take_length, h.owned.mem_iff, List.mem_range, Finset.mem_singleton]
  omega

/-- Making node j takes its children out of the pool and puts j in. -/
theorem TreeOk.poolSet_merge (h : TreeOk sym arena root total) {j : Nat} {w l r : Word}
    (hnode : arena[j]? = some (.internal w l r)) :
    poolSet arena (j + 1) = insert j (((poolSet arena j).erase l.toNat).erase r.toNat) := by
  obtain ⟨-, ⟨hl, hr⟩, -, -⟩ := h.internal hnode
  have hown : j ∉ childIds (arena.take j) := by
    intro hc
    obtain ⟨m, w', l', r', bit, hmj, hm, he⟩ := exists_parent_of_mem_childIds_take hc
    have hchild := (h.child hm bit).1
    omega
  ext z
  rw [Finset.mem_insert, Finset.mem_erase, Finset.mem_erase, mem_poolSet, mem_poolSet]
  constructor
  · intro hz
    exact (poolAt_succ hnode hz).imp_right fun ⟨hz, hzl, hzr⟩ => ⟨hzr, hzl, hz⟩
  · intro hz
    rw [mem_poolAt, childIds_take_succ hnode]
    simp only [List.mem_append, List.mem_cons, List.not_mem_nil, or_false, not_or]
    rcases hz with rfl | ⟨hzr, hzl, hz⟩
    · exact ⟨Nat.lt_succ_self z, hown, hl.ne', hr.ne'⟩
    · obtain ⟨hz, hfree⟩ := mem_poolAt.1 hz
      exact ⟨Nat.lt_succ_of_lt hz, hfree, hzl, hzr⟩

/-! ### The depths are the cheapest lengths -/

/-- The weight of a node as a number. -/
def nodeWeight (arena : List Node) (j : Nat) : Nat := (weightAt arena j).toNat

/-- A merge lowers the total of the depths by the weight of the new node. -/
theorem TreeOk.costOn_depth_merge (h : TreeOk sym arena root total) {depth : Nat → Nat} (hd : IsDepth arena root depth)
    {j : Nat} {w l r : Word} (hnode : arena[j]? = some (.internal w l r)) :
    costOn (poolSet arena j) (nodeWeight arena) depth
      = costOn (poolSet arena (j + 1)) (nodeWeight arena) depth + nodeWeight arena j := by
  obtain ⟨-, -, hsel, hw⟩ := h.internal hnode
  have hj : j ∉ ((poolSet arena j).erase l.toNat).erase r.toNat := fun hj =>
    notMem_poolSet_self j (Finset.mem_of_mem_erase (Finset.mem_of_mem_erase hj))
  have hl : depth l.toNat = depth j + 1 := h.depth_child hd hnode false
  have hr : depth r.toNat = depth j + 1 := h.depth_child hd hnode true
  have hsplit : nodeWeight arena j = nodeWeight arena l.toNat + nodeWeight arena r.toNat := hw
  rw [costOn_eq_add_add (mem_poolSet.2 hsel.memX) (mem_poolSet.2 hsel.memY) hsel.ne, h.poolSet_merge hnode, hl, hr]
  rw [costOn, costOn, Finset.sum_insert hj, hsplit]
  ring

theorem Selected.first_le {pool : List Nat} {x y z : Nat} (h : Selected arena pool x y) (hz : z ∈ pool) :
    nodeWeight arena x ≤ nodeWeight arena z := by
  rcases eq_or_ne z x with rfl | hne
  · exact le_rfl
  · exact weight_le_of_before (h.first z hz hne)

theorem Selected.second_le {pool : List Nat} {x y z : Nat} (h : Selected arena pool x y) (hz : z ∈ pool)
    (hx : z ≠ x) : nodeWeight arena y ≤ nodeWeight arena z := by
  rcases eq_or_ne z y with rfl | hne
  · exact le_rfl
  · exact weight_le_of_before (h.second z hz hx hne)

/-- Before every merge the depths are cheapest, by induction from the finished tree down: any lengths on the pool can be
merged at its two lightest nodes, and the merge costs them no less than it costs the depths. -/
theorem TreeOk.costOn_depth_le (h : TreeOk sym arena root total) {depth : Nat → Nat} (hd : IsDepth arena root depth)
    {j : Nat} (hn : sym.length ≤ j) (hj : j ≤ arena.length) {len : Nat → Nat}
    (hk : KraftOn (poolSet arena j) len) :
    costOn (poolSet arena j) (nodeWeight arena) depth ≤ costOn (poolSet arena j) (nodeWeight arena) len := by
  induction hj using Nat.decreasingInduction generalizing len with
  | self =>
    rw [h.poolSet_last, costOn, Finset.sum_singleton, hd.root_eq_zero, Nat.zero_mul]
    exact Nat.zero_le _
  | of_succ j hj ih =>
    obtain ⟨w, l, r, hnode, -, -⟩ := h.merges j hn hj
    obtain ⟨-, -, hsel, hw⟩ := h.internal hnode
    obtain ⟨len', hk', hcost⟩ := hk.exists_merged (weight := nodeWeight arena) (mem_poolSet.2 hsel.memX)
      (mem_poolSet.2 hsel.memY) hsel.ne (fun z hz => hsel.first_le (mem_poolSet.1 hz))
      (fun z hz hzl => hsel.second_le (mem_poolSet.1 hz) hzl) (notMem_poolSet_self j) hw
    rw [← h.poolSet_merge hnode] at hk' hcost
    rw [h.costOn_depth_merge hd hnode]
    exact (Nat.add_le_add_right (ih (by omega) hk') _).trans hcost

/-! ### Totals over lists and over the leaves (R100) -/

theorem sum_eq_sum_range {M : Type} [AddCommMonoid M] {xs : List M} {n : Nat} {g : Nat → M} (hn : xs.length = n)
    (hg : ∀ (i : Nat) (hi : i < xs.length), xs[i] = g i) : xs.sum = ∑ i ∈ Finset.range n, g i := by
  subst hn
  rw [Finset.sum_range, ← Fin.sum_univ_getElem]
  exact Finset.sum_congr rfl fun i _ => hg i i.isLt

/-- `Σ length · count` of a list beside the table is a total over the leaves. -/
theorem TreeOk.sum_zipWith_eq_costOn (h : TreeOk sym arena root total) {α : Type} (f : α → Nat) {l : List α}
    (hl : l.length = sym.length) {len : Nat → Nat} (hlen : ∀ (i : Nat) (hi : i < l.length), f l[i] = len i) :
    (List.zipWith (fun e u => f e * u.count.toNat) l sym).sum
      = costOn (Finset.range sym.length) (nodeWeight arena) len := by
  refine sum_eq_sum_range (by rw [List.length_zipWith, hl, Nat.min_self]) fun i hi => ?_
  have his := List.lt_length_right_of_zipWith hi
  rw [List.getElem_zipWith, hlen, nodeWeight, h.weightAt_leaf (List.getElem?_eq_getElem his)]

/-- The length of the i-th word, for every i. -/
def wordLength (words : List (List Bool)) (i : Nat) : Nat := (words.getD i []).length

theorem wordLength_of_lt {words : List (List Bool)} {i : Nat} (hi : i < words.length) :
    words[i].length = wordLength words i := by
  rw [wordLength, List.getD_eq_getElem _ _ hi]

/-- The lengths of n ≥ 2 words that meet `PrefixFree`, as lengths of the leaves, meet Kraft's inequality. -/
theorem PrefixFree.kraftOn_range {words : List (List Bool)} (h : PrefixFree words) (hn : 2 ≤ words.length) :
    KraftOn (Finset.range words.length) (wordLength words) := by
  refine le_of_eq_of_le (sum_eq_sum_range (List.length_map _) fun i hi => ?_).symm (h.kraft hn)
  rw [List.length_map] at hi
  rw [List.getElem_map, wordLength_of_lt hi]

/-- The depths of the leaves cost no more than any words that meet `PrefixFree`. -/
theorem TreeOk.costOn_depth_le_words (h : TreeOk sym arena root total) {depth : Nat → Nat}
    (hd : IsDepth arena root depth) {words : List (List Bool)} (hlen : words.length = sym.length) (hn : 2 ≤ sym.length)
    (hwords : PrefixFree words) :
    costOn (Finset.range sym.length) (nodeWeight arena) depth
      ≤ (List.zipWith (fun w u => w.length * u.count.toNat) words sym).sum := by
  have hk := hwords.kraftOn_range (hlen ▸ hn)
  rw [hlen, ← h.poolSet_leaves] at hk
  rw [h.sum_zipWith_eq_costOn List.length hlen fun i hi => wordLength_of_lt hi, ← h.poolSet_leaves]
  exact h.costOn_depth_le hd le_rfl (by have := h.size; omega) hk

end

/-- TOTAL is the total of the depths of the leaves. -/
theorem CodesOk.total_eq_costOn {c : Config} {b : Block} (h : CodesOk c b) (hc : c.wf = true)
    (ht : TreeOk b.sym b.node b.root.toNat b.nruns.toNat) (hn : 2 ≤ b.n) {depth : Nat → Nat}
    (hd : IsDepth b.node b.root.toNat depth) :
    b.total.toNat = costOn (Finset.range b.n) (nodeWeight b.node) depth := by
  rw [h.total, totalOf_eq_zipWith_sum]
  refine ht.sum_zipWith_eq_costOn (fun e : Code => e.len.toNat) h.size fun i hi => ?_
  obtain ⟨path, hpath⟩ := ht.leafPath_exists (h.size ▸ hi)
  rw [h.len_eq hc hn hpath (List.getElem?_eq_getElem hi), hd i path hpath.2]

theorem CodesOk.total_of_single {c : Config} {b : Block} (h : CodesOk c b) (ht : TableOk c b) (hn : b.n = 1) :
    b.total.toNat = b.nruns.toNat := by
  obtain ⟨slot, hslot⟩ := List.length_eq_one_iff.1 hn
  rw [h.total, h.single hn, ht.sum, hslot]
  simp [totalOf, countSum]

/-- Settles O55: for n ≥ 2 TOTAL is the total of the depths, which no words that meet `PrefixFree` undercut; a lone
leaf's code has length 1. -/
theorem totalIsMinimal : Obligations.TotalIsMinimal := by
  intro s hs hv
  have htree := hs.block.tree (hs.block.codesTree hv)
  have hcodes := hs.block.codes hv
  refine ⟨fun hn words hlen hwords => ?_, hcodes.total_of_single hs.block.table⟩
  obtain ⟨depth, hd⟩ := htree.exists_isDepth
  rw [hcodes.total_eq_costOn hs.config htree hn hd]
  exact htree.costOn_depth_le_words hd hlen hn hwords

end Sys2Proof.Machine
end

section
/-! PROOFS. The control commands NOP and CLEAR and their completions (spec/44_control.md R106, R107). -/

namespace Sys2Proof.Machine

/-- An accepted command's word is its encoding (spec/30_encoding.md R62). -/
theorem execute_encoded {s : State} {i : Instr} (h : s.blk.latCmd = encode i) : execute s = exec i s :=
  execute_decoded (by rw [h, decode_encode])

/-! ### NOP (R106) -/

/-- NOP commits S as it is where it is legal, and is inert in ERROR; no other phase is left for SEQUENCE. -/
theorem exec_nop (s : State) : exec .nop s = .next s := by
  by_cases hp : s.blk.phase = .error
  · exact exec_of_error hp (by decide)
  · have hlegal : legal .nop s.blk.phase = true := by simp [legal, hp]
    rw [exec_eq_runCommand (by decide), runCommand_legal hp hlegal]
    rfl

theorem execute_nop {s : State} (h : s.blk.latCmd = 0x00000000) : execute s = .next s := by
  rw [execute_encoded (i := .nop) h, exec_nop]

/-- Settles O34: NOP leaves S, so its completion is the end of the command cycle alone. -/
theorem nopChangesNothing : Obligations.NopChangesNothing := by
  refine ⟨exec_nop, fun s h => ?_⟩
  obtain ⟨hoverrun, hclose, -⟩ := completionClosesTheHandshake s s (execute_nop h)
  exact ⟨hclose, hoverrun⟩

/-! ### CLEAR (R107) -/

theorem execute_clear {s : State} (h : s.blk.latCmd = 0x00000001) :
    execute s = .next (s.withBlk (clearPipeline s.blk)) := by
  rw [execute_encoded (i := .clear) h, exec_clear]

/-- With an empty table and no valid tree every word of the SYM and NODE windows reads 0 (R38, R40). -/
theorem readWord_window_of_empty (c : Config) {b : Block} {off : Nat} (hn : b.n = 0) (hv : b.treeValid = false)
    (hlo : 0x10000 ≤ off) (hhi : off < 0x30000) : readWord c b off = 0 := by
  rw [readWord, if_neg (by omega)]
  by_cases hsym : off < 0x20000
  · rw [if_pos hsym, symWord_unoccupied _ (by omega)]
  · rw [if_neg hsym, if_pos hhi, nodeWord_invalid _ (.inl hv)]

/-- Settles O35: CLEAR is `clearPipeline` in every phase, which empties the table, leaves ERROR and keeps the overrun
record that the end of its completion reads. -/
theorem clearRestoresStartState : Obligations.ClearRestoresStartState := by
  intro s
  refine ⟨[], [], s.withBlk (clearPipeline s.blk), exec_clear s, rfl,
    fun off hlo hhi => readWord_window_of_empty _ rfl rfl hlo hhi, fun h => ?_⟩
  obtain ⟨hoverrun, hclose, -⟩ := completionClosesTheHandshake _ _ (execute_clear h)
  exact ⟨fun ho => hclose (.inl ho), fun ho => hoverrun ho (by simp)⟩

end Sys2Proof.Machine
end

section
/-! PROOFS. What an error leaves and how the block gets out of it (spec/60_exceptions.md R120 to R124), and the error of
each command: SEQUENCE (R111), the empty inputs (R112, R113), the overflows of counting (R114 to R116) and of the codes
(R117). -/

namespace Sys2Proof.Machine

/-! ### Entering ERROR (R120) -/

/-- A command other than CLEAR, in a phase where it is legal, ends in the error that its effect raises. -/
theorem exec_of_raise {i : Instr} {s : State} {p : Phase} {r : Raise} (hi : i ≠ .clear) (hp : s.blk.phase = p)
    (hne : p ≠ .error) (hl : legal i p = true) (hb : bodyOf s i s.blk = .raise r) :
    exec i s = .next (failed r.code r.op r.pos s) := by
  subst hp
  rw [exec_eq_runCommand hi, runCommand_legal hne hl, hb]
  rfl

/-! ### Out of phase (R111) -/

theorem exec_of_not_legal {i : Instr} {s : State} (hi : i ≠ .clear) (hp : s.blk.phase ≠ .error)
    (hl : legal i s.blk.phase = false) : exec i s = .next (failed .sequence (opcode i) 0 s) := by
  rw [exec_eq_runCommand hi, runCommand_sequence hp hl]
  rfl

/-- Settles O24: each of the five commands is legal in one phase alone. -/
theorem outOfPhaseCommandsRaiseSequence : Obligations.OutOfPhaseCommandsRaiseSequence := by
  intro s nb hp
  refine ⟨fun h => ⟨?_, ?_, ?_⟩, fun h => ?_, fun h => ?_⟩ <;>
    exact exec_of_not_legal (by simp) hp (decide_eq_false h)

/-! ### Empty inputs (R112, R113) -/

theorem buildTree_of_empty {b : Block} (h : b.n = 0) : buildTree b = .raise ⟨.invalidInput, 0x05, 0⟩ := if_pos h

theorem bodyOf_feedRun_zero {s : State} {b : Block} (h : b.latArg = 0) :
    bodyOf s .feedRun b = .raise ⟨.badRun, 0x03, 0⟩ := if_pos h

/-- Settles O46: each command is in its phase, and its effect raises before it counts or builds anything. -/
theorem emptyInputsAreRejected : Obligations.EmptyInputsAreRejected := by
  intro s
  refine ⟨fun hp hn => ?_, fun hp harg => ?_⟩
  · exact exec_of_raise (i := .buildTree) (by simp) hp (by simp) rfl (buildTree_of_empty hn)
  · exact exec_of_raise (by simp) hp (by simp) rfl (bodyOf_feedRun_zero harg)

/-! ### The overflows of counting (R115, R116) -/

/-- A new value in a full table is TABLE_FULL while the run count has room (R116). -/
theorem emit_full {c : Config} {v : Word} {op : Byte} {pos : Nat} {b : Block} (hn : b.nruns ≠ maxWord)
    (hv : v ∉ b.sym.map Slot.value) (hfull : c.nSym ≤ b.n) :
    emit c v op pos b = .error ⟨.tableFull, op, BitVec.ofNat 5 pos⟩ :=
  emit_tableFull hn (Bool.eq_false_iff.2 (mt holdsValue_iff.1 hv)) hfull

theorem bodyOf_feedRun_of_emit_error {s : State} {b : Block} {r : Raise} (harg : b.latArg ≠ 0)
    (h : emit s.cfg b.latArg 0x03 0 b = .error r) : bodyOf s .feedRun b = .raise r := by
  simp only [bodyOf, if_neg harg, ofExcept_eq_raise, h]

theorem flushInput_of_emit_error {c : Config} {b : Block} {r : Raise} (hlen : b.rleLen ≠ 0)
    (h : emit c b.rleLen 0x04 0 b = .error r) : flushInput c b = .error r := by
  rw [flushInput, if_neg hlen, h]

/-- Settles O40: both commands raise the error of counting their run, which looks at NRUNS first. -/
theorem countingRaisesOverflowThenTableFull : Obligations.CountingRaisesOverflowThenTableFull := by
  intro s hp
  refine ⟨fun harg => ?_, fun hlen => ?_⟩
  · have hexec {r : Raise} (h : emit s.cfg s.blk.latArg 0x03 0 s.blk = .error r) :
        exec .feedRun s = .next (failed r.code r.op r.pos s) :=
      exec_of_raise (by simp) hp (by simp) rfl (bodyOf_feedRun_of_emit_error harg h)
    exact ⟨fun hn => hexec (emit_countOverflow hn), fun hn hv hfull => hexec (emit_full hn hv hfull)⟩
  · have hexec {r : Raise} (h : emit s.cfg s.blk.rleLen 0x04 0 s.blk = .error r) :
        exec .flush s = .next (failed r.code r.op r.pos s) :=
      exec_of_raise (by simp) hp (by simp) rfl (ofExcept_eq_raise.2 (flushInput_of_emit_error hlen h))
    exact ⟨fun hn => hexec (emit_countOverflow hn), fun hn hv hfull => hexec (emit_full hn hv hfull)⟩

/-! ### The first bad bit of FEED_BYTES (R114) -/

theorem rleStep_runOverflow {c : Config} {bit : Bool} {op : Byte} {pos : Nat} {b : Block} (hbit : bit = b.rleBit)
    (hlen : b.rleLen = maxWord) : rleStep c bit op pos b = .error ⟨.runOverflow, op, BitVec.ofNat 5 pos⟩ := by
  rw [rleStep, if_pos hbit, if_pos hlen]

/-- A bit that closes a run raises the error of counting that run. -/
theorem rleStep_of_emit_error {c : Config} {bit : Bool} {op : Byte} {pos : Nat} {b : Block} {r : Raise}
    (hbit : bit ≠ b.rleBit) (hlen : b.rleLen ≠ 0) (h : emit c b.rleLen op pos b = .error r) :
    rleStep c bit op pos b = .error r := by
  rw [rleStep, if_neg hbit, if_neg hlen, h]

/-- The loop of R84 ends at the first bit that raises, whatever bits follow. -/
theorem feedBits_of_rleStep_error {c : Config} {op : Byte} {pre : List Bool} {bit : Bool} {pos : Nat} {b t : Block}
    {r : Raise} (hpre : feedBits c op pre pos b = .ok t) (h : rleStep c bit op (pos + pre.length) t = .error r)
    (post : List Bool) : feedBits c op (pre ++ bit :: post) pos b = .error r := by
  simp only [feedBits_append, hpre, feedBits, h]

/-- Settles O37: the loop stops at the bad bit with the error of that bit's step, and the working copy is dropped. -/
theorem feedBytesRaisesAtFirstBadBit : Obligations.FeedBytesRaisesAtFirstBadBit := by
  intro s nb pre post bit t hp hbits hpre
  have hexec {r : Raise} (h : rleStep s.cfg bit 0x02 pre.length t = .error r) :
      exec (.feedBytes nb) s = .next (failed r.code r.op r.pos s) := by
    refine exec_of_raise (by simp) hp (by simp) rfl (ofExcept_eq_raise.2 ?_)
    rw [hbits]
    exact feedBits_of_rleStep_error hpre (by rwa [Nat.zero_add]) post
  exact ⟨fun hbit hlen => hexec (rleStep_runOverflow hbit hlen),
    fun hbit hlen hn => hexec (rleStep_of_emit_error hbit hlen (emit_countOverflow hn)),
    fun hbit hlen hn hv hfull => hexec (rleStep_of_emit_error hbit hlen (emit_full hn hv hfull))⟩

/-! ### A leaf deeper than L_MAX (R117) -/

/-- In a tree of n leaves no leaf lies deeper than n - 1. -/
theorem TreeOk.leafPath_length_le {b : Block} (h : TreeOk b.sym b.node b.root.toNat b.nruns.toNat) {j : Nat}
    {path : List Bool} (hpath : LeafPath b j path) : path.length ≤ b.n - 1 := by
  have hlen : path.length ≤ b.root.toNat + 1 - b.n := h.length_le_of_follow hpath.2
  have hroot : b.root.toNat = 2 * b.n - 2 := h.rootId
  have hn : 1 ≤ b.n := h.nonempty
  omega

/-- A leaf too deep is not the lone leaf, so the walk of a longer tree meets it. -/
theorem genCodes_of_deep {c : Config} {b : Block} {j : Nat} {path : List Bool}
    (ht : TreeOk b.sym b.node b.root.toNat b.nruns.toNat) (hpath : LeafPath b j path) (hdeep : c.lMax < path.length) :
    genCodes c b = .raise ⟨.codeOverflow, 0x06, 0⟩ := by
  rcases assignCodes_spec (lMax := c.lMax) ht with ⟨hover, -⟩ | ⟨codes, -, -, -, hpaths⟩
  · rw [genCodes, hover]
  · have hn : 2 ≤ b.n := by
      have hlen := ht.leafPath_length_le hpath
      omega
    exact absurd (hpaths hn j path hpath.1 hpath.2).2 (not_le.2 hdeep)

/-- Settles O50: the walk stops at a leaf too deep, and L_MAX ≥ n - 1 leaves no such leaf. -/
theorem genCodesRaisesCodeOverflow : Obligations.GenCodesRaisesCodeOverflow := by
  intro s hs hp
  have htree := hs.treeOk hp
  refine ⟨fun ⟨j, path, hpath, hdeep⟩ => ?_, fun hn => ?_⟩
  · exact exec_of_raise (i := .genCodes) (by simp) hp (by simp) rfl (genCodes_of_deep htree hpath hdeep)
  · obtain ⟨codes, hgen, -⟩ :=
      hs.genCodes_commits hp fun j path hpath => (htree.leafPath_length_le hpath).trans hn
    exact ⟨_, exec_genCodes_commit hp hgen, rfl⟩

/-! ### Which error a command raises, and what it leaves (R121) -/

theorem buildTree_raises {b : Block} {r : Raise} (h : buildTree b = .raise r) : r.code = .invalidInput := by
  by_cases hn : b.n = 0
  · rw [buildTree_of_empty hn] at h; cases h; rfl
  · rw [buildTree_of_ne hn] at h; cases h

theorem genCodes_raises {c : Config} {b : Block} {r : Raise} (h : genCodes c b = .raise r) :
    r.code = .codeOverflow := by
  unfold genCodes at h
  split at h
  · cases h
  · cases h; rfl
  · cases h

/-- No effect raises CMD_OVERRUN, which is the error of the completion (R118). -/
theorem bodyOf_raise_ne_cmdOverrun {s : State} {i : Instr} {b : Block} {r : Raise} (h : bodyOf s i b = .raise r) :
    r.code ≠ .cmdOverrun := by
  cases i with
  | nop | clear => cases h
  | feedBytes nb => rcases feedBits_raises (ofExcept_eq_raise.1 h) with e | e | e <;> simp [e]
  | feedRun =>
    by_cases harg : b.latArg = 0
    · rw [bodyOf_feedRun_zero harg] at h; cases h; simp
    · simp only [bodyOf, if_neg harg] at h
      rcases emit_raises (ofExcept_eq_raise.1 h) with e | e <;> simp [e]
  | flush => rcases flushInput_raises (ofExcept_eq_raise.1 h) with e | e <;> simp [e]
  | buildTree => simp [buildTree_raises h]
  | genCodes => simp [genCodes_raises h]

/-- Execution that enters ERROR has raised, with an error of its own. -/
theorem execute_raises {s t : State} (h : execute s = .next t) (hs : s.blk.phase ≠ .error)
    (ht : t.blk.phase = .error) :
    ∃ r : Raise, r.code ≠ .none ∧ r.code ≠ .cmdOverrun ∧ t = failed r.code r.op r.pos s := by
  rcases execute_next h with ⟨i, -, hx⟩ | ⟨e, -, rfl⟩
  · have hi : i ≠ .clear := by
      rintro rfl
      simp [exec_clear_phase hx] at ht
    rw [exec_eq_runCommand hi] at hx
    rcases runCommand_next hx with ⟨he, -⟩ | ⟨-, -, rfl⟩ | ⟨-, -, ⟨b, hb, rfl⟩ | ⟨r, hr, rfl⟩⟩
    · contradiction
    · exact ⟨_, by simp, by simp, rfl⟩
    · exact absurd ((bodyOf_commit_flags hi hb).1.symm.trans ht) (phaseAfter_ne_error hs)
    · exact ⟨r, bodyOf_raise_code hr, bodyOf_raise_ne_cmdOverrun hr, rfl⟩
  · rw [illegalCommand, if_neg hs]
    exact ⟨_, by simp, by simp, rfl⟩

/-- Settles O27: a raise is `errorEntry` over the old S, and CMD_OVERRUN is entered by `finish` over the new one. -/
theorem failedCommandsCommitNothing : Obligations.FailedCommandsCommitNothing := by
  intro s t h hs
  obtain ⟨hoverrun, hclose, ho, hop⟩ := completionClosesTheHandshake s t h
  refine ⟨fun ht => ?_, fun ht hdropped => ?_⟩
  · obtain ⟨r, hnone, hcmd, hfail⟩ := execute_raises h hs ht
    exact ⟨r.code, r.op, r.pos, hnone, hcmd, hfail, hclose (.inr ht)⟩
  · rw [← hop]
    exact hoverrun (ho.trans hdropped) ht

/-! ### Leaving ERROR (R124) -/

/-- Settles O28: of the ways in which a step changes S, reset and a CLEAR with no dropped word alone leave ERROR. -/
theorem errorLeftOnlyByClearOrReset : Obligations.ErrorLeftOnlyByClearOrReset := by
  intro s t h hs ht
  rcases step_agent_cases h with hb | ⟨-, off, v, hb⟩ | ⟨ha, hbusy, u, hu, hb⟩ | ⟨ha, hb⟩ <;> rw [hb] at ht ⊢
  · contradiction
  · exact absurd ((writeWord_flags off v s.blk).1.trans hs) ht
  · rcases execute_cases hu with ⟨hd, rfl⟩ | ⟨-, rfl⟩ | ⟨hp, -⟩ | ⟨hp, -⟩
    · have ho : s.blk.overrun = false := by simpa [Block.err] using ht
      exact ⟨.inr ⟨ha, hbusy, hd⟩, by simp [ho]⟩
    · exact absurd (by simp [hs]) ht
    · contradiction
    · contradiction
  · exact ⟨.inl ha, rfl, rfl, rfl, rfl, rfl, rfl, rfl, rfl, rfl, rfl⟩

end Sys2Proof.Machine
end

section
/-! PROOFS. The interrupt line: what lowers it and what raises it (spec/60_exceptions.md R125, R126). -/

namespace Sys2Proof.Machine

theorem irq_iff {b : Block} : irq b = true ↔ b.ie = true ∧ b.done = true := by simp [irq]

theorem irq_status_write (v : Word) (b : Block) : irq (writeWord 0x000C v b) = (irq b && !v.getLsbD 1) := by
  rw [writeWord_status]
  cases hv : v.getLsbD 1 <;> simp [irq]

theorem irq_ctrl_write (v : Word) (b : Block) : irq (writeWord 0x0008 v b) = (v.getLsbD 0 && b.done) := by rfl

/-- An accepted word lowers the line, a dropped one leaves it (spec/40_command_cycle.md R70, R71). -/
theorem irq_cmd_write (v : Word) (b : Block) : irq (writeWord 0x0010 v b) = (irq b && b.busy) := by
  cases hbusy : b.busy <;> simp [irq, writeWord, hbusy]

theorem irq_arg_write (v : Word) (b : Block) : irq (writeWord 0x0014 v b) = irq b := by rfl

/-- The three writes that lower the line (R126). -/
theorem writeWord_lowers_irq {off : Nat} {v : Word} {b : Block} (hhigh : irq b = true)
    (hlow : irq (writeWord off v b) = false) :
    off = 0x000C ∧ v.getLsbD 1 = true ∨ off = 0x0008 ∧ v.getLsbD 0 = false ∨ off = 0x0010 ∧ b.busy = false := by
  by_cases hstatus : off = 0x000C
  · subst hstatus
    rw [irq_status_write, hhigh] at hlow
    exact .inl ⟨rfl, by simpa using hlow⟩
  by_cases hctrl : off = 0x0008
  · subst hctrl
    rw [irq_ctrl_write, (irq_iff.1 hhigh).2] at hlow
    exact .inr (.inl ⟨rfl, by simpa using hlow⟩)
  by_cases hcmd : off = 0x0010
  · subst hcmd
    rw [irq_cmd_write, hhigh] at hlow
    exact .inr (.inr ⟨rfl, by simpa using hlow⟩)
  have hsame : irq (writeWord off v b) = irq b := by
    by_cases harg : off = 0x0014
    · subst harg; exact irq_arg_write v b
    · rw [writeWord_other hctrl hstatus hcmd harg]
  rw [hsame, hhigh] at hlow
  cases hlow

/-- A completion leaves IE: writing back the value it has commutes with it. -/
theorem complete_ie {s t : State} (h : complete s = .next t) : t.blk.ie = s.blk.ie := by
  have hback : complete s = .next (t.withBlk { t.blk with arg := s.blk.arg, ie := s.blk.ie }) :=
    operandLatchedAtAcceptance s t s.blk.arg s.blk.ie h
  rw [h] at hback
  exact congrArg (fun u => u.blk.ie) (Host.Outcome.next.inj hback)

theorem complete_done {s t : State} (h : complete s = .next t) : t.blk.done = true := by
  obtain ⟨u, -, rfl⟩ := complete_next h
  rfl

/-- Settles O19: each named write acts on the line as its register says, no other write lowers it, and a completion
leaves IE and sets DONE. -/
theorem interruptLineFollowsDoneAndEnable : Obligations.InterruptLineFollowsDoneAndEnable := by
  refine ⟨fun b => irq_iff, fun s v => ⟨fun hv => ?_, fun hv => ?_, fun hidle => ?_, fun hv hdone => ?_⟩,
    fun s size off v hhigh hlow => ?_, fun s t h => ?_⟩
  · rw [hostWrite_taken_blk rfl, irq_status_write, hv]; simp
  · rw [hostWrite_taken_blk rfl, irq_ctrl_write, hv]; rfl
  · rw [hostWrite_taken_blk rfl, irq_cmd_write, hidle]; simp
  · rw [hostWrite_taken_blk rfl, irq_ctrl_write, hv, hdone]; rfl
  · cases herr : isBusError size off with
    | true => rw [hostWrite_busError v s herr, respond_blk, hhigh] at hlow; cases hlow
    | false =>
      have hsize : size = .b32 := by
        by_contra hne
        rw [isBusError_iff.2 (.inl hne)] at herr
        cases herr
      subst hsize
      rw [hostWrite_taken_blk herr] at hlow
      exact ⟨rfl, writeWord_lowers_irq hhigh hlow⟩
  · rw [irq, complete_ie h, complete_done h, Bool.and_true]

end Sys2Proof.Machine
end

section
/-! PROOFS. The platform's reset (spec/70_reset_and_hazards.md R134). -/

namespace Sys2Proof.Machine

/-- A step of the platform is the reset and nothing else, whatever the engine had accepted. -/
theorem step_platform {s : State} (h : nextAgent s = .platform) : step s = .next (resetBlock (turn s)) := by
  rw [step, h]; rfl

theorem irq_reset : irq Block.reset = false := by rfl

/-- Settles O20: the platform's step is `resetBlock`, which puts `Block.reset` in the place of S; the unoccupied tables
are empty in it. -/
theorem resetRestoresEveryComponent : Obligations.ResetRestoresEveryComponent := by
  intro s hplatform
  exact ⟨Block.reset.node, Block.reset.code, step_platform hplatform, irq_reset⟩

end Sys2Proof.Machine
end
